-- ==== Sys2Proof/Word.lean ====
section
/-! DEFINITION. The machine's word, half word and byte (spec/00_scope.md R6, R8, R11). -/

namespace Sys2Proof

/-- A word is 64 bits: a register, an instruction word, a double (R6, R11). -/
abbrev Word := BitVec 64

/-- The 32 bits of an immediate, an absolute address, a memory operand or a float (R6). -/
abbrev Half := BitVec 32

/-- One byte of memory. -/
abbrev Byte := BitVec 8

end Sys2Proof
end

