-- ==== Sys2Proof/Syntax.lean ====
section
/-! DEFINITION. The syntax of the machine: registers, data types, operands and the 21 real
instructions of spec/30_encoding.md R103, one constructor for each row of spec/opcode_table.json. -/

namespace Sys2Proof

/-- The thirty registers of spec/10_state.md R20. `r k` is `$r(k+1)` and `s k` is `$s(k+1)`. -/
inductive Reg where
  | ip
  | sp
  | fp
  | flag
  | ret
  | zero
  | r (k : Fin 16)
  | s (k : Fin 8)
deriving DecidableEq, Repr

/-- The data type of an arithmetic instruction, bits 10 to 11 (spec/30_encoding.md R99): no suffix,
`s`, `f` and `d`. -/
inductive DType where
  | int64
  | int32
  | float
  | double
deriving DecidableEq, Repr

/-- The conditional field, bits 6 to 9 (spec/30_encoding.md R91, R100): the test bit and the three
test bits, which are kept even where the test bit is 0 and they are ignored (R101, R105). -/
structure Cond where
  test : Bool
  cc : BitVec 3
deriving DecidableEq, Repr

/-- The conditional field of an instruction written without a `?cc` postfix. -/
def Cond.always : Cond := ⟨false, 0⟩

/-- The 34-bit operand of spec/30_encoding.md R95, R96: the four addressing modes. As an `<addr>` it
may not be immediate (R98), which `Instr.wf` checks. -/
inductive Operand where
  | imm (data : Half)
  | mem (addr : Half)
  | reg (r : Reg)
  | regOff (r : Reg) (n : BitVec 24)
deriving DecidableEq, Repr

/-- The names of the 21 real instructions (spec/30_encoding.md R103). -/
inductive Op where
  | nop | load | loadu | store | add | sub | mul | div | idiv | cmp | b
  | not | and | or | xor | shr | shl | push | call | ret | syscall
deriving DecidableEq, Repr

/-- The real instructions with their operands (spec/30_encoding.md R93). `c` is the conditional
field, `d` the destination register, `s` the source register, `v` a `<value>`, `a` an `<addr>`. -/
inductive Instr where
  | nop
  | load (c : Cond) (d : Reg) (v : Operand)
  | loadu (c : Cond) (d : Reg) (v : Operand)
  | store (c : Cond) (r : Reg) (a : Operand)
  | add (c : Cond) (t : DType) (d s : Reg) (v : Operand)
  | sub (c : Cond) (t : DType) (d s : Reg) (v : Operand)
  | mul (c : Cond) (t : DType) (d s : Reg) (v : Operand)
  | div (c : Cond) (t : DType) (d s : Reg) (v : Operand)
  | idiv (c : Cond) (t : DType) (d s : Reg) (v : Operand)
  | cmp (c : Cond) (r : Reg) (v : Operand)
  | b (cnd : BitVec 3) (a : Operand)
  | not (c : Cond) (d s : Reg)
  | and (c : Cond) (d s : Reg) (v : Operand)
  | or (c : Cond) (d s : Reg) (v : Operand)
  | xor (c : Cond) (d s : Reg) (v : Operand)
  | shr (c : Cond) (d s : Reg) (v : Operand)
  | shl (c : Cond) (d s : Reg) (v : Operand)
  | push (c : Cond) (v : Operand)
  | call (c : Cond) (v : Operand)
  | ret (c : Cond)
  | syscall (c : Cond) (v : Operand)
deriving DecidableEq, Repr

/-- The name of an instruction. -/
def Instr.op : Instr → Op
  | .nop => .nop
  | .load .. => .load
  | .loadu .. => .loadu
  | .store .. => .store
  | .add .. => .add
  | .sub .. => .sub
  | .mul .. => .mul
  | .div .. => .div
  | .idiv .. => .idiv
  | .cmp .. => .cmp
  | .b .. => .b
  | .not .. => .not
  | .and .. => .and
  | .or .. => .or
  | .xor .. => .xor
  | .shr .. => .shr
  | .shl .. => .shl
  | .push .. => .push
  | .call .. => .call
  | .ret .. => .ret
  | .syscall .. => .syscall

/-- Every register, in the order of their numbers (spec/10_state.md R21). -/
def Reg.all : List Reg :=
  [.ip, .sp, .fp, .flag, .ret, .zero,
   .r 0, .r 1, .r 2, .r 3, .r 4, .r 5, .r 6, .r 7, .r 8, .r 9, .r 10, .r 11, .r 12, .r 13, .r 14, .r 15,
   .s 0, .s 1, .s 2, .s 3, .s 4, .s 5, .s 6, .s 7]

/-- Every real instruction's name, in the order of spec/30_encoding.md R103. -/
def Op.all : List Op :=
  [.nop, .load, .loadu, .store, .add, .sub, .mul, .div, .idiv, .cmp, .b,
   .not, .and, .or, .xor, .shr, .shl, .push, .call, .ret, .syscall]

end Sys2Proof
end

