-- ==== Sys2Proof/Config.lean ====
section
/-! DEFINITION. The parameters of spec/00_scope.md R7 as the fields of one configuration, `Params`: every
definition of the decoder and the machine that depends on one takes a `Params`, which is
`Config.reference` where none is given. `Config.reference` holds R7's reference values (DESIGN CHOICE: the
reference value is the spec's own choice where the source is silent; unsafe, log entry 1); the host's fixed
names (`exec`, `step`, `decodeTableWord`, `State.reset`) are the machine under it. `INIT` is the argument of
`State.resetFrom` (log entry 4). The parameters that no rule gives a value, `NUM` and the input sequence of a
run, are opaque constants under `Config.reference` (`Config.num`, `Config.input`: log entries 3 and 8). -/

namespace Sys2Proof

/-! ## Numbers of instructions and registers -/

/-- `OPCODE(m)`, the reference assignment (spec/30_encoding.md R103, D2). -/
def Config.opcode : Op → BitVec 6
  | .nop => 0
  | .load => 1
  | .loadu => 2
  | .store => 3
  | .add => 4
  | .sub => 5
  | .mul => 6
  | .div => 7
  | .idiv => 8
  | .cmp => 9
  | .b => 10
  | .not => 11
  | .and => 12
  | .or => 13
  | .xor => 14
  | .shr => 15
  | .shl => 16
  | .push => 17
  | .call => 18
  | .ret => 19
  | .syscall => 20

/-- `REGNUM(r)`, the reference assignment (spec/10_state.md R21, D1). -/
def Config.regNum : Reg → BitVec 8
  | .ip => 0
  | .sp => 1
  | .fp => 2
  | .flag => 3
  | .ret => 4
  | .zero => 5
  | .r k => BitVec.ofNat 8 (6 + k.val)
  | .s k => BitVec.ofNat 8 (22 + k.val)

/-! ## Choices with named alternatives -/

/-- `RESERVED_NONZERO` (R106, D6): what a non-zero unused bit does. -/
inductive ReservedNonzero where
  | fault
  | ignore
deriving DecidableEq, Repr

/-- `COND_MATCH` (spec/92_eei_decisions.md D10): how the test bits are compared with `$flag[2:0]`. -/
inductive CondMatch where
  | exact
  | relational
deriving DecidableEq, Repr

/-- `BYTE_ORDER` (R60, D15): which end of a multi-byte value lies at the lowest address. No program can
switch it. -/
inductive ByteOrder where
  | little
  | big
deriving DecidableEq, Repr

/-- `ALIGN` (R62, D16): none required, or the conservative reading of R62 and U17, under which a fetch at an
address that is not a multiple of 8 is turned away. (That it is turned away as a MemoryFault is a DESIGN
CHOICE about that alternative, log entry 1.) -/
inductive Align where
  | none
  | fetch
deriving DecidableEq, Repr

/-- `VALUE32_EXTEND` (D18): how a 32-bit value is widened to 64 bits. -/
inductive Extend where
  | zero
  | sign
deriving DecidableEq, Repr

/-- `IDIV_ROUND` (R167, D22): the rounding of integer quotients. -/
inductive DivRound where
  | trunc
  | floor
deriving DecidableEq, Repr

/-- `SHIFT_OVER` (R200, D27): a shift by 64 or more gives zero, or shifts by the amount modulo 64 as D27's
masking hardware does. -/
inductive ShiftOver where
  | zero
  | mask
deriving DecidableEq, Repr

/-! ## Layouts -/

/-- `FIELD_LAYOUT` (R93, D4, D8): the lowest bit of each operand field of an instruction word. `cnd` is that
of `b`'s `<cnd>`; in every other instruction those three bits are the test bits, which the source puts at 7
to 9 (R91). -/
structure FieldLayout where
  dst : Nat
  src : Nat
  value : Nat
  cnd : Nat
deriving DecidableEq, Repr

/-- The layout of the arithmetic class, which the source fixes (R92). -/
def FieldLayout.arithmetic : FieldLayout := ⟨12, 20, 28, 7⟩

/-- `VALUE_LAYOUT` (R95, D5): the lowest bit of the indicator and of the data inside the 34-bit value field,
and of the register number and of the offset inside the data. -/
structure ValueLayout where
  indicator : Nat
  data : Nat
  reg : Nat
  offset : Nat
deriving DecidableEq, Repr

/-- One item of the frame `call` pushes (R230): a register and the bytes it takes. -/
structure FrameItem where
  reg : Reg
  bytes : Nat
deriving DecidableEq, Repr

/-! ## The open parameter `NUM` -/

/-- `NUM` (spec/41_arithmetic.md R166): total functions of the operand bit patterns alone. -/
structure Num where
  add32 : Half → Half → Half
  sub32 : Half → Half → Half
  mul32 : Half → Half → Half
  div32 : Half → Half → Half
  add64 : Word → Word → Word
  sub64 : Word → Word → Word
  mul64 : Word → Word → Word
  div64 : Word → Word → Word
  toint32 : Half → Word
  toint64 : Word → Word
deriving Inhabited

/-- The machine's floating-point functions: OPEN (R166, D24), so nothing can be proved of a result
(safe, log entry 3). -/
opaque Config.num : Num

/-! ## The input sequence -/

/-- The input sequence of a run (spec/46_syscall.md R251): the item at each position, of whatever kind the
service that takes it asks for. It is total: there is no end of input. -/
structure Inputs where
  /-- For `read_int` and `read_double`. -/
  word64 : Nat → Word
  /-- For `read_float`. -/
  word32 : Nat → Half
  /-- For `read_char`. -/
  byte : Nat → Byte
  /-- For `read_string`; cut at its first NUL where it is drawn (log entry 9). -/
  bytes : Nat → List Byte
deriving Inhabited

/-- The input sequence of the host's fixed names: OPEN (R251, spec/92_eei_decisions.md section 6), so nothing
can be proved of an item (log entry 8). -/
opaque Config.input : Inputs

/-! ## The configuration -/

/-- The parameters of R7, one field for each row but `INIT`, and the input sequence of a run, which
spec/92_eei_decisions.md section 6 leaves open with them. -/
structure Params where
  /-- `OPCODE`. -/
  opcode : Op → BitVec 6
  /-- `REGNUM`. -/
  regNum : Reg → BitVec 8
  /-- `FIELD_LAYOUT`, of the instructions outside the arithmetic class. -/
  fieldLayout : FieldLayout
  /-- `VALUE_LAYOUT`. -/
  valueLayout : ValueLayout
  /-- `RESERVED_NONZERO`. -/
  reservedNonzero : ReservedNonzero
  /-- `COND_MATCH`. -/
  condMatch : CondMatch
  /-- `BYTE_ORDER`. -/
  byteOrder : ByteOrder
  /-- `ALIGN`. -/
  align : Align
  /-- `MEM_SIZE`, the length of the memory array of every run (`State.resetFrom`; log entry 2). -/
  memSize : Nat
  /-- `VALUE_BYTES`. -/
  valueBytes : Nat
  /-- `VALUE32_EXTEND`. -/
  value32Extend : Extend
  /-- `REGOFF_VALUE_DEREF`. -/
  regoffValueDeref : Bool
  /-- `STORE_BYTES`. -/
  storeBytes : Nat
  /-- `IDIV_ROUND`. -/
  idivRound : DivRound
  /-- `NUM`. -/
  num : Num
  /-- `SHIFT_OVER`. -/
  shiftOver : ShiftOver
  /-- `FRAME`, lowest address first. -/
  frame : List FrameItem
  /-- `ENTRY`. -/
  entry : Word
  /-- The input sequence. -/
  input : Inputs

/-- The reference values of R7's table. `MEM_SIZE` is OPEN there: 0x10000 is the size of
spec/95_test_vectors.md (log entry 2). -/
def Config.reference : Params where
  opcode := Config.opcode
  regNum := Config.regNum
  fieldLayout := FieldLayout.arithmetic
  valueLayout := ⟨0, 2, 0, 8⟩
  reservedNonzero := .fault
  condMatch := .exact
  byteOrder := .little
  align := .none
  memSize := 0x10000
  valueBytes := 4
  value32Extend := .zero
  regoffValueDeref := true
  storeBytes := 4
  idivRound := .trunc
  num := Config.num
  shiftOver := .zero
  frame := [⟨.fp, 8⟩, ⟨.ip, 8⟩, ⟨.s 0, 8⟩, ⟨.s 1, 8⟩, ⟨.s 2, 8⟩, ⟨.s 3, 8⟩, ⟨.s 4, 8⟩, ⟨.s 5, 8⟩,
    ⟨.s 6, 8⟩, ⟨.s 7, 8⟩]
  entry := 0
  input := Config.input

/-- The layout of an instruction: the source's for the arithmetic class (R92), `FIELD_LAYOUT` for every other
(R93), with the test bits where the source has them in all but `b`, which has none (R91, R102). -/
def Params.layoutOf (p : Params) : Op → FieldLayout
  | .add | .sub | .mul | .div | .idiv => .arithmetic
  | .b => p.fieldLayout
  | .nop | .load | .loadu | .store | .cmp | .not | .and | .or | .xor | .shr | .shl | .push | .call
  | .ret | .syscall => { p.fieldLayout with cnd := 7 }

/-- The two runs of bits share none. -/
def apart (a n b m : Nat) : Prop := a + n ≤ b ∨ b + m ≤ a

/-- What a configuration must meet to be one of the hardware's: `nop` "maps to a fully-zeroed word" (R103),
codes and numbers are different, the fields lie where R91 and R99 leave room for them, none over another
(R93, R95), `b`'s `<cnd>` above the opcode and clear of its `<addr>`, and memory ends below 2^64 (R66). -/
structure Params.Valid (p : Params) : Prop where
  nop : p.opcode .nop = 0
  opcodes : ∀ x y, p.opcode x = p.opcode y → x = y
  registers : ∀ x y, p.regNum x = p.regNum y → x = y
  dst : 12 ≤ p.fieldLayout.dst ∧ p.fieldLayout.dst + 8 ≤ 64
  src : 12 ≤ p.fieldLayout.src ∧ p.fieldLayout.src + 8 ≤ 64
  value : 12 ≤ p.fieldLayout.value ∧ p.fieldLayout.value + 34 ≤ 64
  fields : apart p.fieldLayout.dst 8 p.fieldLayout.src 8 ∧ apart p.fieldLayout.dst 8 p.fieldLayout.value 34 ∧
    apart p.fieldLayout.src 8 p.fieldLayout.value 34
  cnd : 6 ≤ p.fieldLayout.cnd ∧ p.fieldLayout.cnd + 3 ≤ 64 ∧ apart p.fieldLayout.cnd 3 p.fieldLayout.value 34
  parts : p.valueLayout.indicator + 2 ≤ 34 ∧ p.valueLayout.data + 32 ≤ 34 ∧
    apart p.valueLayout.indicator 2 p.valueLayout.data 32
  data : p.valueLayout.reg + 8 ≤ 32 ∧ p.valueLayout.offset + 24 ≤ 32 ∧
    apart p.valueLayout.reg 8 p.valueLayout.offset 24
  memory : p.memSize < 2 ^ 64

end Sys2Proof
end

