-- ==== Sys2Proof/Machine/Flags.lean ====
section
/-! DEFINITION. The bits of `$flag` (spec/10_state.md R29 to R36), the comparison codes (R31) and the
conditional test (spec/30_encoding.md R101, spec/92_eei_decisions.md D10). -/

namespace Sys2Proof.Machine

/-! ## Comparison codes (R31) -/

/-- `ne`, "not equal". -/
def ccNe : BitVec 3 := 0b000
/-- `eq`, "equal". -/
def ccEq : BitVec 3 := 0b001
/-- `lt`, "less than". -/
def ccLt : BitVec 3 := 0b010
/-- `le`, "less than or equal to". -/
def ccLe : BitVec 3 := 0b011
/-- `gt`, "greater than". -/
def ccGt : BitVec 3 := 0b110
/-- `ge`, "greater than or equal to". -/
def ccGe : BitVec 3 := 0b111

/-! ## Reading and writing the bits -/

/-- `flag.CMP`, bits 0 to 2 (R30). -/
def cmpBits (f : Word) : BitVec 3 := f.extractLsb' 0 3

/-- `flag.Z`, bit 3 (R32). -/
def zFlag (f : Word) : Bool := f.getLsbD 3

/-- `flag.RUN`, bit 4 (R33). -/
def runFlag (f : Word) : Bool := f.getLsbD 4

/-- `flag.ERR`, bit 5 (R34). -/
def errFlag (f : Word) : Bool := f.getLsbD 5

/-- A word with one bit replaced. -/
def withBit (f : Word) (i : Nat) (v : Bool) : Word :=
  if v then f ||| (1#64 <<< i) else f &&& ~~~(1#64 <<< i)

/-- `flag.CMP` replaced. -/
def withCmp (f : Word) (c : BitVec 3) : Word := f.extractLsb' 3 61 ++ c

/-- `flag.Z` replaced. -/
def withZ (f : Word) (v : Bool) : Word := withBit f 3 v

/-- `flag.RUN` replaced. -/
def withRun (f : Word) (v : Bool) : Word := withBit f 4 v

/-- `flag.ERR` replaced. -/
def withErr (f : Word) (v : Bool) : Word := withBit f 5 v

/-! ## The conditional test -/

/-- Whether the comparison bits pass a test: bit equality, or the relational reading of D10. -/
def ccMatches (m : CondMatch) (cmp test : BitVec 3) : Bool :=
  match m with
  | .exact => test == cmp
  | .relational =>
    test == cmp || (cmp == ccEq && (test == ccLe || test == ccGe)) ||
      (cmp == ccLt && (test == ccLe || test == ccNe)) ||
      (cmp == ccGt && (test == ccGe || test == ccNe))

/-- The instruction executes: its test bit is 0, or its test bits match (R101). -/
def condPasses (c : Cond) (flag : Word) (p : Params := Config.reference) : Bool :=
  !c.test || ccMatches p.condMatch (cmpBits flag) c.cc

/-- The code `cmp` writes: signed 64-bit comparison (spec/42_branching.md R180). -/
def compareCode (x y : Word) : BitVec 3 :=
  if x.toInt = y.toInt then ccEq else if x.toInt < y.toInt then ccLt else ccGt

end Sys2Proof.Machine
end

