-- ==== Sys2Proof/WellFormed.lean ====
section
/-! DEFINITION. What the syntax alone does not rule out: an `<addr>` may not be immediate
(spec/30_encoding.md R94, R98, R105 condition 5). Register numbers, opcodes, data types and the widths
of all fields are well formed by their types. -/

namespace Sys2Proof

/-- An operand that may stand as an `<addr>`: "Any listed addressing mode except immediate" (R98). -/
def Operand.isAddr : Operand → Bool
  | .imm _ => false
  | .mem _ => true
  | .reg _ => true
  | .regOff _ _ => true

/-- A well-formed instruction: the `<addr>` of `store` and `b` is not immediate (R105 condition 5). -/
def Instr.wf : Instr → Bool
  | .store _ _ a => a.isAddr
  | .b _ a => a.isAddr
  | .nop | .load .. | .loadu .. | .add .. | .sub .. | .mul .. | .div .. | .idiv .. | .cmp ..
  | .not .. | .and .. | .or .. | .xor .. | .shr .. | .shl .. | .push .. | .call .. | .ret ..
  | .syscall .. => true

end Sys2Proof
end

