-- ==== Sys2Proof/Decode.lean ====
section
/-! DEFINITION. Bytes and numbers, the fields of an instruction word, the decoder and the encoder
(spec/30_encoding.md R90 to R106; spec/20_memory.md R60). -/

namespace Sys2Proof

/-! ## Byte order (spec/20_memory.md R60) -/

/-- The number that a list of bytes holds, least significant byte first. -/
def natOfBytes : List Byte → Nat
  | [] => 0
  | b :: bs => b.toNat + 256 * natOfBytes bs

/-- The low `8n` bits of a number as `n` bytes, least significant byte first. -/
def bytesOfNat : Nat → Nat → List Byte
  | 0, _ => []
  | n + 1, v => BitVec.ofNat 8 v :: bytesOfNat n (v / 256)

/-- Bytes from the least significant up as they lie in memory from the lowest address up, and back: the
same order under `BYTE_ORDER = little` (R60). -/
def ByteOrder.arrange : ByteOrder → List Byte → List Byte
  | .little, bs => bs
  | .big, bs => bs.reverse

/-- The number that bytes in memory hold, lowest address first. -/
def natOfMem (bs : List Byte) (p : Params := Config.reference) : Nat := natOfBytes (p.byteOrder.arrange bs)

/-- The low `8n` bits of a number as they lie in memory, lowest address first. -/
def memOfNat (n v : Nat) (p : Params := Config.reference) : List Byte :=
  p.byteOrder.arrange (bytesOfNat n v)

/-! ## The fields of a word (R91 to R93) -/

/-- The fields of an instruction word. -/
structure Fields where
  opcode : BitVec 6
  test : BitVec 1
  cc : BitVec 3
  dtype : BitVec 2
  dst : BitVec 8
  src : BitVec 8
  value : BitVec 34
deriving DecidableEq, Repr

/-- The opcode of a word, bits 0 to 5 (R91). -/
def opcodeOf (w : Word) : BitVec 6 := w.extractLsb' 0 6

/-- The fields of a word: bits 0-5, 6 and 10-11 (R91, R99), and the test bits or `<cnd>` and the operands
where the layout has them. -/
def Fields.ofWord (w : Word) (l : FieldLayout) : Fields where
  opcode := opcodeOf w
  test := w.extractLsb' 6 1
  cc := w.extractLsb' l.cnd 3
  dtype := w.extractLsb' 10 2
  dst := w.extractLsb' l.dst 8
  src := w.extractLsb' l.src 8
  value := w.extractLsb' l.value 34

/-- A field at its place in an otherwise zero word of `m` bits. -/
def placed {n : Nat} (m k : Nat) (f : BitVec n) : BitVec m := f.setWidth m <<< k

/-- The word with these fields and every other bit zero. -/
def Fields.toWord (f : Fields) (l : FieldLayout) : Word :=
  placed 64 0 f.opcode ||| placed 64 6 f.test ||| placed 64 l.cnd f.cc ||| placed 64 10 f.dtype |||
    placed 64 l.dst f.dst ||| placed 64 l.src f.src ||| placed 64 l.value f.value

/-- Which fields an instruction uses: the table of R93. A field not used must be zero. -/
structure Usage where
  test : Bool := false
  cc : Bool := false
  dtype : Bool := false
  dst : Bool := false
  src : Bool := false
  value : Bool := false
deriving DecidableEq, Repr

/-- The rows of R93's table. -/
def Op.usage : Op → Usage
  | .nop => {}
  | .load | .loadu | .store | .cmp => { test := true, cc := true, dst := true, value := true }
  | .add | .sub | .mul | .div | .idiv =>
    { test := true, cc := true, dtype := true, dst := true, src := true, value := true }
  | .b => { cc := true, value := true }
  | .not => { test := true, cc := true, dst := true, src := true }
  | .and | .or | .xor | .shr | .shl =>
    { test := true, cc := true, dst := true, src := true, value := true }
  | .push | .call | .syscall => { test := true, cc := true, value := true }
  | .ret => { test := true, cc := true }

/-- The fields an instruction uses, every other made zero. -/
def Fields.only (f : Fields) (u : Usage) : Fields where
  opcode := f.opcode
  test := if u.test then f.test else 0
  cc := if u.cc then f.cc else 0
  dtype := if u.dtype then f.dtype else 0
  dst := if u.dst then f.dst else 0
  src := if u.src then f.src else 0
  value := if u.value then f.value else 0

/-- A bit is set outside the fields the instruction uses (R105 condition 2). -/
def strayBits (w : Word) (l : FieldLayout) (u : Usage) : Bool :=
  ((Fields.ofWord w l).only u).toWord l != w

/-! ## The decoder -/

/-- Why a word or a run of bytes is no instruction: R105's conditions by name, and bytes too few. -/
inductive DecodeError where
  /-- Condition 1: an unassigned opcode, or opcode 0 in a non-zero word. -/
  | unassignedOpcode
  /-- Conditions 2 and 4: a bit that must be zero is not. -/
  | reservedNonzero
  /-- Conditions 3 and 4: a register number above 29. -/
  | badRegister
  /-- Condition 5: an immediate where an `<addr>` stands. -/
  | immediateAddress
  /-- Fewer than the eight bytes of an instruction. -/
  | tooFewBytes
deriving DecidableEq, Repr

/-- The instruction with an opcode, if the opcode is assigned. -/
def opOfCode (c : BitVec 6) (p : Params := Config.reference) : Option Op :=
  Op.all.find? fun o => p.opcode o == c

/-- The register with a number, if the number names one. -/
def regOfNum (n : BitVec 8) (p : Params := Config.reference) : Option Reg :=
  Reg.all.find? fun r => p.regNum r == n

/-- A register field (R105 conditions 3 and 4). -/
def decodeReg (n : BitVec 8) (p : Params := Config.reference) : Except DecodeError Reg :=
  match regOfNum n p with
  | some r => .ok r
  | none => .error .badRegister

/-- The data type field (R99). -/
def decodeDType (t : BitVec 2) : DType :=
  if t = 0 then .int64 else if t = 1 then .int32 else if t = 2 then .float else .double

/-- The register number of the data, as register or as register offset (R95). -/
def decodeRegOperand (data : Half) (k : Reg → Operand) (p : Params := Config.reference) :
    Except DecodeError Operand :=
  match decodeReg (data.extractLsb' p.valueLayout.reg 8) p with
  | .ok r => .ok (k r)
  | .error e => .error e

/-- The 34-bit value field (R95, R96). In register mode the bits of the offset must be zero. -/
def decodeOperand (f : BitVec 34) (p : Params := Config.reference) : Except DecodeError Operand :=
  let ind := f.extractLsb' p.valueLayout.indicator 2
  let data : Half := f.extractLsb' p.valueLayout.data 32
  let offset : BitVec 24 := data.extractLsb' p.valueLayout.offset 24
  if ind = 0 then .ok (.imm data)
  else if ind = 1 then .ok (.mem data)
  else if ind = 2 then
    if p.reservedNonzero = .fault ∧ offset ≠ 0 then .error .reservedNonzero
    else decodeRegOperand data .reg p
  else decodeRegOperand data (fun r => .regOff r offset) p

/-- The value field where an `<addr>` stands (R98, R105 condition 5). -/
def decodeAddr (f : BitVec 34) (p : Params := Config.reference) : Except DecodeError Operand :=
  match decodeOperand f p with
  | .error e => .error e
  | .ok v => if v.isAddr then .ok v else .error .immediateAddress

/-- The conditional field of a word (R91). -/
def Fields.cond (f : Fields) : Cond := ⟨f.test == 1, f.cc⟩

/-- Decode one register and one operand. -/
def decodeRegValue (f : Fields) (k : Reg → Operand → Instr) (p : Params := Config.reference) :
    Except DecodeError Instr :=
  match decodeReg f.dst p, decodeOperand f.value p with
  | .ok d, .ok v => .ok (k d v)
  | .error e, _ => .error e
  | _, .error e => .error e

/-- Decode two registers and one operand. -/
def decodeRegRegValue (f : Fields) (k : Reg → Reg → Operand → Instr) (p : Params := Config.reference) :
    Except DecodeError Instr :=
  match decodeReg f.dst p, decodeReg f.src p, decodeOperand f.value p with
  | .ok d, .ok s, .ok v => .ok (k d s v)
  | .error e, _, _ => .error e
  | _, .error e, _ => .error e
  | _, _, .error e => .error e

/-- Decode two registers. -/
def decodeRegReg (f : Fields) (k : Reg → Reg → Instr) (p : Params := Config.reference) :
    Except DecodeError Instr :=
  match decodeReg f.dst p, decodeReg f.src p with
  | .ok d, .ok s => .ok (k d s)
  | .error e, _ => .error e
  | _, .error e => .error e

/-- Decode one register and one `<addr>`. -/
def decodeRegAddr (f : Fields) (k : Reg → Operand → Instr) (p : Params := Config.reference) :
    Except DecodeError Instr :=
  match decodeReg f.dst p, decodeAddr f.value p with
  | .ok d, .ok a => .ok (k d a)
  | .error e, _ => .error e
  | _, .error e => .error e

/-- Decode one operand. -/
def decodeValue (f : Fields) (k : Operand → Instr) (p : Params := Config.reference) :
    Except DecodeError Instr :=
  match decodeOperand f.value p with
  | .ok v => .ok (k v)
  | .error e => .error e

/-- Decode one `<addr>`. -/
def decodeAddrOnly (f : Fields) (k : Operand → Instr) (p : Params := Config.reference) :
    Except DecodeError Instr :=
  match decodeAddr f.value p with
  | .ok a => .ok (k a)
  | .error e => .error e

/-- The operands of a known instruction, from the fields R93 gives it. -/
def decodeAs (o : Op) (f : Fields) (p : Params := Config.reference) : Except DecodeError Instr :=
  match o with
  | .nop => .ok .nop
  | .load => decodeRegValue f (.load f.cond) p
  | .loadu => decodeRegValue f (.loadu f.cond) p
  | .store => decodeRegAddr f (.store f.cond) p
  | .add => decodeRegRegValue f (.add f.cond (decodeDType f.dtype)) p
  | .sub => decodeRegRegValue f (.sub f.cond (decodeDType f.dtype)) p
  | .mul => decodeRegRegValue f (.mul f.cond (decodeDType f.dtype)) p
  | .div => decodeRegRegValue f (.div f.cond (decodeDType f.dtype)) p
  | .idiv => decodeRegRegValue f (.idiv f.cond (decodeDType f.dtype)) p
  | .cmp => decodeRegValue f (.cmp f.cond) p
  | .b => decodeAddrOnly f (.b f.cc) p
  | .not => decodeRegReg f (.not f.cond) p
  | .and => decodeRegRegValue f (.and f.cond) p
  | .or => decodeRegRegValue f (.or f.cond) p
  | .xor => decodeRegRegValue f (.xor f.cond) p
  | .shr => decodeRegRegValue f (.shr f.cond) p
  | .shl => decodeRegRegValue f (.shl f.cond) p
  | .push => decodeValue f (.push f.cond) p
  | .call => decodeValue f (.call f.cond) p
  | .ret => .ok (.ret f.cond)
  | .syscall => decodeValue f (.syscall f.cond) p

/-- The decoder, total on words: an instruction, or the reason the word is illegal (R104, R105). The
zero word alone is `nop`. -/
def decode (w : Word) (p : Params := Config.reference) : Except DecodeError Instr :=
  match opOfCode (opcodeOf w) p with
  | none => .error .unassignedOpcode
  | some o =>
    if o = .nop ∧ w ≠ 0 then .error .unassignedOpcode
    else if p.reservedNonzero = .fault ∧ strayBits w (p.layoutOf o) o.usage then .error .reservedNonzero
    else decodeAs o (Fields.ofWord w (p.layoutOf o)) p

/-- The decoder on bytes as they lie in memory (R90): the first instruction and the bytes after it. -/
def decodeBytes (bs : List Byte) (p : Params := Config.reference) :
    Except DecodeError (Instr × List Byte) :=
  if bs.length < 8 then .error .tooFewBytes
  else
    match decode (BitVec.ofNat 64 (natOfMem (bs.take 8) p)) p with
    | .ok i => .ok (i, bs.drop 8)
    | .error e => .error e

/-- The instruction the decoder reads from an instruction whose low `nbits` bits are those of `w`, the
bits above zero, laid out in memory as the hardware stores it. -/
def decodeTableWord (nbits w : Nat) : Option Instr :=
  match decodeBytes (memOfNat 8 (w % 2 ^ nbits)) with
  | .ok (i, _) => some i
  | .error _ => none

/-! ## The encoder -/

/-- The data type field (R99). -/
def encodeDType : DType → BitVec 2
  | .int64 => 0
  | .int32 => 1
  | .float => 2
  | .double => 3

/-- The 34-bit value field of an indicator and data (R95). -/
def valueField (ind : BitVec 2) (data : Half) (p : Params := Config.reference) : BitVec 34 :=
  placed 34 p.valueLayout.data data ||| placed 34 p.valueLayout.indicator ind

/-- The data of a register number and an offset (R95). -/
def registerData (r : Reg) (n : BitVec 24) (p : Params := Config.reference) : Half :=
  placed 32 p.valueLayout.offset n ||| placed 32 p.valueLayout.reg (p.regNum r)

/-- The 34-bit value field of an operand (R95, R96). -/
def encodeOperand (v : Operand) (p : Params := Config.reference) : BitVec 34 :=
  match v with
  | .imm d => valueField 0 d p
  | .mem a => valueField 1 a p
  | .reg r => valueField 2 (registerData r 0 p) p
  | .regOff r n => valueField 3 (registerData r n p) p

/-- The fields of an instruction with this opcode and nothing else. -/
def Fields.blank (o : Op) (p : Params := Config.reference) : Fields := ⟨p.opcode o, 0, 0, 0, 0, 0, 0⟩

/-- The fields of an instruction with this opcode and conditional field. -/
def Fields.conditional (o : Op) (c : Cond) (p : Params := Config.reference) : Fields :=
  { Fields.blank o p with test := if c.test then 1 else 0, cc := c.cc }

/-- Opcode, conditional field, one register, one operand. -/
def Fields.regValue (o : Op) (c : Cond) (d : Reg) (v : Operand) (p : Params := Config.reference) : Fields :=
  { Fields.conditional o c p with dst := p.regNum d, value := encodeOperand v p }

/-- Opcode, conditional field, two registers, one operand. -/
def Fields.regRegValue (o : Op) (c : Cond) (d s : Reg) (v : Operand) (p : Params := Config.reference) :
    Fields :=
  { Fields.regValue o c d v p with src := p.regNum s }

/-- The arithmetic class (R92). -/
def Fields.arithmetic (o : Op) (c : Cond) (t : DType) (d s : Reg) (v : Operand)
    (p : Params := Config.reference) : Fields :=
  { Fields.regRegValue o c d s v p with dtype := encodeDType t }

/-- Opcode, conditional field, one operand. -/
def Fields.valueOnly (o : Op) (c : Cond) (v : Operand) (p : Params := Config.reference) : Fields :=
  { Fields.conditional o c p with value := encodeOperand v p }

/-- The fields of an instruction, each row of R93's table. -/
def encodeFields (i : Instr) (p : Params := Config.reference) : Fields :=
  match i with
  | .nop => Fields.blank .nop p
  | .load c d v => Fields.regValue .load c d v p
  | .loadu c d v => Fields.regValue .loadu c d v p
  | .store c r a => Fields.regValue .store c r a p
  | .add c t d s v => Fields.arithmetic .add c t d s v p
  | .sub c t d s v => Fields.arithmetic .sub c t d s v p
  | .mul c t d s v => Fields.arithmetic .mul c t d s v p
  | .div c t d s v => Fields.arithmetic .div c t d s v p
  | .idiv c t d s v => Fields.arithmetic .idiv c t d s v p
  | .cmp c r v => Fields.regValue .cmp c r v p
  | .b cnd a => { Fields.blank .b p with cc := cnd, value := encodeOperand a p }
  | .not c d s => { Fields.conditional .not c p with dst := p.regNum d, src := p.regNum s }
  | .and c d s v => Fields.regRegValue .and c d s v p
  | .or c d s v => Fields.regRegValue .or c d s v p
  | .xor c d s v => Fields.regRegValue .xor c d s v p
  | .shr c d s v => Fields.regRegValue .shr c d s v p
  | .shl c d s v => Fields.regRegValue .shl c d s v p
  | .push c v => Fields.valueOnly .push c v p
  | .call c v => Fields.valueOnly .call c v p
  | .ret c => Fields.conditional .ret c p
  | .syscall c v => Fields.valueOnly .syscall c v p

/-- The word of an instruction (R90 to R95, R103). -/
def encode (i : Instr) (p : Params := Config.reference) : Word :=
  (encodeFields i p).toWord (p.layoutOf i.op)

/-- The eight bytes of an instruction as they lie in memory (R90, spec/20_memory.md R60). -/
def encodeBytes (i : Instr) (p : Params := Config.reference) : List Byte :=
  memOfNat 8 (encode i p).toNat p

end Sys2Proof
end

