-- ==== Sys2Proof/Machine/State.lean ====
section
/-! DEFINITION. The machine's state as plain data (spec/10_state.md R20 to R40), the host record it
carries (R39), the fault reasons, and the state after reset. -/

namespace Sys2Proof.Machine

/-- Memory: `size` bytes at addresses 0 to `size - 1` (spec/20_memory.md R65). `cells` lists, with
addresses strictly rising, the bytes that differ from `unlistedByte` (`Memory.wf`). The length is that
of the array R37 makes state, `MEM_SIZE` bytes: reset gives it (`State.resetFrom`) and no step changes it
(DESIGN CHOICE of the form, log entry 2). -/
structure Memory where
  size : Nat
  cells : List Host.Cell
deriving DecidableEq, Repr

/-- What a system call shows the host (spec/46_syscall.md R251), with the raw bits or bytes. -/
inductive Event where
  | printInt (v : Word)
  | printFloat (b : Half)
  | printDouble (b : Word)
  | printChar (c : Byte)
  | printString (bytes : List Byte)
  | exit
  | exit2 (code : Word)
deriving DecidableEq, Repr

/-- One item of the input sequence (spec/46_syscall.md R251): a 64-bit word for `read_int` and
`read_double`, a 32-bit word for `read_float`, a byte for `read_char`, a byte string for
`read_string`. -/
inductive InputItem where
  | word64 (w : Word)
  | word32 (w : Half)
  | byte (b : Byte)
  | bytes (bs : List Byte)
deriving DecidableEq, Repr

/-- The reason a fault leaves at model level (spec/60_exceptions.md R280, R281): its kind and the
information R280's table gives it. No instruction can read it. -/
inductive FaultReason where
  /-- R282: the fetched word is no instruction. -/
  | illegalInstruction (w : Word)
  /-- R283: the first address of the access, as an unsigned number, and its width in bytes. -/
  | memoryFault (addr width : Nat)
  /-- R284: an integer `div` or `idiv` by zero. -/
  | divideByZero
  /-- R285: a service number that is not 1 to 12. -/
  | unknownSyscall (k : Word)
deriving DecidableEq, Repr

/-- How a step of the model could end without a next state for a reason of the machine. There is none:
every fault of the spec is a state of the machine, which stands halted with `ERR` set and its reason
recorded (R281), and is taken as a NEXT state (safe, log entry 7). -/
inductive Fault where
deriving DecidableEq, Repr

/-- How a step could end for want of a meaning. -/
inductive Refusal where
  /-- Raised by a refused arm of `exec` alone: the instruction has no meaning yet (safe: nothing is
  claimed of it). No arm is refused. -/
  | notModelled (mnemonic : String)
deriving DecidableEq, Repr

/-- The whole state. -/
structure State where
  /-- `$ip`, the address of the next instruction (R22). -/
  ip : Word
  /-- `$sp`, the first free byte above the stack (R23). -/
  sp : Word
  /-- `$fp` (R24). -/
  fp : Word
  /-- `$flag`: `CMP` in bits 0 to 2, `Z` 3, `RUN` 4, `ERR` 5, storage above (R29 to R36). -/
  flag : Word
  /-- `$ret` (R25). -/
  ret : Word
  /-- `$r1` to `$r16` (R26): `gpr[k]` is `$r(k+1)`. -/
  gpr : Vector Word 16
  /-- `$s1` to `$s8` (R26): `pres[k]` is `$s(k+1)`. -/
  pres : Vector Word 8
  /-- Memory (R37). -/
  mem : Memory
  /-- The outputs and exits so far, oldest first (R39, spec/46_syscall.md R251). R39 speaks of one sequence with
  the inputs consumed, R294 of two: that they are two lists, the order between them not recorded, is a DESIGN
  CHOICE (safe, log entry 17). -/
  events : List Event
  /-- The input items drawn so far, oldest first (R39, spec/60_exceptions.md R294): as many as the input
  sequence, which is no state (spec/00_scope.md R12), has been drawn. A list of its own: log entry 17. -/
  consumed : List InputItem
  /-- The reason of the fault that stopped the machine, if one did (R39). -/
  reason : Option FaultReason
deriving DecidableEq, Repr

/-- The state after reset (R40, spec/70_reset_and_hazards.md R311). Fixed by the spec: `RUN` = 1, `ERR`
= 0, the host record empty; `$ip` = `ENTRY`. Every register and flag bit that R40 leaves to `INIT` is 0,
and memory is `MEM_SIZE` (0x10000) bytes with nothing listed (DESIGN CHOICE, unsafe, log entries 2, 4 and
5). `State.resetFrom` takes any `INIT`. -/
def State.reset : State where
  ip := Config.reference.entry
  sp := 0
  fp := 0
  flag := 0x10
  ret := 0
  gpr := Vector.replicate 16 0
  pres := Vector.replicate 8 0
  mem := { size := Config.reference.memSize, cells := [] }
  events := []
  consumed := []
  reason := none

end Sys2Proof.Machine
end

