-- ==== Sys2Proof/Machine/Memory.lean ====
section
/-! DEFINITION. Bytes of memory in one canonical form (spec/20_memory.md R60 to R68). -/

namespace Sys2Proof.Machine

/-- What an address reads as that memory does not list. The spec leaves the bytes outside the loaded
image to `INIT` (spec/10_state.md R40): 0 is a DESIGN CHOICE, unsafe, log entry 5. -/
def unlistedByte : Byte := 0

/-- The byte listed at an address. -/
def lookupCell : List Host.Cell → Nat → Byte
  | [], _ => unlistedByte
  | (k, b) :: cs, a => if k = a then b else lookupCell cs a

/-- An entry put before the first entry with a higher address. -/
def insertCell : List Host.Cell → Nat → Byte → List Host.Cell
  | [], a, b => [(a, b)]
  | (k, c) :: cs, a, b => if a < k then (a, b) :: (k, c) :: cs else (k, c) :: insertCell cs a b

/-- The listing with one byte replaced: the old entry goes, and the new one is listed unless it is what
an unlisted address reads as. -/
def setCell (cs : List Host.Cell) (a : Nat) (b : Byte) : List Host.Cell :=
  let rest := cs.filter fun c => c.1 != a
  if b = unlistedByte then rest else insertCell rest a b

/-- The listing is canonical above `lo` and below `size`: addresses at least `lo`, strictly rising and
inside memory, no byte equal to `unlistedByte`. -/
def cellsWf (size : Nat) : Nat → List Host.Cell → Bool
  | _, [] => true
  | lo, (k, b) :: cs => lo ≤ k && k < size && b != unlistedByte && cellsWf size (k + 1) cs

/-- The canonical form, and a size that R66 allows: an address near 2^64 is outside memory, so the size
is below 2^64 (DEDUCED, log entry 2). -/
def Memory.wf (m : Memory) : Bool := m.size < 2 ^ 64 && cellsWf m.size 0 m.cells

/-- The byte at an address. -/
def Memory.byte (m : Memory) (a : Nat) : Byte := lookupCell m.cells a

/-- Memory with one byte replaced. -/
def Memory.setByte (m : Memory) (a : Nat) (b : Byte) : Memory := { m with cells := setCell m.cells a b }

/-- The `n` bytes from an address up. -/
def Memory.bytes (m : Memory) (a : Nat) : Nat → List Byte
  | 0 => []
  | n + 1 => m.byte a :: m.bytes (a + 1) n

/-- Memory with bytes replaced from an address up. -/
def Memory.setBytes (m : Memory) (a : Nat) : List Byte → Memory
  | [] => m
  | b :: bs => (m.setByte a b).setBytes (a + 1) bs

/-- An array of `n` bytes with the same bytes at the addresses both have. -/
def Memory.ofSize (m : Memory) (n : Nat) : Memory := ⟨n, m.cells.filter fun c => c.1 < n⟩

/-- The range check of R66, in unbounded integers: no wrap-around. -/
def Memory.inRange (m : Memory) (a n : Nat) : Bool := a + n ≤ m.size

/-- The bytes from an address up to the first zero byte, the zero not among them, or `none` where
memory ends before one. The first argument is how many bytes of memory remain at the address. -/
def Memory.scan (m : Memory) : Nat → Nat → Option (List Byte)
  | 0, _ => none
  | n + 1, a => if m.byte a = 0 then some [] else (m.scan n (a + 1)).map (m.byte a :: ·)

end Sys2Proof.Machine
end

