-- ==== Sys2Proof/Machine/Ops.lean ====
section
/-! DEFINITION. The named operations over registers and memory, taking a fault, the conditional test
around an instruction, the destination write with `SetZ`, and the host record. -/

namespace Sys2Proof.Machine

/-- What a meaning answers. -/
abbrev Outcome := Host.Outcome State Fault Refusal

/-! ## Registers -/

/-- `R[i]` (spec/00_scope.md R9): `$zero` reads 0 (spec/10_state.md R27). -/
def State.reg (s : State) : Reg → Word
  | .ip => s.ip
  | .sp => s.sp
  | .fp => s.fp
  | .flag => s.flag
  | .ret => s.ret
  | .zero => 0
  | .r k => s.gpr[k]
  | .s k => s.pres[k]

/-- `R[i] <- v` (spec/00_scope.md R9): a write to `$zero` is discarded (spec/10_state.md R27). -/
def State.setReg (s : State) (d : Reg) (v : Word) : State :=
  match d with
  | .ip => { s with ip := v }
  | .sp => { s with sp := v }
  | .fp => { s with fp := v }
  | .flag => { s with flag := v }
  | .ret => { s with ret := v }
  | .zero => s
  | .r k => { s with gpr := s.gpr.set k v }
  | .s k => { s with pres := s.pres.set k v }

/-- Several registers written, the first of the list first. -/
def State.setRegs (s : State) : List (Reg × Word) → State
  | [] => s
  | (d, v) :: ws => (s.setReg d v).setRegs ws

/-- `SetZ(d)`: bit 3 of `$flag` tells whether the register now reads 0 (spec/10_state.md R32). -/
def State.setZ (s : State) (d : Reg) : State := { s with flag := withZ s.flag (s.reg d == 0) }

/-- The write of a destination register followed by `SetZ` (spec/10_state.md R32, R36). -/
def State.writeDest (s : State) (d : Reg) (v : Word) : State := (s.setReg d v).setZ d

/-! ## Memory -/

/-- `MemRead(addr, n)` (spec/00_scope.md R9, spec/20_memory.md R60, R66). -/
def State.memRead (s : State) (a : Word) (n : Nat) (p : Params := Config.reference) :
    Except FaultReason Nat :=
  if s.mem.inRange a.toNat n then .ok (natOfMem (s.mem.bytes a.toNat n) p)
  else .error (.memoryFault a.toNat n)

/-- The bytes from an address up replaced, after the range check of R66. -/
def State.memWriteBytes (s : State) (a : Word) (bs : List Byte) : Except FaultReason State :=
  if s.mem.inRange a.toNat bs.length then .ok { s with mem := s.mem.setBytes a.toNat bs }
  else .error (.memoryFault a.toNat bs.length)

/-- `MemWrite(addr, n, v)`: the low `8n` bits (spec/00_scope.md R9, spec/20_memory.md R60, R66). -/
def State.memWrite (s : State) (a : Word) (n v : Nat) (p : Params := Config.reference) :
    Except FaultReason State :=
  s.memWriteBytes a (memOfNat n v p)

/-! ## Taking a fault (spec/60_exceptions.md R281)

There is no return from a fault: a halted processor executes nothing, and only reset restarts it
(R288; `State.resetFrom`). -/

/-- Fault entry: `ERR` <- 1, `RUN` <- 0, nothing else; the reason is recorded at model level. -/
def State.faulted (s : State) (r : FaultReason) : State :=
  { s with flag := withRun (withErr s.flag true) false, reason := some r }

/-- An instruction ends with a fault: the machine goes to the halted state of R281, and nothing else the
instruction would have written is written (R287). -/
def raise (s : State) (r : FaultReason) : Outcome := .next (s.faulted r)

/-- Go on with the result of a check, or raise its fault in the state `s`. -/
def orRaise {α : Type} (s : State) (x : Except FaultReason α) (k : α → Outcome) : Outcome :=
  match x with
  | .ok v => k v
  | .error r => raise s r

/-- The conditional test around an instruction (spec/30_encoding.md R101): a skipped instruction does
nothing. -/
def conditional (c : Cond) (s : State) (k : Outcome) (p : Params := Config.reference) : Outcome :=
  if condPasses c s.flag p then k else .next s

/-! ## The host record -/

/-- An event appended (spec/46_syscall.md R251). -/
def State.emit (s : State) (e : Event) : State := { s with events := s.events ++ [e] }

/-- An input item drawn and recorded (R39, R251). -/
def State.drawn (s : State) (x : InputItem) : State := { s with consumed := s.consumed ++ [x] }

/-- The 64-bit word the next draw yields: the next item of the input sequence, as many having been drawn as are
recorded (spec/46_syscall.md R251; log entry 8). -/
def State.nextWord64 (s : State) (p : Params := Config.reference) : Word := p.input.word64 s.consumed.length

/-- The 32-bit word the next draw yields. -/
def State.nextWord32 (s : State) (p : Params := Config.reference) : Half := p.input.word32 s.consumed.length

/-- The byte the next draw yields. -/
def State.nextByte (s : State) (p : Params := Config.reference) : Byte := p.input.byte s.consumed.length

/-- A byte string up to its first NUL: an item of R251 holds none. -/
def cutAtNul (bs : List Byte) : List Byte := bs.takeWhile (· != 0)

/-- The byte string the next draw yields, without NUL (R251; log entry 9). -/
def State.nextBytes (s : State) (p : Params := Config.reference) : List Byte :=
  cutAtNul (p.input.bytes s.consumed.length)

end Sys2Proof.Machine
end

