-- ==== Sys2Proof/Machine/Operands.lean ====
section
/-! DEFINITION. The operand forms (spec/30_encoding.md R95 to R98) and the widening of 32-bit values. -/

namespace Sys2Proof.Machine

/-- The low 32 bits of a word. -/
def lowHalf (w : Word) : Half := w.extractLsb' 0 32

/-- `ext32` under a value of `VALUE32_EXTEND` (spec/00_scope.md R9). -/
def extend32 (e : Extend) (v : Half) : Word :=
  match e with
  | .zero => v.setWidth 64
  | .sign => v.signExtend 64

/-- `ext32` (spec/00_scope.md R9, spec/92_eei_decisions.md D18). -/
def ext32 (v : Half) (p : Params := Config.reference) : Word := extend32 p.value32Extend v

/-- The effective address of the register-offset mode: register plus signed 24-bit offset, modulo 2^64
(R97, R98). -/
def State.offsetAddr (s : State) (r : Reg) (n : BitVec 24) : Word := s.reg r + n.signExtend 64

/-- A memory operand: `VALUE_BYTES` bytes, 32 bits of them widened by `ext32` (R97), more than 32 as they
stand. -/
def State.memValue (s : State) (a : Word) (p : Params := Config.reference) : Except FaultReason Word :=
  match s.memRead a p.valueBytes p with
  | .ok v => .ok (if p.valueBytes ≤ 4 then ext32 (BitVec.ofNat 32 v) p else BitVec.ofNat 64 v)
  | .error e => .error e

/-- `V(f)`, the value of a `<value>` operand (R97). -/
def State.value (s : State) (v : Operand) (p : Params := Config.reference) : Except FaultReason Word :=
  match v with
  | .imm d => .ok (ext32 d p)
  | .mem a => s.memValue (a.setWidth 64) p
  | .reg r => .ok (s.reg r)
  | .regOff r n =>
    if p.regoffValueDeref then s.memValue (s.offsetAddr r n) p else .ok (s.offsetAddr r n)

/-- `A(f)`, the address an `<addr>` operand names; an immediate names none (R98). `A` reads no memory. -/
def State.addr (s : State) : Operand → Option Word
  | .imm _ => none
  | .mem a => some (a.setWidth 64)
  | .reg r => some (s.reg r)
  | .regOff r n => some (s.offsetAddr r n)

/-- Go on with the value of an operand, or raise the fault its read meets (R97). -/
def withValue (s : State) (v : Operand) (k : Word → Outcome) (p : Params := Config.reference) : Outcome :=
  orRaise s (s.value v p) k

/-- Go on with the address of an `<addr>`. The decoder yields no immediate there; an instruction built
with one raises IllegalInstruction on its word, before any conditional test (R105 condition 5, R282; log
entry 14). -/
def withAddr (s : State) (i : Instr) (a : Operand) (k : Word → Outcome)
    (p : Params := Config.reference) : Outcome :=
  match s.addr a with
  | some x => k x
  | none => raise s (.illegalInstruction (encode i p))

end Sys2Proof.Machine
end

