-- ==== Sys2Proof/Machine/Arithmetic.lean ====
section
/-! DEFINITION. The arithmetic class: `add`, `sub`, `mul`, `div`, `idiv`, each with the four data types
(spec/41_arithmetic.md). -/

namespace Sys2Proof.Machine

/-- What an instruction of the class computes for each data type (R160). -/
structure ArithOp where
  int64 : Word → Word → Except FaultReason Word
  int32 : Half → Half → Except FaultReason Half
  float : Half → Half → Word
  double : Word → Word → Word

/-- The quotient of two signed integers, computed exactly and narrowed: rounded toward zero, or down
under `IDIV_ROUND = floor` (R167). `MIN / -1` narrows to `MIN`. -/
def intQuot {n : Nat} (r : DivRound) (x y : BitVec n) : BitVec n :=
  match r with
  | .trunc => BitVec.ofInt n (x.toInt.tdiv y.toInt)
  | .floor => BitVec.ofInt n (x.toInt.fdiv y.toInt)

/-- Integer division with its fault (R164, R167). -/
def divOrFault {n : Nat} (x y : BitVec n) (p : Params := Config.reference) :
    Except FaultReason (BitVec n) :=
  if y = 0 then .error .divideByZero else .ok (intQuot p.idivRound x y)

/-- `add`: modulo 2^N (R161, R167). -/
def addOp (p : Params := Config.reference) : ArithOp where
  int64 x y := .ok (x + y)
  int32 x y := .ok (x + y)
  float x y := (p.num.add32 x y).setWidth 64
  double x y := p.num.add64 x y

/-- `sub`: modulo 2^N (R162, R167). -/
def subOp (p : Params := Config.reference) : ArithOp where
  int64 x y := .ok (x - y)
  int32 x y := .ok (x - y)
  float x y := (p.num.sub32 x y).setWidth 64
  double x y := p.num.sub64 x y

/-- `mul`: modulo 2^N (R163, R167). -/
def mulOp (p : Params := Config.reference) : ArithOp where
  int64 x y := .ok (x * y)
  int32 x y := .ok (x * y)
  float x y := (p.num.mul32 x y).setWidth 64
  double x y := p.num.mul64 x y

/-- `div` (R164). -/
def divOp (p : Params := Config.reference) : ArithOp where
  int64 x y := divOrFault x y p
  int32 x y := divOrFault x y p
  float x y := (p.num.div32 x y).setWidth 64
  double x y := p.num.div64 x y

/-- `idiv`: as `div` for the integer types; for the floating types a 64-bit integer image (R165). -/
def idivOp (p : Params := Config.reference) : ArithOp where
  int64 x y := divOrFault x y p
  int32 x y := divOrFault x y p
  float x y := p.num.toint32 (p.num.div32 x y)
  double x y := p.num.toint64 (p.num.div64 x y)

/-- The 64 bits written back for a data type (R160): 32-bit operands are the low halves, a 32-bit
integer result is widened by `ext32`. -/
def arithResult (o : ArithOp) (t : DType) (a b : Word) (p : Params := Config.reference) :
    Except FaultReason Word :=
  match t with
  | .int64 => o.int64 a b
  | .int32 =>
    match o.int32 (lowHalf a) (lowHalf b) with
    | .ok r => .ok (ext32 r p)
    | .error e => .error e
  | .float => .ok (o.float (lowHalf a) (lowHalf b))
  | .double => .ok (o.double a b)

/-- The common rule of the class (R160): operand read, operation, write, `SetZ`. -/
def arith (o : ArithOp) (c : Cond) (t : DType) (d r : Reg) (v : Operand) (s : State)
    (p : Params := Config.reference) : Outcome :=
  conditional c s (p := p) <| withValue s v (p := p) fun b =>
    orRaise s (arithResult o t (s.reg r) b p) fun x => .next (s.writeDest d x)

/-- `add <reg> <reg> <value>` (R161). -/
def execAdd (c : Cond) (t : DType) (d r : Reg) (v : Operand) (s : State)
    (p : Params := Config.reference) : Outcome :=
  arith (addOp p) c t d r v s p

/-- `sub <reg> <reg> <value>` (R162). -/
def execSub (c : Cond) (t : DType) (d r : Reg) (v : Operand) (s : State)
    (p : Params := Config.reference) : Outcome :=
  arith (subOp p) c t d r v s p

/-- `mul <reg> <reg> <value>` (R163). -/
def execMul (c : Cond) (t : DType) (d r : Reg) (v : Operand) (s : State)
    (p : Params := Config.reference) : Outcome :=
  arith (mulOp p) c t d r v s p

/-- `div <reg> <reg> <value>` (R164). -/
def execDiv (c : Cond) (t : DType) (d r : Reg) (v : Operand) (s : State)
    (p : Params := Config.reference) : Outcome :=
  arith (divOp p) c t d r v s p

/-- `idiv <reg> <reg> <value>` (R165). -/
def execIdiv (c : Cond) (t : DType) (d r : Reg) (v : Operand) (s : State)
    (p : Params := Config.reference) : Outcome :=
  arith (idivOp p) c t d r v s p

end Sys2Proof.Machine
end

