-- ==== Sys2Proof/Machine/Branching.lean ====
section
/-! DEFINITION. Branching: `cmp`, `b` (spec/42_branching.md). -/

namespace Sys2Proof.Machine

/-- `cmp <reg> <value>` (R180): the three comparison bits and nothing else. -/
def execCmp (c : Cond) (r : Reg) (v : Operand) (s : State) (p : Params := Config.reference) : Outcome :=
  conditional c s (p := p) <| withValue s v (p := p) fun y =>
    .next { s with flag := withCmp s.flag (compareCode (s.reg r) y) }

/-- `b <cnd> <addr>` (R182): always compares, by the match of the conditional test (R101). -/
def execB (cnd : BitVec 3) (a : Operand) (s : State) (p : Params := Config.reference) : Outcome :=
  withAddr s (.b cnd a) a (p := p) fun x =>
    if ccMatches p.condMatch (cmpBits s.flag) cnd then .next { s with ip := x } else .next s

end Sys2Proof.Machine
end

