-- ==== Sys2Proof/Machine/DataTransfer.lean ====
section
/-! DEFINITION. Data transfer: `load`, `loadu`, `store` (spec/40_data_transfer.md). -/

namespace Sys2Proof.Machine

/-- The value with its low 32 bits as upper half of the register (R141). -/
def upperHalf (old v : Word) : Word := lowHalf v ++ lowHalf old

/-- `load <reg> <value>` (R140). -/
def execLoad (c : Cond) (d : Reg) (v : Operand) (s : State) (p : Params := Config.reference) : Outcome :=
  conditional c s (p := p) <| withValue s v (p := p) fun x => .next (s.writeDest d x)

/-- `loadu <reg> <value>` (R141). -/
def execLoadu (c : Cond) (d : Reg) (v : Operand) (s : State) (p : Params := Config.reference) : Outcome :=
  conditional c s (p := p) <| withValue s v (p := p) fun x => .next (s.writeDest d (upperHalf (s.reg d) x))

/-- `store <reg> <addr>` (R144): the low `STORE_BYTES` bytes of the register. -/
def execStore (c : Cond) (r : Reg) (a : Operand) (s : State) (p : Params := Config.reference) : Outcome :=
  withAddr s (.store c r a) a (p := p) fun x =>
    conditional c s (p := p) <| orRaise s (s.memWrite x p.storeBytes (s.reg r).toNat p) .next

end Sys2Proof.Machine
end

