-- ==== Sys2Proof/Machine/Functions.lean ====
section
/-! DEFINITION. Functions: `call`, `ret` and the stack frame between them (spec/45_functions.md). -/

namespace Sys2Proof.Machine

/-- The bytes of the frame `call` pushes: the registers of `FRAME`, each in its width (R230, R231). -/
def State.frameBytes (s : State) (p : Params := Config.reference) : List Byte :=
  p.frame.flatMap fun x => memOfNat x.bytes (s.reg x.reg).toNat p

/-- The size of the frame: 80 bytes under the reference `FRAME` (R230). -/
def frameSize (p : Params := Config.reference) : Nat := (p.frame.map FrameItem.bytes).sum

/-- `call <value>` (R231). `$ip` already holds the address of the next instruction, which is what is
saved (R22). The whole range is checked before any write. -/
def execCall (c : Cond) (v : Operand) (s : State) (p : Params := Config.reference) : Outcome :=
  conditional c s (p := p) <| withValue s v (p := p) fun target =>
    orRaise s (s.memWriteBytes s.sp (s.frameBytes p)) fun t =>
      .next { t with fp := s.sp, sp := s.sp + BitVec.ofNat 64 (frameSize p), ip := target }

/-- The saved registers read back, each with its own range check, lowest address first (R232, R286; log
entry 10). -/
def State.readFrame (s : State) (a : Word) (xs : List FrameItem) (p : Params := Config.reference) :
    Except FaultReason (List (Reg × Word)) :=
  match xs with
  | [] => .ok []
  | x :: xs =>
    match s.memRead a x.bytes p with
    | .error e => .error e
    | .ok v =>
      match s.readFrame (a + BitVec.ofNat 64 x.bytes) xs p with
      | .error e => .error e
      | .ok ws => .ok ((x.reg, BitVec.ofNat 64 v) :: ws)

/-- `ret` (R232): the count below the frame, then the frame, all read before any write; `$sp` drops
below the frame, the count and the arguments. -/
def execRet (c : Cond) (s : State) (p : Params := Config.reference) : Outcome :=
  conditional c s (p := p) <|
    orRaise s (s.memRead (s.fp - 4) 4 p) fun n =>
      orRaise s (s.readFrame s.fp p.frame p) fun ws =>
        .next ((s.setRegs ws).setReg .sp (s.fp - 4 - 4 * BitVec.ofNat 64 n))

end Sys2Proof.Machine
end

