-- ==== Sys2Proof/Machine/Logical.lean ====
section
/-! DEFINITION. Logical instructions: `not`, `and`, `or`, `xor`, `shr`, `shl`, on 64 bits always
(spec/43_logical.md). -/

namespace Sys2Proof.Machine

/-- The common rule of the family (R195): operand read, operation, write, `SetZ`. -/
def logical (f : Word → Word → Word) (c : Cond) (d r : Reg) (v : Operand) (s : State)
    (p : Params := Config.reference) : Outcome :=
  conditional c s (p := p) <| withValue s v (p := p) fun b => .next (s.writeDest d (f (s.reg r) b))

/-- A shift by an unsigned 64-bit amount, under a value of `SHIFT_OVER` from 64 on (R200, D27). -/
def shiftBy (o : ShiftOver) (shift : Word → Nat → Word) (a b : Word) : Word :=
  if b.toNat < 64 then shift a b.toNat
  else
    match o with
    | .zero => 0
    | .mask => shift a (b.toNat % 64)

/-- Shift right, zeros from the top (R200). -/
def shiftRight (a b : Word) (p : Params := Config.reference) : Word :=
  shiftBy p.shiftOver (fun x n => x >>> n) a b

/-- Shift left, zeros from the bottom (R201). -/
def shiftLeft (a b : Word) (p : Params := Config.reference) : Word :=
  shiftBy p.shiftOver (fun x n => x <<< n) a b

/-- `not <reg> <reg>` (R196): it has no `<value>`. -/
def execNot (c : Cond) (d r : Reg) (s : State) (p : Params := Config.reference) : Outcome :=
  conditional c s (p := p) <| .next (s.writeDest d (~~~ s.reg r))

/-- `and <reg> <reg> <value>` (R197). -/
def execAnd (c : Cond) (d r : Reg) (v : Operand) (s : State) (p : Params := Config.reference) : Outcome :=
  logical (fun a b => a &&& b) c d r v s p

/-- `or <reg> <reg> <value>` (R198). -/
def execOr (c : Cond) (d r : Reg) (v : Operand) (s : State) (p : Params := Config.reference) : Outcome :=
  logical (fun a b => a ||| b) c d r v s p

/-- `xor <reg> <reg> <value>` (R199). -/
def execXor (c : Cond) (d r : Reg) (v : Operand) (s : State) (p : Params := Config.reference) : Outcome :=
  logical (fun a b => a ^^^ b) c d r v s p

/-- `shr <reg> <reg> <value>` (R200). -/
def execShr (c : Cond) (d r : Reg) (v : Operand) (s : State) (p : Params := Config.reference) : Outcome :=
  logical (fun a b => shiftRight a b p) c d r v s p

/-- `shl <reg> <reg> <value>` (R201). -/
def execShl (c : Cond) (d r : Reg) (v : Operand) (s : State) (p : Params := Config.reference) : Outcome :=
  logical (fun a b => shiftLeft a b p) c d r v s p

end Sys2Proof.Machine
end

