-- ==== Sys2Proof/Machine/Misc.lean ====
section
/-! DEFINITION. `nop` (spec/47_misc.md R275). -/

namespace Sys2Proof.Machine

/-- `nop`: "Useless operation; do nothing." `$ip` has already advanced (R275). -/
def execNop (s : State) : Outcome := .next s

end Sys2Proof.Machine
end

