-- ==== Sys2Proof/Machine/Stack.lean ====
section
/-! DEFINITION. The stack: `push` (spec/44_stack.md R215, R216). -/

namespace Sys2Proof.Machine

/-- `push <value>` (R216): four bytes at the old `$sp`, which then rises by 4. -/
def execPush (c : Cond) (v : Operand) (s : State) (p : Params := Config.reference) : Outcome :=
  conditional c s (p := p) <| withValue s v (p := p) fun x =>
    orRaise s (s.memWrite s.sp 4 x.toNat p) fun t => .next { t with sp := s.sp + 4 }

end Sys2Proof.Machine
end

