-- ==== Sys2Proof/Machine/Syscall.lean ====
section
/-! DEFINITION. `syscall` and its twelve services (spec/46_syscall.md). Arguments are `$r1` and `$r2`,
results go to `$ret`; no service touches `flag.CMP`, `flag.Z` or `$ip` (R250). -/

namespace Sys2Proof.Machine

/-- The twelve services. -/
inductive Service where
  | printInt | printFloat | printDouble | printChar | printString
  | readInt | readFloat | readDouble | readChar | readString
  | exit | exit2
deriving DecidableEq, Repr

/-- The service with a number, compared as a full 64-bit number (R250). -/
def serviceOf (k : Word) : Option Service :=
  match k.toNat with
  | 1 => some .printInt
  | 2 => some .printFloat
  | 3 => some .printDouble
  | 4 => some .printChar
  | 5 => some .printString
  | 6 => some .readInt
  | 7 => some .readFloat
  | 8 => some .readDouble
  | 9 => some .readChar
  | 10 => some .readString
  | 11 => some .exit
  | 12 => some .exit2
  | _ => none

/-- `$r1`, the first argument. -/
def State.arg1 (s : State) : Word := s.reg (.r 0)

/-- `$r2`, the second argument. -/
def State.arg2 (s : State) : Word := s.reg (.r 1)

/-- Service 1 (R252). -/
def servicePrintInt (s : State) : Outcome := .next (s.emit (.printInt s.arg1))

/-- Service 2 (R253): the low 32 bits. -/
def servicePrintFloat (s : State) : Outcome := .next (s.emit (.printFloat (lowHalf s.arg1)))

/-- Service 3 (R254). -/
def servicePrintDouble (s : State) : Outcome := .next (s.emit (.printDouble s.arg1))

/-- Service 4 (R255): the low 8 bits. -/
def servicePrintChar (s : State) : Outcome :=
  .next (s.emit (.printChar (s.arg1.extractLsb' 0 8)))

/-- The string at an address, or the fault at the first address outside memory (R256; log entry 11). -/
def State.stringAt (s : State) (a : Word) : Except FaultReason (List Byte) :=
  match s.mem.scan (s.mem.size - a.toNat) a.toNat with
  | some bs => .ok bs
  | none => .error (.memoryFault (max a.toNat s.mem.size) 1)

/-- Service 5 (R256): no event where the scan faults. -/
def servicePrintString (s : State) : Outcome :=
  orRaise s (s.stringAt s.arg1) fun bs => .next (s.emit (.printString bs))

/-- Service 6 (R257). -/
def serviceReadInt (s : State) (p : Params := Config.reference) : Outcome :=
  .next ((s.drawn (.word64 (s.nextWord64 p))).setReg .ret (s.nextWord64 p))

/-- Service 7 (R258): zero-extended. -/
def serviceReadFloat (s : State) (p : Params := Config.reference) : Outcome :=
  .next ((s.drawn (.word32 (s.nextWord32 p))).setReg .ret ((s.nextWord32 p).setWidth 64))

/-- Service 8 (R259). -/
def serviceReadDouble (s : State) (p : Params := Config.reference) : Outcome :=
  .next ((s.drawn (.word64 (s.nextWord64 p))).setReg .ret (s.nextWord64 p))

/-- Service 9 (R260): zero-extended. -/
def serviceReadChar (s : State) (p : Params := Config.reference) : Outcome :=
  .next ((s.drawn (.byte (s.nextByte p))).setReg .ret ((s.nextByte p).setWidth 64))

/-- The bytes service 10 stores: at most `$r2` bytes of the item, and the NUL (R261). -/
def State.readStringBytes (s : State) (p : Params := Config.reference) : List Byte :=
  (s.nextBytes p).take s.arg2.toNat ++ [0]

/-- Service 10 (R261): the whole range is checked before any write, and a fault consumes nothing. -/
def serviceReadString (s : State) (p : Params := Config.reference) : Outcome :=
  orRaise s (s.memWriteBytes s.arg1 (s.readStringBytes p)) fun t => .next (t.drawn (.bytes (s.nextBytes p)))

/-- Service 11 (R262): `RUN` <- 0, `ERR` as it was. -/
def serviceExit (s : State) : Outcome :=
  .next { s.emit .exit with flag := withRun s.flag false }

/-- Service 12 (R263). -/
def serviceExit2 (s : State) : Outcome :=
  .next { s.emit (.exit2 s.arg1) with flag := withRun s.flag false }

/-- Carry out a service. -/
def performService (v : Service) (s : State) (p : Params := Config.reference) : Outcome :=
  match v with
  | .printInt => servicePrintInt s
  | .printFloat => servicePrintFloat s
  | .printDouble => servicePrintDouble s
  | .printChar => servicePrintChar s
  | .printString => servicePrintString s
  | .readInt => serviceReadInt s p
  | .readFloat => serviceReadFloat s p
  | .readDouble => serviceReadDouble s p
  | .readChar => serviceReadChar s p
  | .readString => serviceReadString s p
  | .exit => serviceExit s
  | .exit2 => serviceExit2 s

/-- `syscall <value>` (R250); any other number raises UnknownSyscall (R264). -/
def execSyscall (c : Cond) (v : Operand) (s : State) (p : Params := Config.reference) : Outcome :=
  conditional c s (p := p) <| withValue s v (p := p) fun k =>
    match serviceOf k with
    | some x => performService x s p
    | none => raise s (.unknownSyscall k)

end Sys2Proof.Machine
end

