-- ==== Sys2Proof/Machine/Dispatch.lean ====
section
/-! DEFINITION. One arm for each instruction. -/

namespace Sys2Proof.Machine

/-- The effect of an instruction on a state whose `$ip` already holds the address of the next one
(spec/30_encoding.md R107). -/
def exec (i : Instr) (s : State) : Host.Outcome State Fault Refusal :=
  match i with
  | .nop => Sys2Proof.Machine.execNop s
  | .load c d v => Sys2Proof.Machine.execLoad c d v s
  | .loadu c d v => Sys2Proof.Machine.execLoadu c d v s
  | .store c r a => Sys2Proof.Machine.execStore c r a s
  | .add c t d r v => Sys2Proof.Machine.execAdd c t d r v s
  | .sub c t d r v => Sys2Proof.Machine.execSub c t d r v s
  | .mul c t d r v => Sys2Proof.Machine.execMul c t d r v s
  | .div c t d r v => Sys2Proof.Machine.execDiv c t d r v s
  | .idiv c t d r v => Sys2Proof.Machine.execIdiv c t d r v s
  | .cmp c r v => Sys2Proof.Machine.execCmp c r v s
  | .b cnd a => Sys2Proof.Machine.execB cnd a s
  | .not c d r => Sys2Proof.Machine.execNot c d r s
  | .and c d r v => Sys2Proof.Machine.execAnd c d r v s
  | .or c d r v => Sys2Proof.Machine.execOr c d r v s
  | .xor c d r v => Sys2Proof.Machine.execXor c d r v s
  | .shr c d r v => Sys2Proof.Machine.execShr c d r v s
  | .shl c d r v => Sys2Proof.Machine.execShl c d r v s
  | .push c v => Sys2Proof.Machine.execPush c v s
  | .call c v => Sys2Proof.Machine.execCall c v s
  | .ret c => Sys2Proof.Machine.execRet c s
  | .syscall c v => Sys2Proof.Machine.execSyscall c v s

end Sys2Proof.Machine
end

