-- ==== Sys2Proof/Machine/Fetch.lean ====
section
/-! DEFINITION. Fetching an instruction word, advancing `$ip`, and the instruction cycle
(spec/30_encoding.md R107). -/

namespace Sys2Proof.Machine

/-- A fetch at this address meets `ALIGN` (spec/20_memory.md R62): always, under `none`. -/
def fetchAligned (a : Word) (p : Params := Config.reference) : Bool :=
  match p.align with
  | .none => true
  | .fetch => a.toNat % 8 == 0

/-- `MemRead(ip, 8)`: the word at `$ip`. -/
def State.fetch (s : State) (p : Params := Config.reference) : Except FaultReason Word :=
  if fetchAligned s.ip p then
    match s.memRead s.ip 8 p with
    | .ok v => .ok (BitVec.ofNat 64 v)
    | .error e => .error e
  else .error (.memoryFault s.ip.toNat 8)

/-- `ip <- ip + 8`, modulo 2^64 (spec/10_state.md R22). -/
def State.advance (s : State) : State := { s with ip := s.ip + 8 }

/-- The cycle (R107) around what instructions do, `run`: a halted processor does nothing
(spec/60_exceptions.md R293; the answer `next` with the same state is a DESIGN CHOICE, safe, log entry 6); a
fetch fault leaves `$ip`; every later fault finds `$ip` advanced; an illegal word faults before any
conditional test (R105). -/
def cycle (run : Instr → State → Outcome) (s : State) (p : Params := Config.reference) : Outcome :=
  if runFlag s.flag then
    match s.fetch p with
    | .error e => raise s e
    | .ok w =>
      match decode w p with
      | .error _ => raise s.advance (.illegalInstruction w)
      | .ok i => run i s.advance
  else .next s

/-- An instruction word placed at `$ip`, where the range check of its eight bytes passes. -/
def State.placeAtIp (s : State) (w : Nat) (p : Params := Config.reference) : State :=
  if s.mem.inRange s.ip.toNat 8 then { s with mem := s.mem.setBytes s.ip.toNat (memOfNat 8 w p) } else s

end Sys2Proof.Machine
end

