-- ==== Sys2Proof/Machine/Step.lean ====
section
/-! DEFINITION. One step of the processor (spec/30_encoding.md R107), under the reference values of
spec/00_scope.md R7. `Machine/Configured.lean` has the step under any. -/

namespace Sys2Proof.Machine

/-- One step (R107). -/
def step (s : State) : Host.Outcome State Fault Refusal := cycle exec s

/-- The state with one instruction, bits above `nbits` zero, at `$ip`, where the next step of a running
machine fetches it. It stands for the host's load of a program (log entry 13). -/
def State.withFetchWord (s : State) (nbits w : Nat) : State := s.placeAtIp (w % 2 ^ nbits)

end Sys2Proof.Machine
end

