-- ==== Sys2Proof/Machine/Assembler.lean ====
section
/-! DEFINITION. What stands in front of the machine: the ten pseudo-instructions as the assembler expands
them (spec/30_encoding.md R120, R121), and the instructions' written form (R110 to R112). The machine
never sees either. Where a rule says an assembler must refuse an operand, the expansion is `none`. -/

namespace Sys2Proof.Machine

/-- The operand of a pseudo-instruction that moves 64 bits (spec/40_data_transfer.md R142,
spec/44_stack.md R217). -/
inductive WideOperand where
  | const (c : Word)
  | mem (addr : Half)
  | regOff (r : Reg) (n : BitVec 24)
  | reg (r : Reg)
deriving DecidableEq, Repr

/-- The pseudo-instructions. The count `n` of `ldarg` is the one the assembler caches (R121); the scratch
register of `pushl` of a register is the programmer's (R217). -/
inductive Pseudo where
  | loadl (d : Reg) (v : WideOperand)
  | zero (d : Reg)
  | jmp (a : Operand)
  | pushl (v : WideOperand)
  | pushlVia (r scratch : Reg)
  | pop (d : Option Reg)
  | popl (d : Option Reg)
  | stargs (vs : List Operand)
  | noargs
  | ldarg (d : Reg) (n i : Nat)
  | exit
deriving DecidableEq, Repr

/-- The high half of a constant, `c[63:32]` (spec/00_scope.md R8). -/
def highHalf (c : Word) : Half := c.extractLsb' 32 32

/-- The place four bytes above, where it is still encodable (spec/93_implementation_defined.md U23). -/
def above (v : Operand) : Option Operand :=
  match v with
  | .mem a => if a.toNat + 4 < 2 ^ 32 then some (.mem (a + 4)) else none
  | .regOff r n => if n.toInt + 4 < 2 ^ 23 then some (.regOff r (n + 4)) else none
  | .imm _ | .reg _ => none

/-- `loadl <reg> <value>` (R142); `loadl $r, n($r)` must be refused. -/
def expandLoadl (d : Reg) (v : WideOperand) : Option (List Instr) :=
  match v with
  | .const c => some [.load .always d (.imm (lowHalf c)), .loadu .always d (.imm (highHalf c))]
  | .mem a => (above (.mem a)).map fun h => [.load .always d (.mem a), .loadu .always d h]
  | .regOff r n =>
    if r = d then none
    else (above (.regOff r n)).map fun h => [.load .always d (.regOff r n), .loadu .always d h]
  | .reg r => some [.load .always d (.reg r)]

/-- `jmp <addr>` (spec/42_branching.md R181): chosen so that `$ip` receives the address itself. -/
def expandJmp (a : Operand) : Option (List Instr) :=
  match a with
  | .imm _ => none
  | .mem m => some [.load .always .ip (.imm m)]
  | .reg r => some [.load .always .ip (.reg r)]
  | .regOff r n =>
    if 0 ≤ n.toInt then some [.add .always .int64 .ip r (.imm (BitVec.ofInt 32 n.toInt))]
    else some [.sub .always .int64 .ip r (.imm (BitVec.ofInt 32 (-n.toInt)))]

/-- `pushl <value>` (R217): low half first; at `n($sp)` the first push has raised `$sp`. -/
def expandPushl (v : WideOperand) : Option (List Instr) :=
  match v with
  | .const c => some [.push .always (.imm (lowHalf c)), .push .always (.imm (highHalf c))]
  | .mem a => (above (.mem a)).map fun h => [.push .always (.mem a), .push .always h]
  | .regOff r n =>
    if r = .sp then some [.push .always (.regOff .sp n), .push .always (.regOff .sp n)]
    else (above (.regOff r n)).map fun h => [.push .always (.regOff r n), .push .always h]
  | .reg _ => none

/-- `sub $sp, $sp, k`, the first line of `pop` and `popl` (spec/44_stack.md R218, R219). -/
def dropStack (k : Half) : Instr := .sub .always .int64 .sp .sp (.imm k)

/-- `popl [reg]` (R219); `popl $sp` overwrites its own base and must be refused. -/
def expandPopl (d : Option Reg) : Option (List Instr) :=
  match d with
  | none => some [dropStack 8]
  | some r =>
    if r = .sp then none
    else some [dropStack 8, .load .always r (.regOff .sp 0), .loadu .always r (.regOff .sp 4)]

/-- `ldarg <reg> i` (spec/45_functions.md R235, R237): the offset is -4 * (1 + n - i), if it is an
argument's index and the offset is encodable. -/
def expandLdarg (d : Reg) (n i : Nat) : Option (List Instr) :=
  if i < n ∧ 4 * (1 + n - i) ≤ 2 ^ 23 then
    some [.load .always d (.regOff .fp (BitVec.ofInt 24 (-(4 * (1 + n - i) : Nat))))]
  else none

/-- The real instructions a pseudo-instruction stands for (R120). -/
def Pseudo.expand : Pseudo → Option (List Instr)
  | .loadl d v => expandLoadl d v
  | .zero d => some [.xor .always d d (.reg d)]
  | .jmp a => expandJmp a
  | .pushl v => expandPushl v
  | .pushlVia r t =>
    some [.push .always (.reg r), .shr .always t r (.imm 32), .push .always (.reg t)]
  | .pop none => some [dropStack 4]
  | .pop (some r) => some [dropStack 4, .load .always r (.regOff .sp 0)]
  | .popl d => expandPopl d
  | .stargs vs =>
    if vs.length < 2 ^ 32 then
      some (vs.map (.push .always) ++ [.push .always (.imm (BitVec.ofNat 32 vs.length))])
    else none
  | .noargs => some [.push .always (.imm 0)]
  | .ldarg d n i => expandLdarg d n i
  | .exit => some [.syscall .always (.imm 11)]

/-- Instructions executed one after another while the machine runs, as they are when they stand so in memory
(R107): `$ip` advances before each, and it ends where one of them jumps elsewhere. It fetches nothing: it is
that many steps of the machine as long as no store of theirs changes a word of theirs before its turn
(spec/20_memory.md R73; `StoredInstructionsAreFetched`). -/
def execSeq : List Instr → State → Outcome
  | [], s => .next s
  | i :: is, s =>
    if runFlag s.flag then
      match exec i s.advance with
      | .next t => if t.ip = s.ip + 8 then execSeq is t else .next t
      | .fault r => .fault r
      | .refused r => .refused r
    else .next s

/-! ## The written form (R110 to R112) -/

/-- A register's name with its dollar sign (spec/10_state.md R20), which D39 leaves optional (DESIGN CHOICE,
log entry 16). -/
def regName : Reg → String
  | .ip => "$ip"
  | .sp => "$sp"
  | .fp => "$fp"
  | .flag => "$flag"
  | .ret => "$ret"
  | .zero => "$zero"
  | .r k => "$r" ++ toString (k.val + 1)
  | .s k => "$s" ++ toString (k.val + 1)

/-- An operand: `imm`, `(mem)`, `$reg`, `n($reg)` (R110). Numbers are written in decimal, immediates and
addresses as unsigned, offsets with their sign: R110 says that number bases are not described (DESIGN
CHOICE, log entry 16). -/
def operandText : Operand → String
  | .imm d => toString d.toNat
  | .mem a => "(" ++ toString a.toNat ++ ")"
  | .reg r => regName r
  | .regOff r n => toString n.toInt ++ "(" ++ regName r ++ ")"

/-- The mnemonic postfix of a comparison code; codes 100 and 101 have none (spec/10_state.md R31). -/
def ccName (c : BitVec 3) : Option String :=
  if c = ccNe then some "ne"
  else if c = ccEq then some "eq"
  else if c = ccLt then some "lt"
  else if c = ccLe then some "le"
  else if c = ccGt then some "gt"
  else if c = ccGe then some "ge"
  else none

/-- The data type suffix (R111). -/
def typeSuffix : DType → String
  | .int64 => ""
  | .int32 => "s"
  | .float => "f"
  | .double => "d"

/-- A mnemonic with its postfix: the condition follows a question mark after any type suffix (R111). -/
def withPostfix (m : String) (c : Cond) : Option String :=
  if c.test then (ccName c.cc).map fun n => m ++ "?" ++ n else some m

/-- A mnemonic and its operands, with commas between them: R110 and D39 allow spaces too (DESIGN CHOICE, log
entry 16). -/
def asmLine (m : Option String) (ops : List String) : Option String :=
  m.map fun x => if ops.isEmpty then x else x ++ " " ++ ", ".intercalate ops

/-- An instruction as written in assembly, both registers shown (R110 to R112: the second may be left out;
DESIGN CHOICE, log entry 16); `none` where a comparison code has no name. -/
def instrText : Instr → Option String
  | .nop => some "nop"
  | .load c d v => asmLine (withPostfix "load" c) [regName d, operandText v]
  | .loadu c d v => asmLine (withPostfix "loadu" c) [regName d, operandText v]
  | .store c r a => asmLine (withPostfix "store" c) [regName r, operandText a]
  | .add c t d r v => asmLine (withPostfix ("add" ++ typeSuffix t) c) [regName d, regName r, operandText v]
  | .sub c t d r v => asmLine (withPostfix ("sub" ++ typeSuffix t) c) [regName d, regName r, operandText v]
  | .mul c t d r v => asmLine (withPostfix ("mul" ++ typeSuffix t) c) [regName d, regName r, operandText v]
  | .div c t d r v => asmLine (withPostfix ("div" ++ typeSuffix t) c) [regName d, regName r, operandText v]
  | .idiv c t d r v => asmLine (withPostfix ("idiv" ++ typeSuffix t) c) [regName d, regName r, operandText v]
  | .cmp c r v => asmLine (withPostfix "cmp" c) [regName r, operandText v]
  | .b cnd a => asmLine ((ccName cnd).map fun n => "b " ++ n) [operandText a]
  | .not c d r => asmLine (withPostfix "not" c) [regName d, regName r]
  | .and c d r v => asmLine (withPostfix "and" c) [regName d, regName r, operandText v]
  | .or c d r v => asmLine (withPostfix "or" c) [regName d, regName r, operandText v]
  | .xor c d r v => asmLine (withPostfix "xor" c) [regName d, regName r, operandText v]
  | .shr c d r v => asmLine (withPostfix "shr" c) [regName d, regName r, operandText v]
  | .shl c d r v => asmLine (withPostfix "shl" c) [regName d, regName r, operandText v]
  | .push c v => asmLine (withPostfix "push" c) [operandText v]
  | .call c v => asmLine (withPostfix "call" c) [operandText v]
  | .ret c => asmLine (withPostfix "ret" c) []
  | .syscall c v => asmLine (withPostfix "syscall" c) [operandText v]

end Sys2Proof.Machine
end

