-- ==== Sys2Proof/Machine/Configured.lean ====
section
/-! DEFINITION. The machine under any value of the parameters of spec/00_scope.md R7: the same meanings as
`exec`, with the configuration given. `exec` and `step` are these under `Config.reference`
(`execUnder_reference`, `stepUnder_reference` in Laws/Step.lean). -/

namespace Sys2Proof.Machine

/-- The effect of an instruction under a configuration. -/
def execUnder (p : Params) (i : Instr) (s : State) : Outcome :=
  match i with
  | .nop => execNop s
  | .load c d v => execLoad c d v s p
  | .loadu c d v => execLoadu c d v s p
  | .store c r a => execStore c r a s p
  | .add c t d r v => execAdd c t d r v s p
  | .sub c t d r v => execSub c t d r v s p
  | .mul c t d r v => execMul c t d r v s p
  | .div c t d r v => execDiv c t d r v s p
  | .idiv c t d r v => execIdiv c t d r v s p
  | .cmp c r v => execCmp c r v s p
  | .b cnd a => execB cnd a s p
  | .not c d r => execNot c d r s p
  | .and c d r v => execAnd c d r v s p
  | .or c d r v => execOr c d r v s p
  | .xor c d r v => execXor c d r v s p
  | .shr c d r v => execShr c d r v s p
  | .shl c d r v => execShl c d r v s p
  | .push c v => execPush c v s p
  | .call c v => execCall c v s p
  | .ret c => execRet c s p
  | .syscall c v => execSyscall c v s p

/-- One step (spec/30_encoding.md R107) under a configuration. -/
def stepUnder (p : Params) (s : State) : Outcome := cycle (execUnder p) s p

end Sys2Proof.Machine
end

