-- ==== Sys2Proof/Machine/HostInterface.lean ====
section
/-! DEFINITION. The host's side (spec/60_exceptions.md R292, spec/70_reset_and_hazards.md R310 to R314):
reset with any `INIT`, loading a program, supplying input. Output, input and exit are
`Machine/Syscall.lean`. -/

namespace Sys2Proof.Machine

/-! ## Reset and loading -/

/-- Reset (spec/70_reset_and_hazards.md R310, spec/10_state.md R40): the rows R40 fixes, the host record
empty, memory an array of `MEM_SIZE` bytes (R37); every other register, the other bits of `$flag` and every
byte of memory (R314: reset does not clear it) are those of `init`, the argument `INIT`. -/
def State.resetFrom (init : State) (p : Params := Config.reference) : State :=
  { init with
    ip := p.entry
    flag := withErr (withRun init.flag true) false
    mem := init.mem.ofSize p.memSize
    events := []
    consumed := []
    reason := none }

/-- A program image placed in memory (R313): a list of addresses and bytes, placed in its order, so that where
two overlap the later stands; `none` where a part does not lie in memory. R313 says neither (DESIGN CHOICE,
unsafe for overlapping images, log entry 18). -/
def State.loadImage (s : State) : List (Nat × List Byte) → Option State
  | [] => some s
  | (a, bs) :: rest =>
    if s.mem.inRange a bs.length then
      { s with mem := s.mem.setBytes a bs }.loadImage rest
    else none

/-- The start of a run (spec/60_exceptions.md R292): the image placed in a memory of `MEM_SIZE` bytes, then
reset; `none` where the image does not lie in that memory (log entry 18). -/
def State.boot (init : State) (image : List (Nat × List Byte)) (p : Params := Config.reference) :
    Option State :=
  (State.loadImage { init with mem := init.mem.ofSize p.memSize } image).map fun s => s.resetFrom p

/-- The image of instructions standing one after another from an address (R313). -/
def programImage (a : Nat) (is : List Instr) (p : Params := Config.reference) : List (Nat × List Byte) :=
  [(a, is.flatMap fun i => encodeBytes i p)]

/-- The machine of a configuration, reset with an `INIT`. -/
def machineUnder (p : Params) (init : State) : Host.Core where
  State := State
  Fault := Fault
  Refusal := Refusal
  step := stepUnder p
  reset := init.resetFrom p

/-! ## Input -/

/-- The input sequence of a host that supplies these items in order: `beyond` where they have ended, and where
the one that stands next is not of the kind asked for (end of input and malformed input are not described,
spec/93_implementation_defined.md U14; log entry 9). -/
def supplied (items : List InputItem) (beyond : Inputs) : Inputs where
  word64 n :=
    match items[n]? with
    | some (.word64 w) => w
    | _ => beyond.word64 n
  word32 n :=
    match items[n]? with
    | some (.word32 w) => w
    | _ => beyond.word32 n
  byte n :=
    match items[n]? with
    | some (.byte b) => b
    | _ => beyond.byte n
  bytes n :=
    match items[n]? with
    | some (.bytes bs) => bs
    | _ => beyond.bytes n

end Sys2Proof.Machine
end

