-- ==== Sys2Proof/Safety.lean ====
section
/-! DEFINITION. The end of a run, the machine's invariant, and the words claims are stated in: reading
bytes, halves and words of memory, operands, frames, and what a fault leaves. These are written from the
spec's text on their own and do not call the operations the meanings are built from. -/

namespace Sys2Proof.Machine

/-! ## The end of a run (spec/60_exceptions.md R293, R294) -/

/-- How a run stands: still going, halted without error ("Indicates if exited gracefully"), halted with
`ERR` set. -/
inductive RunEnd where
  | running
  | graceful
  | error
deriving DecidableEq, Repr

/-- What the two status bits tell (R293). -/
def State.runEnd (s : State) : RunEnd :=
  if s.flag.getLsbD 4 then .running else if s.flag.getLsbD 5 then .error else .graceful

/-- A run of at most `k` steps from a state, with its end: "did not halt within k steps" is `running`
(R294). -/
def runFor : Nat → State → Option (State × RunEnd)
  | 0, s => some (s, s.runEnd)
  | k + 1, s =>
    match step s with
    | .next t => runFor k t
    | .fault _ => none
    | .refused _ => none

/-- The processor is executing: bit 4 of `$flag` (spec/10_state.md R33). -/
abbrev State.running (s : State) : Prop := s.flag.getLsbD 4 = true

/-- The processor is halted (R293). -/
abbrev State.halted (s : State) : Prop := s.flag.getLsbD 4 = false

/-! ## Memory read byte by byte, little-endian (spec/20_memory.md R60, R66) -/

/-- The byte at an address. -/
def State.byteAt (s : State) (a : Nat) : Byte := s.mem.byte a

/-- The four bytes from an address up, the lowest address holding bits 7 to 0. -/
def State.halfAt (s : State) (a : Nat) : Half :=
  s.byteAt (a + 3) ++ s.byteAt (a + 2) ++ s.byteAt (a + 1) ++ s.byteAt a

/-- The eight bytes from an address up. -/
def State.wordAt (s : State) (a : Nat) : Word := s.halfAt (a + 4) ++ s.halfAt a

/-- `n` bytes at an address lie in memory (R66). -/
abbrev State.fits (s : State) (a n : Nat) : Prop := a + n ≤ s.mem.size

/-- Memory is the same outside `n` bytes from an address up, and as large. -/
structure MemSameOutside (s t : State) (a n : Nat) : Prop where
  size : t.mem.size = s.mem.size
  bytes : ∀ k, ¬ (a ≤ k ∧ k < a + n) → t.byteAt k = s.byteAt k

/-! ## Conditions and operands (spec/30_encoding.md R96 to R98, R101) -/

/-- The conditional test passes: the test bit is 0 or the three bits match (R101). -/
abbrev condHolds (c : Cond) (s : State) : Prop := c.test = true → c.cc = s.flag.extractLsb' 0 3

/-- The address of a memory operand: absolute, or register plus signed offset modulo 2^64. -/
def State.place (s : State) : Operand → Option Word
  | .imm _ => none
  | .mem a => some (a.setWidth 64)
  | .reg _ => none
  | .regOff r n => some (s.reg r + n.signExtend 64)

/-- The operand can be read: if it names memory, its four bytes lie there. -/
abbrev State.readable (s : State) (v : Operand) : Prop := ∀ a ∈ s.place v, s.fits a.toNat 4

/-- The value of a `<value>`: 32 bits of instruction or memory zero-extended, or a whole register. -/
def State.operandValue (s : State) : Operand → Word
  | .imm d => d.setWidth 64
  | .mem a => (s.halfAt a.toNat).setWidth 64
  | .reg r => s.reg r
  | .regOff r n => (s.halfAt (s.reg r + n.signExtend 64).toNat).setWidth 64

/-! ## What instructions leave -/

/-- The host record is the same: events, inputs, reason. -/
structure SameHost (s t : State) : Prop where
  events : t.events = s.events
  consumed : t.consumed = s.consumed
  reason : t.reason = s.reason

/-- Every register not listed is unchanged. -/
abbrev RegsSameBut (s t : State) (ds : List Reg) : Prop := ∀ r, r ∉ ds → t.reg r = s.reg r

/-- A value written to a destination register, `SetZ` applied, and nothing else changed
(spec/10_state.md R27, R32, R36): `$zero` keeps 0; bit 3 of `$flag` tells whether the register then read 0;
every other bit of `$flag` is the written value's if `$flag` is the destination, else unchanged. -/
structure WroteDest (s t : State) (d : Reg) (x : Word) : Prop where
  dest : d ≠ .zero → d ≠ .flag → t.reg d = x
  z : t.flag.getLsbD 3 = decide (d = .zero ∨ x = 0)
  flag : ∀ n, n ≠ 3 → t.flag.getLsbD n = (if d = .flag then x else s.flag).getLsbD n
  regs : RegsSameBut s t [d, .flag]
  mem : t.mem = s.mem
  host : SameHost s t

/-- Fault entry (spec/60_exceptions.md R281): `ERR` 1, `RUN` 0, the reason recorded, nothing else. -/
structure Faulted (s t : State) (r : FaultReason) : Prop where
  err : t.flag.getLsbD 5 = true
  run : t.flag.getLsbD 4 = false
  flag : ∀ n, n ≠ 4 → n ≠ 5 → t.flag.getLsbD n = s.flag.getLsbD n
  regs : RegsSameBut s t [.flag]
  mem : t.mem = s.mem
  events : t.events = s.events
  consumed : t.consumed = s.consumed
  reason : t.reason = some r

/-- `exec` on a run with this input sequence: under the reference configuration but for it. -/
abbrev execWith (inp : Inputs) (i : Instr) (s : State) : Outcome :=
  execUnder { Config.reference with input := inp } i s

/-- The instruction runs, writes a value to its destination and changes nothing else. -/
abbrev Writes (i : Instr) (s : State) (d : Reg) (x : Word) : Prop :=
  ∃ t, exec i s = .next t ∧ WroteDest s t d x

/-- The instruction ends with a fault of this reason. -/
abbrev Faults (i : Instr) (s : State) (r : FaultReason) : Prop :=
  ∃ t, exec i s = .next t ∧ Faulted s t r

/-! ## Instructions by shape -/

/-- The destination `<reg>` of the thirteen instructions that have one (spec/10_state.md R32). -/
def destOf : Instr → Option Reg
  | .load _ d _ | .loadu _ d _ => some d
  | .add _ _ d _ _ | .sub _ _ d _ _ | .mul _ _ d _ _ | .div _ _ d _ _ | .idiv _ _ d _ _ => some d
  | .not _ d _ | .and _ d _ _ | .or _ d _ _ | .xor _ d _ _ | .shr _ d _ _ | .shl _ d _ _ => some d
  | .nop | .store .. | .cmp .. | .b .. | .push .. | .call .. | .ret .. | .syscall .. => none

/-- The `<value>` of the instructions that have one (spec/30_encoding.md R93). -/
def valueOf : Instr → Option Operand
  | .load _ _ v | .loadu _ _ v | .cmp _ _ v => some v
  | .add _ _ _ _ v | .sub _ _ _ _ v | .mul _ _ _ _ v | .div _ _ _ _ v | .idiv _ _ _ _ v => some v
  | .and _ _ _ v | .or _ _ _ v | .xor _ _ _ v | .shr _ _ _ v | .shl _ _ _ v => some v
  | .push _ v | .call _ v | .syscall _ v => some v
  | .nop | .store .. | .b .. | .not .. | .ret .. => none

/-- The value an instruction with a destination writes to it, none where it raises DivideByZero
(spec/40_data_transfer.md R140, R141, spec/41_arithmetic.md R160, spec/43_logical.md R195). The functions
are those the meanings use; what each computes, bit by bit or as a number, the statements about its
instruction say. -/
def resultOf (i : Instr) (s : State) : Option Word :=
  match i with
  | .load _ _ v => some (s.operandValue v)
  | .loadu _ d v => some (upperHalf (s.reg d) (s.operandValue v))
  | .add _ t _ r v => (arithResult addOp t (s.reg r) (s.operandValue v)).toOption
  | .sub _ t _ r v => (arithResult subOp t (s.reg r) (s.operandValue v)).toOption
  | .mul _ t _ r v => (arithResult mulOp t (s.reg r) (s.operandValue v)).toOption
  | .div _ t _ r v => (arithResult divOp t (s.reg r) (s.operandValue v)).toOption
  | .idiv _ t _ r v => (arithResult idivOp t (s.reg r) (s.operandValue v)).toOption
  | .not _ _ r => some (~~~ s.reg r)
  | .and _ _ r v => some (s.reg r &&& s.operandValue v)
  | .or _ _ r v => some (s.reg r ||| s.operandValue v)
  | .xor _ _ r v => some (s.reg r ^^^ s.operandValue v)
  | .shr _ _ r v => some (shiftRight (s.reg r) (s.operandValue v))
  | .shl _ _ r v => some (shiftLeft (s.reg r) (s.operandValue v))
  | .nop | .store .. | .cmp .. | .b .. | .push .. | .call .. | .ret .. | .syscall .. => none

/-- The conditional field of every instruction but `nop` and `b` (spec/30_encoding.md R101, R102). -/
def condOf : Instr → Option Cond
  | .load c _ _ | .loadu c _ _ | .store c _ _ | .cmp c _ _ => some c
  | .add c _ _ _ _ | .sub c _ _ _ _ | .mul c _ _ _ _ | .div c _ _ _ _ | .idiv c _ _ _ _ => some c
  | .not c _ _ | .and c _ _ _ | .or c _ _ _ | .xor c _ _ _ | .shr c _ _ _ | .shl c _ _ _ => some c
  | .push c _ | .call c _ | .ret c | .syscall c _ => some c
  | .nop | .b .. => none

/-- The registers an instruction may write, `$flag` aside: its destination, and the registers its rule
names as side effects (spec/10_state.md R22 to R26). -/
def writesOf (i : Instr) : List Reg :=
  match i with
  | .b .. => [.ip]
  | .push .. => [.sp]
  | .call .. => [.ip, .sp, .fp]
  | .ret .. => [.ip, .sp, .fp, .s 0, .s 1, .s 2, .s 3, .s 4, .s 5, .s 6, .s 7]
  | .syscall .. => [.ret]
  | .nop | .store .. | .cmp .. | .load .. | .loadu .. | .add .. | .sub .. | .mul .. | .div .. | .idiv ..
  | .not .. | .and .. | .or .. | .xor .. | .shr .. | .shl .. => (destOf i).toList

/-! ## Illegal words (spec/30_encoding.md R105), from the layout table of R93 -/

/-- A register number that names no register. -/
abbrev badRegNumber (n : BitVec 8) : Prop := 29 < n.toNat

/-- Condition 4: a value field in register mode with stray bits, or naming no register. -/
abbrev badValueField (w : Word) : Prop :=
  (w.extractLsb' 28 2 = 2 ∧ w.extractLsb' 38 24 ≠ 0) ∨
  ((w.extractLsb' 28 2 = 2 ∨ w.extractLsb' 28 2 = 3) ∧ badRegNumber (w.extractLsb' 30 8))

/-- A word is illegal: one of R105's five conditions, by opcode. -/
def IllegalWord (w : Word) : Prop :=
  let k := (w.extractLsb' 0 6).toNat
  let dtype := w.extractLsb' 10 2
  let dst := w.extractLsb' 12 8
  let src := w.extractLsb' 20 8
  let ind := w.extractLsb' 28 2
  let value := w.extractLsb' 28 34
  20 < k ∨ (k = 0 ∧ w ≠ 0) ∨ w.extractLsb' 62 2 ≠ 0 ∨
  (k ∈ [1, 2, 3, 9] ∧ (dtype ≠ 0 ∨ src ≠ 0 ∨ badRegNumber dst ∨ badValueField w)) ∨
  (k = 3 ∧ ind = 0) ∨
  (k ∈ [4, 5, 6, 7, 8] ∧ (badRegNumber dst ∨ badRegNumber src ∨ badValueField w)) ∨
  (k = 10 ∧ (w.getLsbD 6 = true ∨ dtype ≠ 0 ∨ dst ≠ 0 ∨ src ≠ 0 ∨ ind = 0 ∨ badValueField w)) ∨
  (k = 11 ∧ (dtype ≠ 0 ∨ value ≠ 0 ∨ badRegNumber dst ∨ badRegNumber src)) ∨
  (k ∈ [12, 13, 14, 15, 16] ∧ (dtype ≠ 0 ∨ badRegNumber dst ∨ badRegNumber src ∨ badValueField w)) ∨
  (k ∈ [17, 18, 20] ∧ (dtype ≠ 0 ∨ dst ≠ 0 ∨ src ≠ 0 ∨ badValueField w)) ∨
  (k = 19 ∧ (dtype ≠ 0 ∨ dst ≠ 0 ∨ src ≠ 0 ∨ value ≠ 0))

/-! ## The invariant -/

/-- An event that ends the run (spec/46_syscall.md R262, R263). -/
def isExitEvent : Event → Bool
  | .exit => true
  | .exit2 _ => true
  | .printInt _ | .printFloat _ | .printDouble _ | .printChar _ | .printString _ => false

/-- What holds of the machine between two steps: memory in canonical form (`Memory.wf`); a recorded fault
stands halted with `ERR` set or not running (spec/60_exceptions.md R281, R288); an exit event is the last
event and the machine is halted (R293); a printed string holds no NUL (spec/46_syscall.md R256), nor does a
string drawn (R251). -/
structure Inv (s : State) : Prop where
  memory : s.mem.wf = true
  fault : s.reason ≠ none → s.flag.getLsbD 4 = false ∧ s.flag.getLsbD 5 = true
  exited : (∃ e ∈ s.events, isExitEvent e = true) → s.flag.getLsbD 4 = false
  exitLast : ∀ e ∈ s.events.dropLast, isExitEvent e = false
  printed : ∀ bs, Event.printString bs ∈ s.events → 0 ∉ bs
  drawn : ∀ bs, InputItem.bytes bs ∈ s.consumed → 0 ∉ bs

end Sys2Proof.Machine
end

