-- ==== Sys2Proof/Certificates/Slice0/Obligations.lean ====
section
/-! DEFINITION. The statements for the provers. Those about an instruction speak of `exec` on a state whose
`$ip` already holds the address of the next instruction; `StepRunsTheDecodedInstruction` carries them to a
step. The values that rest on the spec's reference parameters are log entry 1's; that a fault is taken as a
next state, which stands halted as R281 says, is log entry 7. -/

open Sys2Proof Sys2Proof.Machine

/-! ## Encoding -/

/-- Decoding undoes encoding: every well-formed instruction, with every operand at every value its field
admits, is read back from its word (30_encoding.md R90 to R105). -/
def Obligations.EncodedInstructionDecodesToItself : Prop :=
  ∀ i : Instr, i.wf = true → decode (encode i) = .ok i

/-- Encoding undoes decoding: a word that is an instruction is the word of that instruction, no bit lost,
and the instruction is well formed. -/
def Obligations.DecodedWordEncodesBack : Prop :=
  ∀ (w : Word) (i : Instr), decode w = .ok i → i.wf = true ∧ encode i = w

/-- Words printed in the spec's rules decode to the instructions printed beside them, one of each
family. -/
def Obligations.PrintedWordsDecode : Prop :=
  decode 0x0000000A80006001 = .ok (.load .always (.r 0) (.imm 42)) ∧
  decode 0x0000004010007001 = .ok (.load .always (.r 1) (.mem 0x100)) ∧
  decode 0x0000008010006003 = .ok (.store .always (.r 0) (.mem 0x200)) ∧
  decode 0x0000000220706404 = .ok (.add .always .int32 (.r 0) (.r 1) (.reg (.r 2))) ∧
  decode 0x0000000280006009 = .ok (.cmp .always (.r 0) (.imm 10)) ∧
  decode 0x00000401B000038A = .ok (.b 7 (.regOff (.r 0) 16)) ∧
  decode 0x000000000070600B = .ok (.not .always (.r 0) (.r 1)) ∧
  decode 0x000000010070600F = .ok (.shr .always (.r 0) (.r 1) (.imm 4)) ∧
  decode 0x00000001A0000011 = .ok (.push .always (.reg (.r 0))) ∧
  decode 0x0000004000000012 = .ok (.call .always (.imm 0x100)) ∧
  decode 0x00000002C00000D4 = .ok (.syscall ⟨true, 1⟩ (.imm 11)) ∧
  decode 0x0000000000000000 = .ok .nop

/-- R105: the decoder refuses a word exactly when one of the five conditions holds, and executing an
illegal word raises IllegalInstruction before and regardless of any conditional test. -/
def Obligations.IllegalWordsAreRefusedAndFault : Prop :=
  (∀ w : Word, (∃ e, decode w = .error e) ↔ IllegalWord w) ∧
  ∀ s : State, s.running → s.fits s.ip.toNat 8 → IllegalWord (s.wordAt s.ip.toNat) →
    ∃ t, step s = .next t ∧
      Faulted { s with ip := s.ip + 8 } t (.illegalInstruction (s.wordAt s.ip.toNat))

/-- R104: the zero word and no other word is `nop`; a word with opcode 0 and any other bit set is
illegal. -/
def Obligations.ZeroWordAloneIsNop : Prop :=
  ∀ w : Word, (decode w = .ok .nop ↔ w = 0) ∧
    (w.extractLsb' 0 6 = 0 → w ≠ 0 → ∃ e, decode w = .error e)

/-! ## The step -/

/-- When the eight bytes at `$ip` decode to an instruction, a step of the running machine is `exec` of it
on the state with `$ip` advanced by 8, and nothing else around it. -/
def Obligations.StepRunsTheDecodedInstruction : Prop :=
  ∀ (s : State) (i : Instr), s.running → s.fits s.ip.toNat 8 → decode (s.wordAt s.ip.toNat) = .ok i →
    step s = exec i { s with ip := s.ip + 8 }

/-- A fetch outside memory faults and leaves `$ip` at the address that could not be fetched. -/
def Obligations.FetchOutsideMemoryFaults : Prop :=
  ∀ s : State, s.running → ¬ s.fits s.ip.toNat 8 →
    ∃ t, step s = .next t ∧ Faulted s t (.memoryFault s.ip.toNat 8)

/-- A halted processor changes nothing, for ever: any number of steps leaves the very same state. (That a
halted machine's step answers `next` is the model's choice, log entry 6.) -/
def Obligations.HaltedMachineNeverChanges : Prop :=
  ∀ (k : Nat) (s : State), s.halted → Host.Core.run Sys2Proof.core k s = .next s

/-- Every step answers a next state: no state stops the model. (The model's choices: a fault is taken as the
next state R281 describes, log entry 7; a halted machine, which takes no step, answers its own state, log
entry 6; an input service always finds an item, since R251 takes the input sequence to be total, log entry
8.) -/
def Obligations.EveryStepAnswersANextState : Prop :=
  ∀ s : State, ∃ t, step s = .next t

/-- An instruction whose bytes have been stored at `$ip` is what the next step runs: fetch sees every
earlier store, and the loader's layout is the fetch's. And instructions whose words stand one after another
at `$ip`, each still there when its turn comes, run as `execSeq` runs them, one step each, all of them unless
one halts the machine or jumps elsewhere. -/
def Obligations.StoredInstructionsAreFetched : Prop :=
  (∀ (s : State) (i : Instr), s.running → s.fits s.ip.toNat 8 → i.wf = true →
    step { s with mem := s.mem.setBytes s.ip.toNat (encodeBytes i) } =
      exec i { s with mem := s.mem.setBytes s.ip.toNat (encodeBytes i), ip := s.ip + 8 }) ∧
  ∀ (is : List Instr) (s : State), s.mem.size ≤ 2 ^ 64 → s.fits s.ip.toNat (8 * is.length) →
    (∀ j i u, is[j]? = some i → execSeq (is.take j) s = .next u →
      decode (u.wordAt (s.ip.toNat + 8 * j)) = .ok i) →
    ∃ m ≤ is.length, Host.Core.run Sys2Proof.core m s = execSeq is s ∧
      (m < is.length → ∀ t, execSeq is s = .next t →
        t.halted ∨ t.ip ≠ s.ip + BitVec.ofNat 64 (8 * m))

/-! ## Invariant and reset -/

/-- Every step keeps the invariant `Inv`, from any state that meets it. -/
def Obligations.StepKeepsTheInvariant : Prop :=
  ∀ s t : State, Inv s → step s = .next t → Inv t

/-- The state after reset meets the invariant, and so does reset, under any configuration whose memory ends
below 2^64, with any `INIT` whose memory is in canonical form. (The values `State.reset` names are the
model's choice, log entries 2, 4, 5.) -/
def Obligations.ResetMeetsTheInvariant : Prop :=
  Inv State.reset ∧
    ∀ (init : State) (p : Params), init.mem.wf = true → p.memSize < 2 ^ 64 → Inv (init.resetFrom p)

/-- Reset with any `INIT` under any configuration leaves the rows of R40: `$ip` = `ENTRY` (0 under the
reference values), `RUN` = 1, `ERR` = 0, `$zero` = 0, no events, no inputs consumed, no reason, `MEM_SIZE` bytes
of memory, and every other register, flag bit and byte of that memory as `INIT` has it. -/
def Obligations.ResetLeavesTheFixedRows : Prop :=
  (∀ init : State, init.resetFrom.ip = 0) ∧
  ∀ (init t : State) (p : Params), t = init.resetFrom p →
    t.ip = p.entry ∧ t.running ∧ t.flag.getLsbD 5 = false ∧ t.reg .zero = 0 ∧
    (∀ n, n ≠ 4 → n ≠ 5 → t.flag.getLsbD n = init.flag.getLsbD n) ∧ RegsSameBut init t [.ip, .flag] ∧
    t.mem.size = p.memSize ∧ (∀ a < p.memSize, t.byteAt a = init.byteAt a) ∧
    t.events = [] ∧ t.consumed = [] ∧ t.reason = none

/-! ## Rules about the whole machine -/

/-- A fault leaves no trace but the two bits, the reason and the advanced `$ip` (not advanced by a fetch
fault): no register, memory byte, event or input of the faulting instruction. -/
def Obligations.FaultsArePrecise : Prop :=
  ∀ (s t : State) (r : FaultReason), s.reason = none → step s = .next t → t.reason = some r →
    (¬ s.fits s.ip.toNat 8 ∧ Faulted s t r) ∨
      (s.fits s.ip.toNat 8 ∧ Faulted { s with ip := s.ip + 8 } t r)

/-- Which instructions change which bits of `$flag`: `CMP` only `cmp`, `Z` only the instructions with a
destination register, `ERR` only a fault, bits 6 to 63 none, but for a write of `$flag` as destination. -/
def Obligations.FlagBitsChangeOnlyAsTheirRulesSay : Prop :=
  ∀ (i : Instr) (s t : State), exec i s = .next t → destOf i ≠ some .flag →
    ((∀ c r v, i ≠ .cmp c r v) → ∀ n < 3, t.flag.getLsbD n = s.flag.getLsbD n) ∧
    (destOf i = none → t.flag.getLsbD 3 = s.flag.getLsbD 3) ∧
    (t.flag.getLsbD 5 = s.flag.getLsbD 5 ∨ ∃ r, Faulted s t r) ∧
    (∀ n, 6 ≤ n → t.flag.getLsbD n = s.flag.getLsbD n)

/-- `RUN` goes from 1 to 0 only by a fault, by a write of `$flag` as destination, or by one of the two exit
services. -/
def Obligations.RunIsClearedOnlyByExitFaultOrFlagWrite : Prop :=
  ∀ (i : Instr) (s t : State), exec i s = .next t → s.running → t.halted →
    (∃ r, Faulted s t r) ∨ destOf i = some .flag ∨
      ∃ c v, i = .syscall c v ∧ (s.operandValue v = 11 ∨ s.operandValue v = 12)

/-- An instruction writes no register but its destination, the registers its rule names as side effects,
and `$flag`. -/
def Obligations.RegistersChangeOnlyAsNamed : Prop :=
  ∀ (i : Instr) (s t : State) (r : Reg), exec i s = .next t → r ∉ writesOf i → r ≠ .flag →
    t.reg r = s.reg r

/-- Memory changes only by `store`, `push`, `call` and service 10; its size never, under any configuration, so
that every access of a run is held against the configuration's `MEM_SIZE` (spec/20_memory.md R66). -/
def Obligations.MemoryChangesOnlyByStoringInstructions : Prop :=
  (∀ (i : Instr) (s t : State), exec i s = .next t →
    t.mem.size = s.mem.size ∧
    ((∀ c r a, i ≠ .store c r a) → (∀ c v, i ≠ .push c v) → (∀ c v, i ≠ .call c v) →
      (∀ c v, i = .syscall c v → s.operandValue v ≠ 10) → t.mem = s.mem)) ∧
  (∀ (p : Params) (s t : State), stepUnder p s = .next t → t.mem.size = s.mem.size) ∧
  ∀ (p : Params) (init t : State) (k : Nat),
    Host.Core.run (machineUnder p init) k (init.resetFrom p) = .next t →
    ∀ a n, t.fits a n ↔ a + n ≤ p.memSize

/-- Only `syscall` emits events or draws input; the fault reason changes only by a fault. -/
def Obligations.HostRecordChangesOnlyBySyscall : Prop :=
  ∀ (i : Instr) (s t : State), exec i s = .next t →
    ((∀ c v, i ≠ .syscall c v) →
      t.events = s.events ∧ t.consumed = s.consumed) ∧
    (t.reason = s.reason ∨ ∃ r, Faulted s t r)

/-- No instruction can read the event list, the inputs consumed or the fault reason: two machines that differ
only there take steps that leave them equal everywhere else and consume the same further inputs. (How many inputs
have been consumed is how far the input sequence has been drawn, so it is the same in both, log entry 8.) -/
def Obligations.HostRecordCannotBeRead : Prop :=
  ∀ (s t : State) (ev : List Event) (cs : List InputItem) (r : Option FaultReason),
    cs.length = s.consumed.length → step s = .next t →
    ∃ t' drawn, step { s with events := ev, consumed := cs, reason := r } = .next t' ∧
      (∀ x, t'.reg x = t.reg x) ∧ t'.mem = t.mem ∧
      t.consumed = s.consumed ++ drawn ∧ t'.consumed = cs ++ drawn

/-! ## The conditional field and the operand -/

/-- A conditional instruction whose test fails does nothing. -/
def Obligations.FailedTestSkipsTheInstruction : Prop :=
  ∀ (i : Instr) (c : Cond) (s : State), i.wf = true → condOf i = some c → ¬ condHolds c s →
    exec i s = .next s

/-- After a `cmp` that executes, a test on `eq`, `lt` or `gt` passes exactly when that relation holds of
the signed operands, and a test on `ne`, `le` or `ge` never passes. -/
def Obligations.AfterCmpOnlyEqLtGtPass : Prop :=
  ∀ (c : Cond) (r : Reg) (v : Operand) (s : State), condHolds c s → s.readable v →
    ∃ t, exec (.cmp c r v) s = .next t ∧
      (condHolds ⟨true, 0b001⟩ t ↔ (s.reg r).toInt = (s.operandValue v).toInt) ∧
      (condHolds ⟨true, 0b010⟩ t ↔ (s.reg r).toInt < (s.operandValue v).toInt) ∧
      (condHolds ⟨true, 0b110⟩ t ↔ (s.operandValue v).toInt < (s.reg r).toInt) ∧
      ¬ condHolds ⟨true, 0b000⟩ t ∧ ¬ condHolds ⟨true, 0b011⟩ t ∧ ¬ condHolds ⟨true, 0b111⟩ t

/-- The alternative `COND_MATCH = relational` (D10) makes every named test the relation its name promises
after a compare. (An alternative that `exec` does not run under and `execUnder` can, log entry 1.) -/
def Obligations.RelationalTestsAreTheRelations : Prop :=
  ∀ x y : Word,
    (ccMatches .relational (compareCode x y) ccEq = true ↔ x.toInt = y.toInt) ∧
    (ccMatches .relational (compareCode x y) ccNe = true ↔ x.toInt ≠ y.toInt) ∧
    (ccMatches .relational (compareCode x y) ccLt = true ↔ x.toInt < y.toInt) ∧
    (ccMatches .relational (compareCode x y) ccLe = true ↔ x.toInt ≤ y.toInt) ∧
    (ccMatches .relational (compareCode x y) ccGt = true ↔ y.toInt < x.toInt) ∧
    (ccMatches .relational (compareCode x y) ccGe = true ↔ y.toInt ≤ x.toInt)

/-- R98: the address each `<addr>` mode names, none for an immediate, with no read and no fault; and the
value of the same operand is the 4 bytes there in modes 1 and 3 and the address itself in mode 2. -/
def Obligations.AddressOfEachMode : Prop :=
  ∀ s : State,
    (∀ d, s.addr (.imm d) = none) ∧
    (∀ m, s.addr (.mem m) = some (m.setWidth 64)) ∧
    (∀ r, s.addr (.reg r) = some (s.reg r)) ∧
    (∀ r n, s.addr (.regOff r n) = some (s.reg r + n.signExtend 64)) ∧
    (∀ v a, (∀ r, v ≠ .reg r) → s.addr v = some a → s.fits a.toNat 4 →
      s.value v = .ok ((s.halfAt a.toNat).setWidth 64)) ∧
    (∀ r a, s.addr (.reg r) = some a → s.value (.reg r) = .ok a)

/-- Every instruction with a `<value>` in memory that cannot be read faults on it and does nothing else,
`div` by an unreadable divisor and `syscall` with an unreadable number too. -/
def Obligations.UnreadableOperandFaults : Prop :=
  ∀ (i : Instr) (v : Operand) (c : Cond) (a : Word) (s : State),
    valueOf i = some v → condOf i = some c → condHolds c s → s.place v = some a →
    ¬ s.fits a.toNat 4 → Faults i s (.memoryFault a.toNat 4)

/-- `store` and `b` built with an immediate where an `<addr>` stands raise IllegalInstruction, whatever
their condition. (That `exec` gives this to a term no word decodes to is the model's choice, log entry
14.) -/
def Obligations.ImmediateAddressFaults : Prop :=
  ∀ (c : Cond) (r : Reg) (cnd : BitVec 3) (d : Half) (s : State),
    Faults (.store c r (.imm d)) s (.illegalInstruction (encode (.store c r (.imm d)))) ∧
    Faults (.b cnd (.imm d)) s (.illegalInstruction (encode (.b cnd (.imm d))))

/-! ## Registers -/

/-- R27: a read of `$zero` gives 0, a write of it has no effect on it, and the writing instruction's zero
flag update still happens and sees 0. -/
def Obligations.ZeroRegisterIsHardwired : Prop :=
  ∀ s : State, s.reg .zero = 0 ∧ (∀ x, s.setReg .zero x = s) ∧
    ∀ (c : Cond) (v : Operand), condHolds c s → s.readable v →
      ∃ t, exec (.load c .zero v) s = .next t ∧ t.reg .zero = 0 ∧ t.flag.getLsbD 3 = true ∧
        (∀ n, n ≠ 3 → t.flag.getLsbD n = s.flag.getLsbD n) ∧ RegsSameBut s t [.flag] ∧
        t.mem = s.mem ∧ SameHost s t

/-- R36: every instruction whose destination is `$flag` writes all its bits, then applies `SetZ`; its own test
used the old value; the new `CMP` decides the next test, and a new `RUN` of 0 ends the run. (That a halted
machine's step answers its own state is the model's choice, log entry 6. A `div` or `idiv` that raises
DivideByZero writes nothing: `DivideByZeroIsRaisedOnIntegersOnly`.) -/
def Obligations.WritingFlagTakesEffectNext : Prop :=
  ∀ (i : Instr) (c : Cond) (x : Word) (s : State), destOf i = some .flag → condOf i = some c →
    condHolds c s → (∀ v ∈ valueOf i, s.readable v) → resultOf i s = some x →
    ∃ t, exec i s = .next t ∧
      (∀ n, n ≠ 3 → t.flag.getLsbD n = x.getLsbD n) ∧ t.flag.getLsbD 3 = decide (x = 0) ∧
      RegsSameBut s t [.flag] ∧ t.mem = s.mem ∧ SameHost s t ∧
      (∀ k, condHolds k t ↔ (k.test = true → k.cc = x.extractLsb' 0 3)) ∧
      (x.getLsbD 4 = false → step t = .next t)

/-! ## Memory -/

/-- R66: a read or write succeeds exactly when its bytes lie in memory, in unbounded integers; otherwise it
raises MemoryFault at its address; an address near 2^64, such as `fp - 4` with `fp` = 0, does not wrap. -/
def Obligations.RangeCheckDoesNotWrap : Prop :=
  ∀ (s : State) (a : Word) (n v : Nat),
    ((∃ x, s.memRead a n = .ok x) ↔ a.toNat + n ≤ s.mem.size) ∧
    (¬ a.toNat + n ≤ s.mem.size → s.memRead a n = .error (.memoryFault a.toNat n)) ∧
    ((∃ t, s.memWrite a n v = .ok t) ↔ a.toNat + n ≤ s.mem.size) ∧
    (¬ a.toNat + n ≤ s.mem.size → s.memWrite a n v = .error (.memoryFault a.toNat n)) ∧
    (s.mem.size < 2 ^ 64 → s.memRead (0 - 4) 4 = .error (.memoryFault (2 ^ 64 - 4) 4))

/-- R61: after an 8-byte write, a 4-byte read there sees bits 31 to 0, at plus 4 bits 63 to 32, a 1-byte
read the byte there, and no other byte has changed. -/
def Obligations.MixedWidthsAgree : Prop :=
  ∀ (s t : State) (a v : Word), s.mem.size ≤ 2 ^ 64 → s.memWrite a 8 v.toNat = .ok t →
    t.memRead a 4 = .ok (v.extractLsb' 0 32).toNat ∧
    t.memRead (a + 4) 4 = .ok (v.extractLsb' 32 32).toNat ∧
    (∀ k < 8, t.memRead (a + BitVec.ofNat 64 k) 1 = .ok (v.extractLsb' (8 * k) 8).toNat) ∧
    MemSameOutside s t a.toNat 8

/-- Two memories of one size in canonical form that read the same at every address are the same data.
(The form is the model's, log entry 5.) -/
def Obligations.EqualReadsMeanEqualMemories : Prop :=
  ∀ m n : Memory, m.wf = true → n.wf = true → m.size = n.size → (∀ a, m.byte a = n.byte a) → m = n

/-! ## Data transfer -/

/-- `load` writes the value of its operand to the destination, in every addressing mode, and changes
nothing else but `flag.Z`. -/
def Obligations.LoadWritesItsOperand : Prop :=
  ∀ (c : Cond) (d : Reg) (v : Operand) (s : State), condHolds c s → s.readable v →
    Writes (.load c d v) s d (s.operandValue v)

/-- `loadu` replaces bits 63 to 32 of the destination by the low 32 bits of the value and keeps bits 31
to 0. -/
def Obligations.LoaduReplacesTheUpperHalf : Prop :=
  ∀ (c : Cond) (d : Reg) (v : Operand) (s : State), condHolds c s → s.readable v →
    ∃ x : Word, Writes (.loadu c d v) s d x ∧
      x.extractLsb' 32 32 = (s.operandValue v).extractLsb' 0 32 ∧
      x.extractLsb' 0 32 = (s.reg d).extractLsb' 0 32

/-- `store` writes the low four bytes of the register at the address its `<addr>` names, and changes no
other byte, no register and no flag; outside memory it faults. -/
def Obligations.StoreWritesFourBytes : Prop :=
  ∀ (c : Cond) (r : Reg) (a : Operand) (x : Word) (s : State), condHolds c s → s.addr a = some x →
    (s.fits x.toNat 4 →
      ∃ t, exec (.store c r a) s = .next t ∧ t.halfAt x.toNat = (s.reg r).extractLsb' 0 32 ∧
        MemSameOutside s t x.toNat 4 ∧ RegsSameBut s t [] ∧ SameHost s t) ∧
    (¬ s.fits x.toNat 4 → Faults (.store c r a) s (.memoryFault x.toNat 4))

/-! ## Arithmetic -/

/-- `add`, `sub` and `mul` of the integer types are modulo 2^64 and 2^32; a 32-bit result is
zero-extended and ignores the upper halves of its operands. -/
def Obligations.AddSubMulWrap : Prop :=
  ∀ (c : Cond) (d r : Reg) (v : Operand) (s : State), condHolds c s → s.readable v →
    (∃ x : Word, Writes (.add c .int64 d r v) s d x ∧
      x.toNat = ((s.reg r).toNat + (s.operandValue v).toNat) % 2 ^ 64) ∧
    (∃ x : Word, Writes (.sub c .int64 d r v) s d x ∧
      x.toNat = ((s.reg r).toNat + (2 ^ 64 - (s.operandValue v).toNat)) % 2 ^ 64) ∧
    (∃ x : Word, Writes (.mul c .int64 d r v) s d x ∧
      x.toNat = ((s.reg r).toNat * (s.operandValue v).toNat) % 2 ^ 64) ∧
    (∃ x : Word, Writes (.add c .int32 d r v) s d x ∧
      x.toNat = ((s.reg r).toNat + (s.operandValue v).toNat) % 2 ^ 32) ∧
    (∃ x : Word, Writes (.sub c .int32 d r v) s d x ∧
      x.toNat = ((s.reg r).toNat + (2 ^ 64 - (s.operandValue v).toNat)) % 2 ^ 32) ∧
    (∃ x : Word, Writes (.mul c .int32 d r v) s d x ∧
      x.toNat = ((s.reg r).toNat * (s.operandValue v).toNat) % 2 ^ 32)

/-- `div` and `idiv` of the integer types by a divisor that is not zero give the signed quotient rounded
toward zero: the remainder is smaller than the divisor and has the dividend's sign. -/
def Obligations.DivisionRoundsTowardZero : Prop :=
  ∀ f ∈ [Instr.div, Instr.idiv], ∀ (c : Cond) (d r : Reg) (v : Operand) (s : State),
    condHolds c s → s.readable v →
    (∀ x y : Word, x = s.reg r → y = s.operandValue v → y ≠ 0 → ¬ (x = BitVec.intMin 64 ∧ y = -1) →
      ∃ q : Word, Writes (f c .int64 d r v) s d q ∧ ∃ m : Int, x.toInt = q.toInt * y.toInt + m ∧
        |m| < |y.toInt| ∧ (m = 0 ∨ (m < 0 ↔ x.toInt < 0))) ∧
    (∀ x y : Half, x = (s.reg r).extractLsb' 0 32 → y = (s.operandValue v).extractLsb' 0 32 → y ≠ 0 →
      ¬ (x = BitVec.intMin 32 ∧ y = -1) →
      ∃ q : Half, Writes (f c .int32 d r v) s d (q.setWidth 64) ∧ ∃ m : Int,
        x.toInt = q.toInt * y.toInt + m ∧ |m| < |y.toInt| ∧ (m = 0 ∨ (m < 0 ↔ x.toInt < 0)))

/-- R284: `div` and `idiv` of the integer types raise DivideByZero exactly when the divisor is zero (all 64
bits, or the low 32); the overflow `MIN / -1` wraps to `MIN`; the floating types do not fault and give what
`NUM` gives. -/
def Obligations.DivideByZeroIsRaisedOnIntegersOnly : Prop :=
  ∀ (c : Cond) (d r : Reg) (v : Operand) (s : State), condHolds c s → s.readable v →
    (∀ f ∈ [Instr.div, Instr.idiv],
      (s.operandValue v = 0 → Faults (f c .int64 d r v) s .divideByZero) ∧
      (s.operandValue v ≠ 0 → ∃ q, Writes (f c .int64 d r v) s d q) ∧
      ((s.operandValue v).extractLsb' 0 32 = 0 → Faults (f c .int32 d r v) s .divideByZero) ∧
      ((s.operandValue v).extractLsb' 0 32 ≠ 0 → ∃ q, Writes (f c .int32 d r v) s d q) ∧
      (s.reg r = BitVec.intMin 64 → s.operandValue v = -1 →
        Writes (f c .int64 d r v) s d (BitVec.intMin 64)) ∧
      ((s.reg r).extractLsb' 0 32 = BitVec.intMin 32 → (s.operandValue v).extractLsb' 0 32 = -1 →
        Writes (f c .int32 d r v) s d 0x80000000)) ∧
    Writes (.div c .float d r v) s d
      ((Config.num.div32 ((s.reg r).extractLsb' 0 32) ((s.operandValue v).extractLsb' 0 32)).setWidth 64) ∧
    Writes (.div c .double d r v) s d (Config.num.div64 (s.reg r) (s.operandValue v)) ∧
    Writes (.idiv c .float d r v) s d (Config.num.toint32
      (Config.num.div32 ((s.reg r).extractLsb' 0 32) ((s.operandValue v).extractLsb' 0 32))) ∧
    Writes (.idiv c .double d r v) s d
      (Config.num.toint64 (Config.num.div64 (s.reg r) (s.operandValue v)))

/-- `add`, `sub` and `mul` of the floating types write what `NUM` gives for the operands' bits: the low
halves for floats, with a zero upper half, and all bits for doubles. It holds for every `NUM`. -/
def Obligations.FloatResultsAreThoseOfNum : Prop :=
  ∀ (c : Cond) (d r : Reg) (v : Operand) (s : State) (x y : Half), condHolds c s → s.readable v →
    x = (s.reg r).extractLsb' 0 32 → y = (s.operandValue v).extractLsb' 0 32 →
    Writes (.add c .float d r v) s d ((Config.num.add32 x y).setWidth 64) ∧
    Writes (.sub c .float d r v) s d ((Config.num.sub32 x y).setWidth 64) ∧
    Writes (.mul c .float d r v) s d ((Config.num.mul32 x y).setWidth 64) ∧
    Writes (.add c .double d r v) s d (Config.num.add64 (s.reg r) (s.operandValue v)) ∧
    Writes (.sub c .double d r v) s d (Config.num.sub64 (s.reg r) (s.operandValue v)) ∧
    Writes (.mul c .double d r v) s d (Config.num.mul64 (s.reg r) (s.operandValue v))

/-! ## Branching -/

/-- `cmp` writes 001, 010 or 110 to bits 2 to 0 of `$flag` as the signed operands are equal, less or
greater, and changes nothing else. -/
def Obligations.CmpWritesTheCode : Prop :=
  ∀ (c : Cond) (r : Reg) (v : Operand) (s : State), condHolds c s → s.readable v →
    ∃ t, exec (.cmp c r v) s = .next t ∧
      ((s.reg r).toInt = (s.operandValue v).toInt → t.flag.extractLsb' 0 3 = 0b001) ∧
      ((s.reg r).toInt < (s.operandValue v).toInt → t.flag.extractLsb' 0 3 = 0b010) ∧
      ((s.operandValue v).toInt < (s.reg r).toInt → t.flag.extractLsb' 0 3 = 0b110) ∧
      (∀ n, 3 ≤ n → t.flag.getLsbD n = s.flag.getLsbD n) ∧
      RegsSameBut s t [.flag] ∧ t.mem = s.mem ∧ SameHost s t

/-- `b` goes to the address its `<addr>` names exactly when its condition equals the comparison bits; taken
or not, it changes nothing but `$ip`. -/
def Obligations.BranchIsTakenExactlyOnAMatch : Prop :=
  ∀ (cnd : BitVec 3) (a : Operand) (x : Word) (s : State), s.addr a = some x →
    (cnd = s.flag.extractLsb' 0 3 → exec (.b cnd a) s = .next { s with ip := x }) ∧
    (cnd ≠ s.flag.extractLsb' 0 3 → exec (.b cnd a) s = .next s)

/-! ## Logical -/

/-- `not`, `and`, `or` and `xor` work bit by bit on all 64 bits. -/
def Obligations.LogicalInstructionsWorkBitByBit : Prop :=
  ∀ (c : Cond) (d r : Reg) (v : Operand) (s : State), condHolds c s →
    (∃ x : Word, Writes (.not c d r) s d x ∧ ∀ n < 64, x.getLsbD n = !(s.reg r).getLsbD n) ∧
    (s.readable v →
      (∃ x : Word, Writes (.and c d r v) s d x ∧
        ∀ n, x.getLsbD n = ((s.reg r).getLsbD n && (s.operandValue v).getLsbD n)) ∧
      (∃ x : Word, Writes (.or c d r v) s d x ∧
        ∀ n, x.getLsbD n = ((s.reg r).getLsbD n || (s.operandValue v).getLsbD n)) ∧
      (∃ x : Word, Writes (.xor c d r v) s d x ∧
        ∀ n, x.getLsbD n = ((s.reg r).getLsbD n ^^ (s.operandValue v).getLsbD n)))

/-- `shr` and `shl` move every bit by the amount, all 64 bits of the value read as an unsigned number, and
fill with zeros; an amount of 64 or more gives 0. -/
def Obligations.ShiftsMoveBitsAndFillWithZeros : Prop :=
  ∀ (c : Cond) (d r : Reg) (v : Operand) (s : State), condHolds c s → s.readable v →
    (∃ x : Word, Writes (.shr c d r v) s d x ∧
      ∀ n, x.getLsbD n = (s.reg r).getLsbD (n + (s.operandValue v).toNat)) ∧
    (∃ x : Word, Writes (.shl c d r v) s d x ∧ ∀ n < 64, x.getLsbD n =
      (decide ((s.operandValue v).toNat ≤ n) && (s.reg r).getLsbD (n - (s.operandValue v).toNat)))

/-! ## Stack and functions -/

/-- `push` stores the low four bytes of its value, resolved with the old `$sp`, at the old `$sp` and raises
`$sp` by 4; outside memory it faults. -/
def Obligations.PushStoresAtTheOldSp : Prop :=
  ∀ (c : Cond) (v : Operand) (s : State), condHolds c s → s.readable v →
    (s.fits s.sp.toNat 4 →
      ∃ t, exec (.push c v) s = .next t ∧
        t.halfAt s.sp.toNat = (s.operandValue v).extractLsb' 0 32 ∧ t.sp = s.sp + 4 ∧
        MemSameOutside s t s.sp.toNat 4 ∧ RegsSameBut s t [.sp] ∧ SameHost s t) ∧
    (¬ s.fits s.sp.toNat 4 → Faults (.push c v) s (.memoryFault s.sp.toNat 4))

/-- `call` pushes the 80-byte frame (old `$fp`, the return address, `$s1` to `$s8`), sets `$fp` to it and
`$sp` above it, and goes to its value; outside memory it faults and writes nothing. -/
def Obligations.CallPushesTheFrame : Prop :=
  ∀ (c : Cond) (v : Operand) (s : State), condHolds c s → s.readable v →
    (s.fits s.sp.toNat 80 →
      ∃ t, exec (.call c v) s = .next t ∧
        t.wordAt s.sp.toNat = s.fp ∧ t.wordAt (s.sp.toNat + 8) = s.ip ∧
        (∀ k : Fin 8, t.wordAt (s.sp.toNat + 16 + 8 * k) = s.reg (.s k)) ∧
        t.fp = s.sp ∧ t.sp = s.sp + 80 ∧ t.ip = s.operandValue v ∧
        MemSameOutside s t s.sp.toNat 80 ∧ RegsSameBut s t [.fp, .sp, .ip] ∧ SameHost s t) ∧
    (¬ s.fits s.sp.toNat 80 → Faults (.call c v) s (.memoryFault s.sp.toNat 80))

/-- `ret` reloads `$s1` to `$s8`, `$ip` and `$fp` from the frame at `$fp` and drops `$sp` below the frame,
the count at `$fp - 4` and that many 4-byte arguments; `$ret` and memory are unchanged. -/
def Obligations.RetRestoresFromTheFrame : Prop :=
  ∀ (c : Cond) (s : State), condHolds c s → s.mem.size ≤ 2 ^ 64 → s.fits (s.fp - 4).toNat 4 →
    s.fits s.fp.toNat 80 →
    ∃ t, exec (.ret c) s = .next t ∧
      t.fp = s.wordAt s.fp.toNat ∧ t.ip = s.wordAt (s.fp.toNat + 8) ∧
      (∀ k : Fin 8, t.reg (.s k) = s.wordAt (s.fp.toNat + 16 + 8 * k)) ∧
      t.sp = s.fp - 4 - 4 * (s.halfAt (s.fp - 4).toNat).setWidth 64 ∧
      RegsSameBut s t [.fp, .ip, .sp, .s 0, .s 1, .s 2, .s 3, .s 4, .s 5, .s 6, .s 7] ∧
      t.mem = s.mem ∧ SameHost s t

/-- `ret` faults on the count at `$fp - 4` if that is outside memory, else on the first saved register that
is, and writes nothing. (Which address the reason carries is log entry 10.) -/
def Obligations.RetFaultsOutsideMemory : Prop :=
  ∀ (c : Cond) (s : State), condHolds c s → s.mem.size < 2 ^ 64 →
    (¬ s.fits (s.fp - 4).toNat 4 → Faults (.ret c) s (.memoryFault (s.fp - 4).toNat 4)) ∧
    (s.fits (s.fp - 4).toNat 4 → ¬ s.fits s.fp.toNat 80 →
      ∃ k < 10, (∀ j < k, s.fits (s.fp + BitVec.ofNat 64 (8 * j)).toNat 8) ∧
        ¬ s.fits (s.fp + BitVec.ofNat 64 (8 * k)).toNat 8 ∧
        Faults (.ret c) s (.memoryFault (s.fp + BitVec.ofNat 64 (8 * k)).toNat 8))

/-- `ret` undoes `call`: whatever the function did, if it left `$fp` and the bytes of the count and the
frame, then `ret` brings back `$ip` to the instruction after the call, the caller's `$fp` and `$s1` to
`$s8`, and `$sp` to below the count `n` and the `n` arguments. -/
def Obligations.RetUndoesCall : Prop :=
  ∀ (c c' : Cond) (v : Operand) (s t u : State), condHolds c s → s.readable v →
    s.mem.size ≤ 2 ^ 64 → 4 ≤ s.sp.toNat → s.fits s.sp.toNat 80 → exec (.call c v) s = .next t →
    condHolds c' u → u.fp = t.fp → u.mem.size = t.mem.size →
    (∀ k, s.sp.toNat - 4 ≤ k → k < s.sp.toNat + 80 → u.byteAt k = t.byteAt k) →
    ∃ w, exec (.ret c') u = .next w ∧ w.ip = s.ip ∧ w.fp = s.fp ∧
      (∀ k : Fin 8, w.reg (.s k) = s.reg (.s k)) ∧
      w.sp = s.sp - 4 - 4 * (s.halfAt (s.sp.toNat - 4)).setWidth 64 ∧
      w.ret = u.ret ∧ w.mem = u.mem

/-! ## System calls -/

/-- Services 1 to 4 append their event with the bits of `$r1` (all 64, the low 32, all 64, the low 8) and
change nothing else. -/
def Obligations.OutputServicesAppendTheirEvent : Prop :=
  ∀ (c : Cond) (v : Operand) (s : State), condHolds c s → s.readable v →
    (s.operandValue v = 1 → exec (.syscall c v) s =
      .next { s with events := s.events ++ [.printInt (s.reg (.r 0))] }) ∧
    (s.operandValue v = 2 → exec (.syscall c v) s =
      .next { s with events := s.events ++ [.printFloat ((s.reg (.r 0)).extractLsb' 0 32)] }) ∧
    (s.operandValue v = 3 → exec (.syscall c v) s =
      .next { s with events := s.events ++ [.printDouble (s.reg (.r 0))] }) ∧
    (s.operandValue v = 4 → exec (.syscall c v) s =
      .next { s with events := s.events ++ [.printChar ((s.reg (.r 0)).extractLsb' 0 8)] })

/-- Service 5 appends the bytes from `$r1` up to the first zero byte, the zero not among them; with no zero
byte before the end of memory it faults at the first address outside and appends nothing. (That the scan
does not wrap, and that the reason carries the larger of `$r1` and the memory's size, with width 1, is log
entry 11, DEDUCED.) -/
def Obligations.PrintStringStopsAtTheFirstZero : Prop :=
  ∀ (c : Cond) (v : Operand) (s : State) (a : Nat), condHolds c s → s.readable v →
    s.operandValue v = 5 → a = (s.reg (.r 0)).toNat →
    (∀ n, s.fits a (n + 1) → (∀ j < n, s.byteAt (a + j) ≠ 0) → s.byteAt (a + n) = 0 →
      exec (.syscall c v) s = .next
        { s with events := s.events ++ [.printString ((List.range n).map fun j => s.byteAt (a + j))] }) ∧
    ((∀ k, a ≤ k → k < s.mem.size → s.byteAt k ≠ 0) →
      Faults (.syscall c v) s (.memoryFault (max a s.mem.size) 1))

/-- Services 6 to 9 write the next item of the input sequence to `$ret`, a 32-bit word or a byte zero-extended,
and consume it, whatever the sequence (`execWith`, of which `exec` is the one with `Config.input`); no flag
changes. (That the sequence is a total function of the number of items consumed is log entry 8.) -/
def Obligations.InputServicesWriteRet : Prop :=
  (∀ i s, execWith Config.input i s = exec i s) ∧
  ∀ (inp : Inputs) (c : Cond) (v : Operand) (s : State) (n : Nat), condHolds c s → s.readable v →
    n = s.consumed.length →
    (s.operandValue v = 6 ∨ s.operandValue v = 8 → execWith inp (.syscall c v) s = .next
      { s with ret := inp.word64 n, consumed := s.consumed ++ [.word64 (inp.word64 n)] }) ∧
    (s.operandValue v = 7 → execWith inp (.syscall c v) s = .next
      { s with ret := (inp.word32 n).setWidth 64, consumed := s.consumed ++ [.word32 (inp.word32 n)] }) ∧
    (s.operandValue v = 9 → execWith inp (.syscall c v) s = .next
      { s with ret := (inp.byte n).setWidth 64, consumed := s.consumed ++ [.byte (inp.byte n)] })

/-- Service 10 stores at `$r1` the first bytes of the next string of the input sequence, at most `$r2` of them,
and a zero byte after them, and consumes the item, whatever the sequence; if they do not fit in memory it
faults, stores and consumes nothing. (A string that R251 rules out, with a NUL, is cut: log entry 9. The
reason, the address in `$r1` and the whole width with the zero byte, is log entry 12, DEDUCED from R280 and
R283, since R261 names no address.) -/
def Obligations.ReadStringStoresTheTruncatedItem : Prop :=
  (∀ i s, execWith Config.input i s = exec i s) ∧
  ∀ (inp : Inputs) (c : Cond) (v : Operand) (s : State) (a : Nat), condHolds c s → s.readable v →
    s.operandValue v = 10 → a = (s.reg (.r 0)).toNat →
    ∃ bs : List Byte, 0 ∉ bs ∧
      (0 ∉ inp.bytes s.consumed.length → bs = inp.bytes s.consumed.length) ∧
      ∀ n, n = min bs.length (s.reg (.r 1)).toNat →
        (s.fits a (n + 1) → ∃ t, execWith inp (.syscall c v) s = .next t ∧
          (∀ j < n, bs[j]? = some (t.byteAt (a + j))) ∧ t.byteAt (a + n) = 0 ∧
          MemSameOutside s t a (n + 1) ∧ RegsSameBut s t [] ∧ t.events = s.events ∧
          t.consumed = s.consumed ++ [.bytes bs] ∧ t.reason = s.reason) ∧
        (¬ s.fits a (n + 1) → ∃ t, execWith inp (.syscall c v) s = .next t ∧
          Faulted s t (.memoryFault a (n + 1)))

/-- Services 11 and 12 clear `RUN`, leave `ERR` and all else as it was, and append `exit` or the exit code
of `$r1`. -/
def Obligations.ExitServicesHalt : Prop :=
  ∀ (c : Cond) (v : Operand) (s : State) (e : Event), condHolds c s → s.readable v →
    (s.operandValue v = 11 ∧ e = .exit ∨ s.operandValue v = 12 ∧ e = .exit2 (s.reg (.r 0))) →
    ∃ t, exec (.syscall c v) s = .next t ∧ t.halted ∧
      (∀ n, n ≠ 4 → t.flag.getLsbD n = s.flag.getLsbD n) ∧ RegsSameBut s t [.flag] ∧
      t.mem = s.mem ∧ t.events = s.events ++ [e] ∧ t.consumed = s.consumed ∧
      t.reason = s.reason

/-- R285: UnknownSyscall is raised exactly when the service number, all 64 bits, is not 1 to 12. -/
def Obligations.UnknownServiceFaults : Prop :=
  ∀ (c : Cond) (v : Operand) (s : State), condHolds c s → s.readable v →
    ((s.operandValue v).toNat = 0 ∨ 12 < (s.operandValue v).toNat →
      Faults (.syscall c v) s (.unknownSyscall (s.operandValue v))) ∧
    (1 ≤ (s.operandValue v).toNat → (s.operandValue v).toNat ≤ 12 → s.reason = none →
      ∀ t k, exec (.syscall c v) s = .next t → t.reason ≠ some (.unknownSyscall k))

/-- `nop` changes nothing. -/
def Obligations.NopDoesNothing : Prop :=
  ∀ s : State, exec .nop s = .next s

/-! ## Pseudo-instructions as expanded

These speak of `execSeq`, which fetches nothing. They hold of a run of the machine over the words of the
expansion as long as its own stores leave those words until their turn, as `StoredInstructionsAreFetched`
says: a `pushl` or `stargs` whose stack lies over its own words runs what it has stored (spec/20_memory.md
R73). -/

/-- `loadl` of a constant leaves the whole 64-bit constant in the register and `flag.Z` of it, two words
on. (A register other than `$ip` and `$flag`, where the first word's write already jumps or rewrites the
flags.) -/
def Obligations.LoadlLoadsAConstant : Prop :=
  ∀ (d : Reg) (k : Word) (is : List Instr) (s : State), s.running → d ≠ .ip → d ≠ .flag →
    (Pseudo.loadl d (.const k)).expand = some is →
    ∃ t, execSeq is s = .next t ∧ WroteDest { s with ip := s.ip + 16 } t d k

/-- `zero` clears its register and sets `flag.Z`, whatever the register. -/
def Obligations.ZeroClearsTheRegister : Prop :=
  ∀ (d : Reg) (is : List Instr) (s : State), s.running → (Pseudo.zero d).expand = some is →
    ∃ t, execSeq is s = .next t ∧ WroteDest { s with ip := s.ip + 8 } t d 0

/-- `jmp` goes to the address its `<addr>` names, in every mode, and sets `flag.Z` as a write of `$ip`
does; no memory is read. -/
def Obligations.JmpGoesToTheAddress : Prop :=
  ∀ (a : Operand) (x : Word) (is : List Instr) (s : State), s.running →
    State.addr { s with ip := s.ip + 8 } a = some x → (Pseudo.jmp a).expand = some is →
    ∃ t, execSeq is s = .next t ∧ WroteDest { s with ip := s.ip + 8 } t .ip x

/-- `pushl` of a constant and then `popl` of a general or preserved register bring `$sp` back and leave the
constant in the register and, low half first, in memory. (As `execSeq` runs them: on the machine, where the
pushes do not overwrite the words of the expansion itself.) -/
def Obligations.PoplUndoesPushl : Prop :=
  ∀ (d : Reg) (k : Word) (is js : List Instr) (s : State), s.running →
    ((∃ n, d = .r n) ∨ ∃ n, d = .s n) → s.mem.size ≤ 2 ^ 64 → s.fits s.sp.toNat 8 →
    (Pseudo.pushl (.const k)).expand = some is → (Pseudo.popl (some d)).expand = some js →
    ∃ t, execSeq (is ++ js) s = .next t ∧ t.reg d = k ∧ t.sp = s.sp ∧ t.wordAt s.sp.toNat = k ∧
      MemSameOutside s t s.sp.toNat 8 ∧ t.ip = s.ip + 40

/-- `stargs` of immediates pushes them first to last and then their count, 4 bytes each. (As `execSeq` runs
them: on the machine, where the pushes do not overwrite the words of the expansion itself.) -/
def Obligations.StargsPushesArgumentsAndCount : Prop :=
  ∀ (ks : List Half) (is : List Instr) (s : State), s.running → s.mem.size ≤ 2 ^ 64 →
    s.fits s.sp.toNat (4 * (ks.length + 1)) →
    (Pseudo.stargs (ks.map .imm)).expand = some is →
    ∃ t, execSeq is s = .next t ∧
      (∀ j k, ks[j]? = some k → t.halfAt (s.sp.toNat + 4 * j) = k) ∧
      t.halfAt (s.sp.toNat + 4 * ks.length) = BitVec.ofNat 32 ks.length ∧
      t.sp = s.sp + BitVec.ofNat 64 (4 * (ks.length + 1)) ∧
      MemSameOutside s t s.sp.toNat (4 * (ks.length + 1))

/-- `ldarg` of argument `i` of `n` loads the four bytes at `$fp - 4 * (1 + n - i)`. -/
def Obligations.LdargReadsTheArgument : Prop :=
  ∀ (d : Reg) (n i : Nat) (is : List Instr) (a : Word) (s : State), s.running →
    (Pseudo.ldarg d n i).expand = some is → a = s.fp - BitVec.ofNat 64 (4 * (1 + n - i)) →
    s.fits a.toNat 4 →
    ∃ t, execSeq is s = .next t ∧
      WroteDest { s with ip := s.ip + 8 } t d ((s.halfAt a.toNat).setWidth 64)
end

