-- ==== Sys2Proof/Laws/Config.lean ====
section
/-! SUPPORT. The fields of the reference configuration, and what the definitions that go through a
configuration are under it. -/

namespace Sys2Proof

@[simp] theorem reference_opcode : Config.reference.opcode = Config.opcode := rfl
@[simp] theorem reference_regNum : Config.reference.regNum = Config.regNum := rfl
@[simp] theorem reference_fieldLayout : Config.reference.fieldLayout = .arithmetic := rfl
@[simp] theorem reference_indicator : Config.reference.valueLayout.indicator = 0 := rfl
@[simp] theorem reference_data : Config.reference.valueLayout.data = 2 := rfl
@[simp] theorem reference_reg : Config.reference.valueLayout.reg = 0 := rfl
@[simp] theorem reference_offset : Config.reference.valueLayout.offset = 8 := rfl
@[simp] theorem reference_reservedNonzero : Config.reference.reservedNonzero = .fault := rfl
@[simp] theorem reference_condMatch : Config.reference.condMatch = .exact := rfl
@[simp] theorem reference_byteOrder : Config.reference.byteOrder = .little := rfl
@[simp] theorem reference_align : Config.reference.align = .none := rfl
@[simp] theorem reference_memSize : Config.reference.memSize = 0x10000 := rfl
@[simp] theorem reference_valueBytes : Config.reference.valueBytes = 4 := rfl
@[simp] theorem reference_value32Extend : Config.reference.value32Extend = .zero := rfl
@[simp] theorem reference_regoffValueDeref : Config.reference.regoffValueDeref = true := rfl
@[simp] theorem reference_storeBytes : Config.reference.storeBytes = 4 := rfl
@[simp] theorem reference_idivRound : Config.reference.idivRound = .trunc := rfl
@[simp] theorem reference_num : Config.reference.num = Config.num := rfl
@[simp] theorem reference_shiftOver : Config.reference.shiftOver = .zero := rfl
@[simp] theorem reference_input : Config.reference.input = Config.input := rfl
@[simp] theorem reference_entry : Config.reference.entry = 0 := rfl

/-- Under the reference `FIELD_LAYOUT` every instruction has the arithmetic layout (R93, D4). -/
@[simp] theorem layoutOf_reference (o : Op) : Config.reference.layoutOf o = .arithmetic := by cases o <;> rfl

/-- Under the reference `BYTE_ORDER` the byte at the lowest address is the least significant (R60). -/
@[simp] theorem natOfMem_reference (bs : List Byte) : natOfMem bs = natOfBytes bs := rfl
@[simp] theorem memOfNat_reference (n v : Nat) : memOfNat n v = bytesOfNat n v := rfl

/-- Either byte order undoes itself. -/
@[simp] theorem arrange_arrange (o : ByteOrder) (bs : List Byte) : o.arrange (o.arrange bs) = bs := by
  cases o <;> simp [ByteOrder.arrange]

@[simp] theorem arrange_length (o : ByteOrder) (bs : List Byte) : (o.arrange bs).length = bs.length := by
  cases o <;> simp [ByteOrder.arrange]

end Sys2Proof
end

