-- ==== Sys2Proof/Laws/Encoding.lean ====
section
/-! SUPPORT. Fields and words, numbers and names, operands there and back. -/

namespace Sys2Proof

/-! ## Fields of a word -/

/-- A bit of a field put at its place. -/
theorem getLsbD_placed {n : Nat} (m k i : Nat) (f : BitVec n) :
    (placed m k f).getLsbD i = if k ≤ i ∧ i < k + n ∧ i < m then f.getLsbD (i - k) else false := by
  rw [placed, BitVec.getLsbD_shiftLeft, BitVec.getLsbD_setWidth]
  by_cases h : k ≤ i ∧ i < k + n ∧ i < m
  · simp [h, show ¬ i < k by omega, show i - k < m by omega]
  · rw [if_neg h]
    by_cases h1 : i < k
    · simp [h1]
    · by_cases h2 : i < m
      · rw [BitVec.getLsbD_of_ge f _ (by omega)]; simp
      · simp [h2]

/-- The fields put together read back, each of them. -/
theorem ofWord_toWord (f : Fields) : Fields.ofWord (f.toWord .arithmetic) .arithmetic = f := by
  obtain ⟨o, t, c, y, d, s, v⟩ := f
  simp only [Fields.ofWord, opcodeOf, Fields.toWord, FieldLayout.arithmetic, Fields.mk.injEq]
  refine ⟨?_, ?_, ?_, ?_, ?_, ?_, ?_⟩ <;> apply BitVec.eq_of_getLsbD_eq <;> intro i hi <;>
    simp only [BitVec.getLsbD_extractLsb', BitVec.getLsbD_or, getLsbD_placed, hi, decide_true, Bool.true_and] <;>
    (repeat rw [if_neg (by omega)]) <;> (rw [if_pos (by omega)]) <;>
    (repeat rw [if_neg (by omega)]) <;> simp

/-- Bits 62 and 63 of a word put together from fields are zero. -/
theorem toWord_top (f : Fields) : (f.toWord .arithmetic).extractLsb' 62 2 = 0 := by
  apply BitVec.eq_of_getLsbD_eq
  intro i hi
  simp only [Fields.toWord, FieldLayout.arithmetic, BitVec.getLsbD_extractLsb', BitVec.getLsbD_or, getLsbD_placed]
  repeat rw [if_neg (by omega)]
  simp

/-- A word whose bits 62 and 63 are zero is its fields put together: no bit is dropped. -/
theorem toWord_ofWord {w : Word} (h : w.extractLsb' 62 2 = 0) :
    (Fields.ofWord w .arithmetic).toWord .arithmetic = w := by
  apply BitVec.eq_of_getLsbD_eq
  intro i hi
  have top (j : Nat) (hj : j < 2) : w.getLsbD (62 + j) = false := by
    have := congrArg (fun b => b.getLsbD j) h
    simpa [hj] using this
  simp only [Fields.ofWord, opcodeOf, Fields.toWord, FieldLayout.arithmetic, BitVec.getLsbD_or, getLsbD_placed,
    BitVec.getLsbD_extractLsb']
  rcases (by omega : i < 6 ∨ i = 6 ∨ (7 ≤ i ∧ i < 10) ∨ (10 ≤ i ∧ i < 12) ∨ (12 ≤ i ∧ i < 20) ∨
      (20 ≤ i ∧ i < 28) ∨ (28 ≤ i ∧ i < 62) ∨ 62 ≤ i) with h | h | h | h | h | h | h | h <;>
    (repeat rw [if_neg (by omega)]) <;> (try rw [if_pos (by omega)]) <;> (repeat rw [if_neg (by omega)])
  case inr.inr.inr.inr.inr.inr.inr =>
    have := top (i - 62) (by omega)
    rw [show 62 + (i - 62) = i by omega] at this
    simp [this]
  all_goals
    simp only [Bool.false_or, Bool.or_false]
    rw [decide_eq_true (by omega), Bool.true_and]
    congr 1
    omega

/-- No bit is set outside the fields an instruction uses exactly when the other fields and bits 62 and 63
are zero (R105 condition 2). -/
theorem strayBits_iff (w : Word) (u : Usage) : strayBits w .arithmetic u = false ↔
    (Fields.ofWord w .arithmetic).only u = Fields.ofWord w .arithmetic ∧ w.extractLsb' 62 2 = 0 := by
  simp only [strayBits, bne_eq_false_iff_eq]
  constructor
  · intro h
    exact ⟨by rw [← ofWord_toWord ((Fields.ofWord w .arithmetic).only u), h], by rw [← h]; exact toWord_top _⟩
  · rintro ⟨h, ht⟩
    rw [h, toWord_ofWord ht]

/-! ## Numbers and names -/

/-- Every instruction's opcode names it. -/
@[simp] theorem opOfCode_opcode (o : Op) : opOfCode (Config.opcode o) = some o := by cases o <;> decide

/-- A code that names an instruction is its opcode. -/
theorem opcode_of_opOfCode {c : BitVec 6} {o : Op} (h : opOfCode c = some o) : Config.opcode o = c := by
  simpa [opOfCode] using List.find?_some h

/-- Every register's number names it. -/
@[simp] theorem regOfNum_regNum (r : Reg) : regOfNum (Config.regNum r) = some r := by
  cases r with
  | r k => revert k; decide
  | s k => revert k; decide
  | _ => decide

/-- A number that names a register is its number. -/
theorem regNum_of_regOfNum {n : BitVec 8} {r : Reg} (h : regOfNum n = some r) : Config.regNum r = n := by
  simpa using List.find?_some h

/-- The numbers that name a register are 0 to 29 (spec/10_state.md R21). -/
theorem regOfNum_eq_none_iff (n : BitVec 8) : regOfNum n = none ↔ 29 < n.toNat := by
  revert n; decide

/-- The codes that name an instruction are 0 to 20 (spec/30_encoding.md R103). -/
theorem opOfCode_eq_none_iff (c : BitVec 6) : opOfCode c = none ↔ 20 < c.toNat := by
  revert c; decide

@[simp] theorem decodeReg_regNum (r : Reg) : decodeReg (Config.regNum r) = .ok r := by simp [decodeReg]

theorem regNum_of_decodeReg {n : BitVec 8} {r : Reg} (h : decodeReg n = .ok r) : Config.regNum r = n := by
  unfold decodeReg at h
  split at h
  · cases h; exact regNum_of_regOfNum ‹_›
  · cases h

/-- A register field is refused exactly when its number is above 29. -/
theorem decodeReg_error_iff (n : BitVec 8) : (∃ e, decodeReg n = .error e) ↔ 29 < n.toNat := by
  rw [← regOfNum_eq_none_iff, decodeReg]
  cases h : regOfNum n <;> simp

@[simp] theorem decodeDType_encodeDType (t : DType) : decodeDType (encodeDType t) = t := by cases t <;> decide

@[simp] theorem encodeDType_decodeDType (t : BitVec 2) : encodeDType (decodeDType t) = t := by
  revert t; decide

/-- The reference configuration is one of the hardware's (spec/00_scope.md R7). -/
theorem reference_valid : Config.reference.Valid where
  nop := rfl
  opcodes x y h := by
    have := opOfCode_opcode x
    rw [← reference_opcode, h, reference_opcode, opOfCode_opcode] at this
    exact (Option.some.inj this).symm
  registers x y h := by
    have := regOfNum_regNum x
    rw [← reference_regNum, h, reference_regNum, regOfNum_regNum] at this
    exact (Option.some.inj this).symm
  dst := by decide
  src := by decide
  value := by decide
  fields := ⟨.inl (by decide), .inl (by decide), .inl (by decide)⟩
  cnd := ⟨by decide, by decide, .inl (by decide)⟩
  parts := ⟨by decide, by decide, .inl (by decide)⟩
  data := ⟨by decide, by decide, .inl (by decide)⟩
  memory := by decide

/-! ## Operands -/

/-- The parts of a value field that an operand is built from (spec/30_encoding.md R95). -/
theorem extract_append_ind (d : Half) (i : BitVec 2) :
    (d ++ i).extractLsb' 0 2 = i ∧ (d ++ i).extractLsb' 2 32 = d := by
  constructor <;> apply BitVec.eq_of_getLsbD_eq <;> intro j hj <;>
    simp only [BitVec.getLsbD_extractLsb', BitVec.getLsbD_append, hj, decide_true, Bool.true_and] <;>
    split <;> first | omega | (congr 1; omega)

theorem extract_append_reg (n : BitVec 24) (r : BitVec 8) :
    (n ++ r).extractLsb' 0 8 = r ∧ (n ++ r).extractLsb' 8 24 = n := by
  constructor <;> apply BitVec.eq_of_getLsbD_eq <;> intro j hj <;>
    simp only [BitVec.getLsbD_extractLsb', BitVec.getLsbD_append, hj, decide_true, Bool.true_and] <;>
    split <;> first | omega | (congr 1; omega)

/-- A value field is its data over its indicator. -/
theorem append_extract_ind (f : BitVec 34) : f.extractLsb' 2 32 ++ f.extractLsb' 0 2 = f := by
  apply BitVec.eq_of_getLsbD_eq
  intro i hi
  simp only [BitVec.getLsbD_append, BitVec.getLsbD_extractLsb']
  split <;> (rw [decide_eq_true (by omega), Bool.true_and]; congr 1; omega)

theorem append_extract_reg (d : Half) : d.extractLsb' 8 24 ++ d.extractLsb' 0 8 = d := by
  apply BitVec.eq_of_getLsbD_eq
  intro i hi
  simp only [BitVec.getLsbD_append, BitVec.getLsbD_extractLsb']
  split <;> (rw [decide_eq_true (by omega), Bool.true_and]; congr 1; omega)

/-- Two parts put at their places are one over the other. -/
theorem placed_or_placed {m n : Nat} (a : BitVec m) (b : BitVec n) :
    placed (m + n) n a ||| placed (m + n) 0 b = a ++ b := by
  apply BitVec.eq_of_getLsbD_eq
  intro i hi
  rw [BitVec.getLsbD_or, getLsbD_placed, getLsbD_placed, BitVec.getLsbD_append]
  by_cases h : i < n
  · rw [if_neg (by omega), if_pos (by omega), if_pos h]; simp
  · rw [if_pos (by omega), if_neg (by omega), if_neg h]; simp

/-- The value field under the reference `VALUE_LAYOUT`: the data over the indicator (R95). -/
@[simp] theorem valueField_reference (i : BitVec 2) (d : Half) : valueField i d = d ++ i :=
  placed_or_placed d i

/-- The data under the reference `VALUE_LAYOUT`: the offset over the register number (R95). -/
theorem registerData_reference (r : Reg) (n : BitVec 24) :
    registerData r n = n ++ Config.regNum r := placed_or_placed n (Config.regNum r)

/-- The register number and the offset of the data read back. -/
theorem extract_registerData (r : Reg) (n : BitVec 24) :
    (registerData r n).extractLsb' 0 8 = Config.regNum r ∧ (registerData r n).extractLsb' 8 24 = n := by
  rw [registerData_reference]
  exact extract_append_reg n (Config.regNum r)

/-- What a value field decodes to, by its indicator (R95, R96). -/
theorem decodeOperand_append (d : Half) (i : BitVec 2) : decodeOperand (d ++ i) =
    if i = 0 then .ok (.imm d)
    else if i = 1 then .ok (.mem d)
    else if i = 2 then
      if d.extractLsb' 8 24 ≠ 0 then .error .reservedNonzero else decodeRegOperand d .reg
    else decodeRegOperand d fun r => .regOff r (d.extractLsb' 8 24) := by
  have h := extract_append_ind d i
  simp only [decodeOperand, reference_indicator, reference_data, reference_offset, reference_reservedNonzero,
    true_and]
  rw [h.1, h.2]

/-- An encoded operand decodes to itself. -/
@[simp] theorem decodeOperand_encodeOperand (v : Operand) : decodeOperand (encodeOperand v) = .ok v := by
  cases v with
  | imm d => rw [encodeOperand, valueField_reference, decodeOperand_append]; rfl
  | mem a => rw [encodeOperand, valueField_reference, decodeOperand_append]; rfl
  | reg r =>
    rw [encodeOperand, valueField_reference, decodeOperand_append]
    simp [extract_registerData, decodeRegOperand]
  | regOff r n =>
    rw [encodeOperand, valueField_reference, decodeOperand_append]
    simp [extract_registerData, decodeRegOperand]

/-- A value field that decodes is the encoding of its operand. -/
theorem encodeOperand_of_decodeOperand {f : BitVec 34} {v : Operand} (h : decodeOperand f = .ok v) :
    encodeOperand v = f := by
  have hf := append_extract_ind f
  have hd := append_extract_reg (f.extractLsb' 2 32)
  rw [← hf, decodeOperand_append] at h
  rw [← hf]
  split at h
  next hi => cases h; rw [hi, encodeOperand, valueField_reference]
  split at h
  next hi => cases h; rw [hi, encodeOperand, valueField_reference]
  split at h
  next hi =>
    split at h
    · cases h
    next hz =>
      rw [ne_eq, not_not] at hz
      unfold decodeRegOperand at h
      split at h
      next r hr =>
        cases h
        have hr := regNum_of_decodeReg hr
        rw [reference_reg] at hr
        rw [hi, encodeOperand, valueField_reference, registerData_reference, hr, ← hz, hd]
      next => cases h
  next h0 h1 h2 =>
    have hi : f.extractLsb' 0 2 = 3 := by
      generalize f.extractLsb' 0 2 = i at h0 h1 h2
      revert i; decide
    unfold decodeRegOperand at h
    split at h
    next r hr =>
      cases h
      have hr := regNum_of_decodeReg hr
      rw [reference_reg] at hr
      rw [hi, encodeOperand, valueField_reference, registerData_reference, hr, hd]
    next => cases h

@[simp] theorem decodeAddr_encodeOperand {v : Operand} (h : v.isAddr = true) :
    decodeAddr (encodeOperand v) = .ok v := by simp [decodeAddr, h]

theorem of_decodeAddr {f : BitVec 34} {v : Operand} (h : decodeAddr f = .ok v) :
    decodeOperand f = .ok v ∧ v.isAddr = true := by
  unfold decodeAddr at h
  split at h
  · cases h
  · split at h
    · cases h; exact ⟨‹_›, ‹_›⟩
    · cases h

/-! ## Words -/

/-- What the decoder answers an instruction for: an assigned opcode, no stray bit, and operands that decode
(R104, R105). -/
theorem decode_ok_iff {w : Word} {i : Instr} : decode w = .ok i ↔
    ∃ o, opOfCode (opcodeOf w) = some o ∧ (o = .nop → w = 0) ∧
      (Fields.ofWord w .arithmetic).only o.usage = Fields.ofWord w .arithmetic ∧ w.extractLsb' 62 2 = 0 ∧
      decodeAs o (Fields.ofWord w .arithmetic) = .ok i := by
  unfold decode
  constructor
  · intro h
    split at h
    · cases h
    next o ho =>
      split at h
      · cases h
      next hn =>
        split at h
        · cases h
        next hs =>
          simp only [reference_reservedNonzero, layoutOf_reference, true_and, Bool.not_eq_true] at hs h
          obtain ⟨hu, ht⟩ := (strayBits_iff w o.usage).mp hs
          exact ⟨o, ho, by simpa using hn, hu, ht, h⟩
  · rintro ⟨o, ho, hn, hu, ht, hd⟩
    have hs := (strayBits_iff w o.usage).mpr ⟨hu, ht⟩
    simp only [ho, layoutOf_reference, hs]
    rw [if_neg (by simpa using hn), if_neg (by simp)]
    exact hd

end Sys2Proof
end

