-- ==== Sys2Proof/Laws/Flags.lean ====
section
/-! SUPPORT. What each operation on `$flag` leaves of every bit, and what the conditional test asks. -/

namespace Sys2Proof.Machine

/-- One bit replaced, every other kept. -/
@[simp] theorem getLsbD_withBit (f : Word) (i n : Nat) (v : Bool) (hi : i < 64) :
    (withBit f i v).getLsbD n = if n = i then v else f.getLsbD n := by
  have h1 : (1#64 <<< i).getLsbD n = decide (n = i) := by
    rw [BitVec.getLsbD_shiftLeft, BitVec.getLsbD_one]
    by_cases h : n = i
    · subst h; simp [hi]
    · simp only [h, decide_false]
      by_cases h' : n < i
      · simp [h']
      · have : n - i ≠ 0 := by omega
        simp [this]
  by_cases hn : n < 64
  · cases v <;> by_cases h : n = i <;>
      simp only [withBit, if_true, Bool.false_eq_true, if_false, h1, h, BitVec.getLsbD_or, BitVec.getLsbD_and, BitVec.getLsbD_not] <;> simp [hn, hi]
  · have : n ≠ i := by omega
    rw [if_neg this, BitVec.getLsbD_of_ge _ _ (by omega), BitVec.getLsbD_of_ge _ _ (by omega)]

@[simp] theorem getLsbD_withZ (f : Word) (n : Nat) (v : Bool) :
    (withZ f v).getLsbD n = if n = 3 then v else f.getLsbD n := getLsbD_withBit f 3 n v (by decide)

@[simp] theorem getLsbD_withRun (f : Word) (n : Nat) (v : Bool) :
    (withRun f v).getLsbD n = if n = 4 then v else f.getLsbD n := getLsbD_withBit f 4 n v (by decide)

@[simp] theorem getLsbD_withErr (f : Word) (n : Nat) (v : Bool) :
    (withErr f v).getLsbD n = if n = 5 then v else f.getLsbD n := getLsbD_withBit f 5 n v (by decide)

/-! The same for a bit read by `[n]`, the form `simp` turns a numeral bit into. -/

@[simp] theorem getElem_withZ (f : Word) (n : Nat) (v : Bool) (h : n < 64) :
    (withZ f v)[n] = if n = 3 then v else f[n] := getLsbD_withZ f n v

@[simp] theorem getElem_withRun (f : Word) (n : Nat) (v : Bool) (h : n < 64) :
    (withRun f v)[n] = if n = 4 then v else f[n] := getLsbD_withRun f n v

@[simp] theorem getElem_withErr (f : Word) (n : Nat) (v : Bool) (h : n < 64) :
    (withErr f v)[n] = if n = 5 then v else f[n] := getLsbD_withErr f n v

/-- The comparison bits replaced, every other kept. -/
@[simp] theorem getLsbD_withCmp (f : Word) (c : BitVec 3) (n : Nat) :
    (withCmp f c).getLsbD n = if n < 3 then c.getLsbD n else f.getLsbD n := by
  unfold withCmp
  rw [BitVec.getLsbD_append]
  by_cases h : n < 3
  · simp [h]
  · simp only [h, if_false, BitVec.getLsbD_extractLsb']
    by_cases h' : n < 64
    · have h1 : n - 3 < 61 := by omega
      have h2 : 3 + (n - 3) = n := by omega
      simp [h1, h2]
    · have h1 : ¬ n - 3 < 61 := by omega
      simp [h1, BitVec.getLsbD_of_ge f n (by omega)]

@[simp] theorem cmpBits_withCmp (f : Word) (c : BitVec 3) : cmpBits (withCmp f c) = c := by
  apply BitVec.eq_of_getLsbD_eq
  intro i hi
  simp [cmpBits, hi]

/-- Two words that agree on bits 0 to 2 have the same comparison bits. -/
theorem cmpBits_congr {f g : Word} (h : ∀ n < 3, f.getLsbD n = g.getLsbD n) : cmpBits f = cmpBits g := by
  apply BitVec.eq_of_getLsbD_eq
  intro i hi
  simpa [cmpBits, hi] using h i hi

@[simp] theorem runFlag_eq (f : Word) : runFlag f = f.getLsbD 4 := rfl

@[simp] theorem errFlag_eq (f : Word) : errFlag f = f.getLsbD 5 := rfl

@[simp] theorem zFlag_eq (f : Word) : zFlag f = f.getLsbD 3 := rfl

/-- The conditional test under the reference `COND_MATCH` (spec/30_encoding.md R101). -/
theorem condPasses_iff (c : Cond) (f : Word) :
    condPasses c f = true ↔ (c.test = true → c.cc = f.extractLsb' 0 3) := by
  cases h : c.test <;> simp [condPasses, h, ccMatches, cmpBits]

/-- The match of `b` under the reference `COND_MATCH` (spec/42_branching.md R182). -/
theorem ccMatches_reference (a b : BitVec 3) :
    ccMatches Config.reference.condMatch a b = true ↔ b = a := by simp [ccMatches]

end Sys2Proof.Machine
end

