-- ==== Sys2Proof/Laws/Memory.lean ====
section
/-! SUPPORT. Memory: a read after a write, the bytes a write leaves, the canonical form kept. -/

namespace Sys2Proof.Machine

/-! ## Cells -/

theorem lookupCell_filter (cs : List Host.Cell) (a k : Nat) :
    lookupCell (cs.filter fun c => c.1 != a) k = if k = a then unlistedByte else lookupCell cs k := by
  induction cs with
  | nil => simp [lookupCell]
  | cons c cs ih =>
    obtain ⟨k', b⟩ := c
    by_cases h : k' = a
    · subst h
      by_cases hk : k' = k
      · subst hk; simp [ih]
      · simp [lookupCell, ih, hk]
    · by_cases hk : k' = k
      · subst hk; simp [lookupCell, h]
      · simp [lookupCell, h, hk, ih]

theorem lookupCell_insert (cs : List Host.Cell) (a k : Nat) (b : Byte) (h : lookupCell cs a = unlistedByte)
    (hmem : ∀ c ∈ cs, c.1 ≠ a) :
    lookupCell (insertCell cs a b) k = if k = a then b else lookupCell cs k := by
  induction cs with
  | nil => simp [insertCell, lookupCell, eq_comm]
  | cons c cs ih =>
    obtain ⟨k', b'⟩ := c
    have hne : k' ≠ a := hmem (k', b') (by simp)
    have ih' := ih (by simpa [lookupCell, hne] using h) fun c hc => hmem c (by simp [hc])
    unfold insertCell
    split
    · by_cases hk : a = k
      · simp [lookupCell, hk]
      · simp [lookupCell, hk, Ne.symm hk]
    · simp only [lookupCell, ih']
      by_cases hk : k' = k
      · have : k ≠ a := hk ▸ hne
        simp [hk, this]
      · simp [hk]

/-- One byte written: it reads back there, and every other address reads as before. -/
@[simp] theorem lookupCell_setCell (cs : List Host.Cell) (a k : Nat) (b : Byte) :
    lookupCell (setCell cs a b) k = if k = a then b else lookupCell cs k := by
  unfold setCell
  split
  next h => rw [lookupCell_filter, h]
  next =>
    rw [lookupCell_insert _ _ _ _ (by simp [lookupCell_filter]) (by simp), lookupCell_filter]
    split <;> rfl

/-! ## The canonical form -/

theorem cellsWf_mono {size lo lo' : Nat} {cs : List Host.Cell} (h : cellsWf size lo' cs = true) (hl : lo ≤ lo') :
    cellsWf size lo cs = true := by
  cases cs with
  | nil => rfl
  | cons c cs =>
    obtain ⟨k, b⟩ := c
    simp only [cellsWf, Bool.and_eq_true, decide_eq_true_eq] at h ⊢
    exact ⟨⟨⟨by omega, h.1.1.2⟩, h.1.2⟩, h.2⟩

theorem cellsWf_filter {size lo : Nat} {cs : List Host.Cell} (p : Host.Cell → Bool)
    (h : cellsWf size lo cs = true) : cellsWf size lo (cs.filter p) = true := by
  induction cs generalizing lo with
  | nil => rfl
  | cons c cs ih =>
    obtain ⟨k, b⟩ := c
    simp only [cellsWf, Bool.and_eq_true, decide_eq_true_eq] at h
    rw [List.filter_cons]
    split
    · simp [cellsWf, h.1.1.1, h.1.1.2, ih h.2]; simpa using h.1.2
    · exact cellsWf_mono (ih h.2) (by omega)

/-- The listing cut at another size is canonical below it. -/
theorem cellsWf_below {size lo : Nat} {cs : List Host.Cell} (n : Nat) (h : cellsWf size lo cs = true) :
    cellsWf n lo (cs.filter fun c => c.1 < n) = true := by
  induction cs generalizing lo with
  | nil => rfl
  | cons c cs ih =>
    obtain ⟨k, b⟩ := c
    simp only [cellsWf, Bool.and_eq_true, decide_eq_true_eq] at h
    rw [List.filter_cons]
    split
    next hk =>
      simp only [cellsWf, Bool.and_eq_true, decide_eq_true_eq]
      exact ⟨⟨⟨h.1.1.1, by simpa using hk⟩, h.1.2⟩, ih h.2⟩
    next => exact cellsWf_mono (ih h.2) (by omega)

/-- Every address a canonical listing holds is below its size. -/
theorem cellsWf_lt {size lo : Nat} {cs : List Host.Cell} (h : cellsWf size lo cs = true) :
    ∀ c ∈ cs, c.1 < size := by
  induction cs generalizing lo with
  | nil => simp
  | cons c cs ih =>
    obtain ⟨k, b⟩ := c
    simp only [cellsWf, Bool.and_eq_true, decide_eq_true_eq] at h
    exact List.forall_mem_cons.mpr ⟨h.1.1.2, ih h.2⟩

theorem cellsWf_insert {size lo a : Nat} {cs : List Host.Cell} {b : Byte} (h : cellsWf size lo cs = true)
    (hl : lo ≤ a) (ha : a < size) (hb : b ≠ unlistedByte) (hmem : ∀ c ∈ cs, c.1 ≠ a) :
    cellsWf size lo (insertCell cs a b) = true := by
  induction cs generalizing lo with
  | nil => simp [insertCell, cellsWf, hl, ha, hb]
  | cons c cs ih =>
    obtain ⟨k, b'⟩ := c
    have hne : k ≠ a := hmem (k, b') (by simp)
    simp only [cellsWf, Bool.and_eq_true, decide_eq_true_eq] at h
    unfold insertCell
    split
    next hlt =>
      simp only [cellsWf, Bool.and_eq_true, decide_eq_true_eq]
      exact ⟨⟨⟨hl, ha⟩, by simpa using hb⟩, ⟨⟨⟨by omega, h.1.1.2⟩, h.1.2⟩, h.2⟩⟩
    next hge =>
      simp only [cellsWf, Bool.and_eq_true, decide_eq_true_eq]
      exact ⟨h.1, ih h.2 (by omega) fun c hc => hmem c (by simp [hc])⟩

theorem setCell_wf {size a : Nat} {cs : List Host.Cell} (b : Byte) (h : cellsWf size 0 cs = true)
    (ha : a < size) : cellsWf size 0 (setCell cs a b) = true := by
  unfold setCell
  split
  · exact cellsWf_filter _ h
  · exact cellsWf_insert (cellsWf_filter _ h) (Nat.zero_le a) ha ‹_› (by simp)

/-! ## Bytes -/

variable (m : Memory)

@[simp] theorem setByte_size (a : Nat) (b : Byte) : (m.setByte a b).size = m.size := rfl

@[simp] theorem byte_setByte (a k : Nat) (b : Byte) :
    (m.setByte a b).byte k = if k = a then b else m.byte k := lookupCell_setCell m.cells a k b

theorem setByte_wf {m : Memory} {a : Nat} (b : Byte) (h : m.wf = true) (ha : a < m.size) :
    (m.setByte a b).wf = true := by
  simp only [Memory.wf, Bool.and_eq_true, decide_eq_true_eq] at h ⊢
  exact ⟨h.1, setCell_wf b h.2 ha⟩

@[simp] theorem setBytes_size (a : Nat) (bs : List Byte) : (m.setBytes a bs).size = m.size := by
  induction bs generalizing m a with
  | nil => rfl
  | cons b bs ih => simp [Memory.setBytes, ih]

/-- Memory after a write of bytes, address by address. -/
theorem byte_setBytes (a k : Nat) (bs : List Byte) :
    (m.setBytes a bs).byte k = if a ≤ k ∧ k < a + bs.length then bs.getD (k - a) 0 else m.byte k := by
  induction bs generalizing m a with
  | nil => rw [if_neg (by simp)]; rfl
  | cons b bs ih =>
    rw [Memory.setBytes, ih, byte_setByte]
    rcases Nat.lt_trichotomy k a with h | h | h
    · simp [show ¬ a + 1 ≤ k by omega, show k ≠ a by omega, show ¬ a ≤ k by omega]
    · subst h; simp
    · obtain ⟨j, rfl⟩ : ∃ j, k = a + 1 + j := ⟨k - (a + 1), by omega⟩
      have h1 : a + 1 + j - (a + 1) = j := by omega
      have h2 : a + 1 + j - a = j + 1 := by omega
      simp only [h1, h2, List.length_cons, List.getD_cons_succ]
      by_cases hj : j < bs.length
      · rw [if_pos (by omega), if_pos (by omega)]
      · rw [if_neg (by omega), if_neg (by omega), if_neg (by omega)]

/-- A write of bytes leaves every address outside it. -/
theorem byte_setBytes_outside {a k : Nat} {bs : List Byte} (h : ¬ (a ≤ k ∧ k < a + bs.length)) :
    (m.setBytes a bs).byte k = m.byte k := by rw [byte_setBytes, if_neg h]

/-- A write of bytes reads back. -/
theorem byte_setBytes_inside {a j : Nat} {bs : List Byte} (h : j < bs.length) :
    (m.setBytes a bs).byte (a + j) = bs[j] := by
  rw [byte_setBytes, if_pos (by omega), Nat.add_sub_cancel_left, List.getD_eq_getElem _ _ h]

theorem setBytes_wf {m : Memory} {a : Nat} {bs : List Byte} (h : m.wf = true) (ha : a + bs.length ≤ m.size) :
    (m.setBytes a bs).wf = true := by
  induction bs generalizing m a with
  | nil => exact h
  | cons b bs ih =>
    simp only [List.length_cons] at ha
    exact ih (setByte_wf b h (by omega)) (by rw [setByte_size]; omega)

@[simp] theorem bytes_length (a n : Nat) : (m.bytes a n).length = n := by
  induction n generalizing a with
  | zero => rfl
  | succ n ih => simp [Memory.bytes, ih]

theorem bytes_getElem {a n j : Nat} (h : j < n) : (m.bytes a n)[j]'(by simpa) = m.byte (a + j) := by
  induction n generalizing a j with
  | zero => omega
  | succ n ih =>
    cases j with
    | zero => rfl
    | succ j => simp only [Memory.bytes, List.getElem_cons_succ, ih (show j < n by omega)]; congr 1; omega

/-- Bytes read are the bytes at the addresses in turn. -/
theorem bytes_eq_map (a n : Nat) : m.bytes a n = (List.range n).map fun j => m.byte (a + j) := by
  apply List.ext_getElem (by simp)
  intro j h1 h2
  rw [bytes_getElem m (by simpa using h1)]; simp

/-- Two memories that read the same over a range give the same bytes. -/
theorem bytes_congr {m m' : Memory} {a n : Nat} (h : ∀ k, a ≤ k → k < a + n → m.byte k = m'.byte k) :
    m.bytes a n = m'.bytes a n := by
  rw [bytes_eq_map, bytes_eq_map]
  apply List.map_congr_left
  intro j hj
  simp only [List.mem_range] at hj
  exact h _ (by omega) (by omega)

/-- What was written is what is read. -/
@[simp] theorem bytes_setBytes (a : Nat) (bs : List Byte) : (m.setBytes a bs).bytes a bs.length = bs := by
  apply List.ext_getElem (by simp)
  intro j h1 h2
  rw [bytes_getElem _ (by simpa using h1), byte_setBytes_inside m h2]

/-! ## An array of another length -/

@[simp] theorem ofSize_size (n : Nat) : (m.ofSize n).size = n := rfl

/-- The addresses both arrays have read the same, the others as nothing listed. -/
theorem byte_ofSize (n k : Nat) : (m.ofSize n).byte k = if k < n then m.byte k else unlistedByte := by
  simp only [Memory.ofSize, Memory.byte]
  induction m.cells with
  | nil => simp [lookupCell]
  | cons c cs ih =>
    obtain ⟨a, b⟩ := c
    by_cases hk : a = k
    · subst hk
      by_cases hn : a < n <;> simp_all [lookupCell]
    · by_cases hn : a < n <;> simp_all [lookupCell]

theorem ofSize_wf {m : Memory} {n : Nat} (h : m.wf = true) (hn : n < 2 ^ 64) : (m.ofSize n).wf = true := by
  simp only [Memory.wf, Bool.and_eq_true, decide_eq_true_eq] at h ⊢
  exact ⟨hn, cellsWf_below n h.2⟩

/-- An array of the length asked for is left as it is. -/
theorem ofSize_self {m : Memory} (h : m.wf = true) : m.ofSize m.size = m := by
  obtain ⟨n, cs⟩ := m
  simp only [Memory.wf, Bool.and_eq_true] at h
  simp only [Memory.ofSize, Memory.mk.injEq, true_and, List.filter_eq_self, decide_eq_true_eq]
  exact cellsWf_lt h.2

/-! ## Numbers and bytes -/

@[simp] theorem bytesOfNat_length (n v : Nat) : (bytesOfNat n v).length = n := by
  induction n generalizing v with
  | zero => rfl
  | succ n ih => simp [bytesOfNat, ih]

theorem bytesOfNat_getElem {n v j : Nat} (h : j < n) :
    (bytesOfNat n v)[j]'(by simpa) = BitVec.ofNat 8 (v / 256 ^ j) := by
  induction n generalizing v j with
  | zero => omega
  | succ n ih =>
    cases j with
    | zero => simp [bytesOfNat]
    | succ j =>
      simp only [bytesOfNat, List.getElem_cons_succ, ih (show j < n by omega)]
      rw [Nat.div_div_eq_div_mul, pow_succ, Nat.mul_comm]

/-- The bytes of a number hold it, as far as they reach. -/
theorem natOfBytes_bytesOfNat (n v : Nat) : natOfBytes (bytesOfNat n v) = v % 256 ^ n := by
  induction n generalizing v with
  | zero => simp [bytesOfNat, natOfBytes, Nat.mod_one]
  | succ n ih =>
    rw [bytesOfNat, natOfBytes, ih, BitVec.toNat_ofNat, pow_succ' 256 n, Nat.mod_mul]

theorem natOfBytes_lt (bs : List Byte) : natOfBytes bs < 256 ^ bs.length := by
  induction bs with
  | nil => simp [natOfBytes]
  | cons b bs ih =>
    have := b.isLt
    simp only [natOfBytes, List.length_cons, pow_succ]
    omega

/-! ## Scanning for the first zero byte -/

/-- The scan finds the bytes before the first zero byte. -/
theorem scan_eq_some {m : Memory} {a n k : Nat} (hn : n < k) (h : ∀ j < n, m.byte (a + j) ≠ 0)
    (h0 : m.byte (a + n) = 0) : m.scan k a = some (m.bytes a n) := by
  induction n generalizing a k with
  | zero =>
    obtain ⟨k, rfl⟩ : ∃ j, k = j + 1 := ⟨k - 1, by omega⟩
    simp only [Nat.add_zero] at h0
    simp [Memory.scan, h0, Memory.bytes]
  | succ n ih =>
    obtain ⟨k, rfl⟩ : ∃ j, k = j + 1 := ⟨k - 1, by omega⟩
    have h1 := h 0 (by omega)
    simp only [Nat.add_zero] at h1
    have h2 := ih (a := a + 1) (k := k) (by omega)
      (fun j hj => by have := h (j + 1) (by omega); rwa [Nat.add_comm j 1, ← Nat.add_assoc] at this)
      (by rwa [Nat.add_comm n 1, ← Nat.add_assoc] at h0)
    rw [Memory.scan, if_neg h1, h2]; rfl

/-- The scan fails when no zero byte lies in reach. -/
theorem scan_eq_none {m : Memory} {a k : Nat} (h : ∀ j < k, m.byte (a + j) ≠ 0) : m.scan k a = none := by
  induction k generalizing a with
  | zero => rfl
  | succ k ih =>
    have h1 := h 0 (by omega)
    simp only [Nat.add_zero] at h1
    have h2 := ih (a := a + 1) fun j hj => by
      have := h (j + 1) (by omega); rwa [Nat.add_comm j 1, ← Nat.add_assoc] at this
    rw [Memory.scan, if_neg h1, h2]; rfl

/-- What the scan answers holds no zero byte. -/
theorem zero_notMem_of_scan {m : Memory} {k a : Nat} {bs : List Byte} (h : m.scan k a = some bs) : 0 ∉ bs := by
  induction k generalizing a bs with
  | zero => simp [Memory.scan] at h
  | succ k ih =>
    simp only [Memory.scan] at h
    split at h
    · cases h; simp
    · obtain ⟨cs, hc, rfl⟩ := Option.map_eq_some_iff.mp h
      rw [List.mem_cons, not_or]
      exact ⟨Ne.symm ‹_›, ih hc⟩

end Sys2Proof.Machine
end

