-- ==== Sys2Proof/Laws/State.lean ====
section
/-! SUPPORT. One lemma for each field of the state under each update, and the registers read back. -/

namespace Sys2Proof.Machine

variable (s : State)

/-! ## `setReg` -/

section
variable (d : Reg) (v : Word)
@[simp] theorem setReg_mem : (s.setReg d v).mem = s.mem := by cases d <;> rfl
@[simp] theorem setReg_events : (s.setReg d v).events = s.events := by cases d <;> rfl
@[simp] theorem setReg_consumed : (s.setReg d v).consumed = s.consumed := by cases d <;> rfl
@[simp] theorem setReg_reason : (s.setReg d v).reason = s.reason := by cases d <;> rfl

/-- `$zero` reads 0 (spec/10_state.md R27). -/
@[simp] theorem reg_zero : s.reg .zero = 0 := rfl

/-- A write to `$zero` is discarded (spec/10_state.md R27). -/
@[simp] theorem setReg_zero : s.setReg .zero v = s := rfl

/-- A written register reads back. -/
theorem reg_setReg_self (h : d ≠ .zero) : (s.setReg d v).reg d = v := by
  cases d <;> simp_all [State.reg, State.setReg]

/-- Every other register keeps its value. -/
theorem reg_setReg_of_ne {r : Reg} (h : r ≠ d) : (s.setReg d v).reg r = s.reg r := by
  cases d <;> cases r <;> simp_all [State.reg, State.setReg, Fin.ext_iff, eq_comm]

/-- Reading any register after a write. -/
theorem reg_setReg (r : Reg) :
    (s.setReg d v).reg r = if r = d ∧ d ≠ .zero then v else s.reg r := by
  by_cases h : r = d
  · subst h
    by_cases hz : r = .zero
    · subst hz; simp
    · simp [hz, reg_setReg_self]
  · simp [h, reg_setReg_of_ne]

theorem setReg_flag : (s.setReg d v).flag = if d = .flag then v else s.flag := by cases d <;> rfl
end

@[simp] theorem reg_ip : s.reg .ip = s.ip := rfl
@[simp] theorem reg_sp : s.reg .sp = s.sp := rfl
@[simp] theorem reg_fp : s.reg .fp = s.fp := rfl
@[simp] theorem reg_flag : s.reg .flag = s.flag := rfl
@[simp] theorem reg_ret : s.reg .ret = s.ret := rfl

/-! ## Registers under updates of other fields -/

/-- The registers do not see memory or the host record. -/
@[simp] theorem reg_with_mem (m : Memory) (r : Reg) : State.reg { s with mem := m } r = s.reg r := by
  cases r <;> rfl

@[simp] theorem reg_with_ip (x : Word) (r : Reg) :
    State.reg { s with ip := x } r = if r = .ip then x else s.reg r := by cases r <;> rfl

@[simp] theorem reg_with_sp (x : Word) (r : Reg) :
    State.reg { s with sp := x } r = if r = .sp then x else s.reg r := by cases r <;> rfl

@[simp] theorem reg_with_flag (x : Word) (r : Reg) :
    State.reg { s with flag := x } r = if r = .flag then x else s.reg r := by cases r <;> rfl

@[simp] theorem reg_with_ret (x : Word) (r : Reg) :
    State.reg { s with ret := x } r = if r = .ret then x else s.reg r := by cases r <;> rfl

@[simp] theorem reg_with_events (e : List Event) (r : Reg) :
    State.reg { s with events := e } r = s.reg r := by cases r <;> rfl

/-! ## `setZ` and `writeDest` -/

section
variable (d : Reg) (v : Word)
@[simp] theorem setZ_mem : (s.setZ d).mem = s.mem := rfl
@[simp] theorem setZ_events : (s.setZ d).events = s.events := rfl
@[simp] theorem setZ_consumed : (s.setZ d).consumed = s.consumed := rfl
@[simp] theorem setZ_reason : (s.setZ d).reason = s.reason := rfl
@[simp] theorem setZ_flag : (s.setZ d).flag = withZ s.flag (s.reg d == 0) := rfl

theorem reg_setZ_of_ne {r : Reg} (h : r ≠ .flag) : (s.setZ d).reg r = s.reg r := by
  cases r <;> simp_all [State.reg, State.setZ]

@[simp] theorem writeDest_mem : (s.writeDest d v).mem = s.mem := by simp [State.writeDest]
@[simp] theorem writeDest_events : (s.writeDest d v).events = s.events := by simp [State.writeDest]
@[simp] theorem writeDest_consumed : (s.writeDest d v).consumed = s.consumed := by simp [State.writeDest]
@[simp] theorem writeDest_reason : (s.writeDest d v).reason = s.reason := by simp [State.writeDest]
end

/-! ## `faulted` -/

section
variable (r : FaultReason)
@[simp] theorem faulted_mem : (s.faulted r).mem = s.mem := rfl
@[simp] theorem faulted_events : (s.faulted r).events = s.events := rfl
@[simp] theorem faulted_consumed : (s.faulted r).consumed = s.consumed := rfl
@[simp] theorem faulted_reason : (s.faulted r).reason = some r := rfl
@[simp] theorem faulted_flag : (s.faulted r).flag = withRun (withErr s.flag true) false := rfl

theorem reg_faulted_of_ne {x : Reg} (h : x ≠ .flag) : (s.faulted r).reg x = s.reg x := by
  cases x <;> simp_all [State.reg, State.faulted]
end

/-! ## `emit`, `drawn`, `advance` -/

section
variable (e : Event) (x : InputItem)
@[simp] theorem emit_mem : (s.emit e).mem = s.mem := rfl
@[simp] theorem emit_flag : (s.emit e).flag = s.flag := rfl
@[simp] theorem emit_events : (s.emit e).events = s.events ++ [e] := rfl
@[simp] theorem emit_consumed : (s.emit e).consumed = s.consumed := rfl
@[simp] theorem emit_reason : (s.emit e).reason = s.reason := rfl
@[simp] theorem reg_emit (r : Reg) : (s.emit e).reg r = s.reg r := by cases r <;> rfl
@[simp] theorem drawn_mem : (s.drawn x).mem = s.mem := rfl
@[simp] theorem drawn_flag : (s.drawn x).flag = s.flag := rfl
@[simp] theorem drawn_events : (s.drawn x).events = s.events := rfl
@[simp] theorem drawn_consumed : (s.drawn x).consumed = s.consumed ++ [x] := rfl
@[simp] theorem drawn_reason : (s.drawn x).reason = s.reason := rfl
@[simp] theorem reg_drawn (r : Reg) : (s.drawn x).reg r = s.reg r := by cases r <;> rfl
@[simp] theorem advance_ip : s.advance.ip = s.ip + 8 := rfl
@[simp] theorem advance_mem : s.advance.mem = s.mem := rfl
@[simp] theorem advance_flag : s.advance.flag = s.flag := rfl
@[simp] theorem advance_events : s.advance.events = s.events := rfl
@[simp] theorem advance_consumed : s.advance.consumed = s.consumed := rfl
@[simp] theorem advance_reason : s.advance.reason = s.reason := rfl
end

/-! ## `setRegs` -/

section
variable (ws : List (Reg × Word))
@[simp] theorem setRegs_mem : (s.setRegs ws).mem = s.mem := by
  induction ws generalizing s with
  | nil => rfl
  | cons w ws ih => simp [State.setRegs, ih]
@[simp] theorem setRegs_events : (s.setRegs ws).events = s.events := by
  induction ws generalizing s with
  | nil => rfl
  | cons w ws ih => simp [State.setRegs, ih]
@[simp] theorem setRegs_consumed : (s.setRegs ws).consumed = s.consumed := by
  induction ws generalizing s with
  | nil => rfl
  | cons w ws ih => simp [State.setRegs, ih]
@[simp] theorem setRegs_reason : (s.setRegs ws).reason = s.reason := by
  induction ws generalizing s with
  | nil => rfl
  | cons w ws ih => simp [State.setRegs, ih]

/-- A register that is not among those written keeps its value. -/
theorem reg_setRegs_of_notMem {r : Reg} (h : r ∉ ws.map Prod.fst) : (s.setRegs ws).reg r = s.reg r := by
  induction ws generalizing s with
  | nil => rfl
  | cons w ws ih =>
    simp only [List.map_cons, List.mem_cons, not_or] at h
    simp [State.setRegs, ih _ h.2, reg_setReg_of_ne _ _ _ h.1]

/-- A register written once, among different registers, reads what was written. -/
theorem reg_setRegs_of_mem {ws : List (Reg × Word)} {r : Reg} {v : Word} (hn : (ws.map Prod.fst).Nodup)
    (h : (r, v) ∈ ws) (hz : r ≠ .zero) : (s.setRegs ws).reg r = v := by
  induction ws generalizing s with
  | nil => cases h
  | cons w ws ih =>
    simp only [List.map_cons, List.nodup_cons] at hn
    rcases List.mem_cons.mp h with rfl | h
    · rw [State.setRegs, reg_setRegs_of_notMem _ _ hn.1, reg_setReg_self _ _ _ hz]
    · exact ih _ hn.2 h
end

end Sys2Proof.Machine
end

