-- ==== Sys2Proof/Laws/Ops.lean ====
section
/-! SUPPORT. What each shared operation does, said once: the fault, the conditional test, the destination
write, reads and writes of memory, operands. -/

namespace Sys2Proof.Machine

/-! ## Faults and checks -/

/-- Taking a fault is a next state. -/
theorem raise_eq (s : State) (r : FaultReason) : raise s r = .next (s.faulted r) := rfl

/-- The state a fault leaves is the one R281 describes. -/
theorem faulted_spec (s : State) (r : FaultReason) : Faulted s (s.faulted r) r where
  err := by simp only [faulted_flag, getLsbD_withRun, getLsbD_withErr]; rfl
  run := by simp only [faulted_flag, getLsbD_withRun, if_pos]
  flag n h4 h5 := by simp only [faulted_flag, getLsbD_withRun, getLsbD_withErr, h4, h5, if_false]
  regs x hx := reg_faulted_of_ne s r (by simpa using hx)
  mem := rfl
  events := rfl
  consumed := rfl
  reason := rfl

@[simp] theorem orRaise_ok {α : Type} (s : State) (v : α) (k : α → Outcome) : orRaise s (.ok v) k = k v := rfl

@[simp] theorem orRaise_error {α : Type} (s : State) (r : FaultReason) (k : α → Outcome) :
    orRaise s (.error r) k = .next (s.faulted r) := rfl

/-- What a checked continuation can do. -/
theorem orRaise_cases {α : Type} {s t : State} {x : Except FaultReason α} {k : α → Outcome}
    (h : orRaise s x k = .next t) :
    (∃ v, x = .ok v ∧ k v = .next t) ∨ ∃ r, x = .error r ∧ t = s.faulted r := by
  cases x with
  | ok v => exact .inl ⟨v, rfl, h⟩
  | error r => exact .inr ⟨r, rfl, by simpa using h.symm⟩

/-- What the conditional test around an instruction can do. -/
theorem conditional_cases {c : Cond} {s t : State} {k : Outcome} (h : conditional c s k = .next t) :
    (condHolds c s ∧ k = .next t) ∨ (¬ condHolds c s ∧ t = s) := by
  unfold conditional at h
  split at h
  next hc => exact .inl ⟨(condPasses_iff _ _).mp hc, h⟩
  next hc => exact .inr ⟨fun hh => hc ((condPasses_iff _ _).mpr hh), by simpa using h.symm⟩

theorem conditional_of_holds {c : Cond} {s : State} (h : condHolds c s) (k : Outcome) :
    conditional c s k = k := if_pos ((condPasses_iff _ _).mpr h)

theorem conditional_of_not {c : Cond} {s : State} (h : ¬ condHolds c s) (k : Outcome) :
    conditional c s k = .next s := if_neg fun hc => h ((condPasses_iff _ _).mp hc)

/-! ## The destination write -/

/-- A destination write does what R27, R32 and R36 say and nothing else. -/
theorem writeDest_spec (s : State) (d : Reg) (x : Word) : WroteDest s (s.writeDest d x) d x where
  dest h0 hf := by
    rw [State.writeDest, reg_setZ_of_ne _ _ hf, reg_setReg_self _ _ _ h0]
  z := by
    rw [State.writeDest, setZ_flag, getLsbD_withZ, if_pos rfl]
    by_cases h0 : d = .zero
    · subst h0; rfl
    · simp [reg_setReg_self _ _ _ h0, h0]; rfl
  flag n hn := by rw [State.writeDest, setZ_flag, getLsbD_withZ, if_neg hn, setReg_flag]
  regs r hr := by
    simp only [List.mem_cons, List.not_mem_nil, or_false, not_or] at hr
    rw [State.writeDest, reg_setZ_of_ne _ _ hr.2, reg_setReg_of_ne _ _ _ hr.1]
  mem := by simp
  host := ⟨by simp, by simp, by simp⟩

/-! ## Reads and writes of memory -/

/-- A read succeeds exactly in range, with the bytes there; out of range it is a MemoryFault. -/
theorem memRead_eq (s : State) (a : Word) (n : Nat) :
    s.memRead a n = if a.toNat + n ≤ s.mem.size then .ok (natOfBytes (s.mem.bytes a.toNat n))
      else .error (.memoryFault a.toNat n) := by
  simp [State.memRead, Memory.inRange]

theorem memRead_of_fits {s : State} {a : Word} {n : Nat} (h : s.fits a.toNat n) :
    s.memRead a n = .ok (natOfBytes (s.mem.bytes a.toNat n)) := by rw [memRead_eq, if_pos h]

theorem memRead_of_not {s : State} {a : Word} {n : Nat} (h : ¬ s.fits a.toNat n) :
    s.memRead a n = .error (.memoryFault a.toNat n) := by rw [memRead_eq, if_neg h]

/-- A write succeeds exactly in range and replaces those bytes; out of range it is a MemoryFault. -/
theorem memWriteBytes_eq (s : State) (a : Word) (bs : List Byte) :
    s.memWriteBytes a bs = if a.toNat + bs.length ≤ s.mem.size then
        .ok { s with mem := s.mem.setBytes a.toNat bs }
      else .error (.memoryFault a.toNat bs.length) := by
  simp [State.memWriteBytes, Memory.inRange]

theorem memWriteBytes_of_fits {s : State} {a : Word} {bs : List Byte} (h : s.fits a.toNat bs.length) :
    s.memWriteBytes a bs = .ok { s with mem := s.mem.setBytes a.toNat bs } := by
  rw [memWriteBytes_eq, if_pos h]

theorem memWriteBytes_of_not {s : State} {a : Word} {bs : List Byte} (h : ¬ s.fits a.toNat bs.length) :
    s.memWriteBytes a bs = .error (.memoryFault a.toNat bs.length) := by rw [memWriteBytes_eq, if_neg h]

theorem memWriteBytes_ok {s t : State} {a : Word} {bs : List Byte} (h : s.memWriteBytes a bs = .ok t) :
    s.fits a.toNat bs.length ∧ t = { s with mem := s.mem.setBytes a.toNat bs } := by
  rw [memWriteBytes_eq] at h
  split at h
  · cases h; exact ⟨‹_›, rfl⟩
  · cases h

theorem memWrite_of_fits {s : State} {a : Word} {n v : Nat} (h : s.fits a.toNat n) :
    s.memWrite a n v = .ok { s with mem := s.mem.setBytes a.toNat (bytesOfNat n v) } :=
  memWriteBytes_of_fits (by simpa using h)

theorem memWrite_of_not {s : State} {a : Word} {n v : Nat} (h : ¬ s.fits a.toNat n) :
    s.memWrite a n v = .error (.memoryFault a.toNat n) := by
  have := memWriteBytes_of_not (s := s) (a := a) (bs := bytesOfNat n v) (by simpa using h)
  rwa [bytesOfNat_length] at this

theorem memWrite_ok {s t : State} {a : Word} {n v : Nat} (h : s.memWrite a n v = .ok t) :
    s.fits a.toNat n ∧ t = { s with mem := s.mem.setBytes a.toNat (bytesOfNat n v) } := by
  have := memWriteBytes_ok h
  rwa [memOfNat_reference, bytesOfNat_length] at this

/-- A write of bytes leaves memory the same outside them. -/
theorem memSameOutside_setBytes (s t : State) (a : Nat) (bs : List Byte)
    (h : t.mem = s.mem.setBytes a bs) : MemSameOutside s t a bs.length where
  size := by simp [h]
  bytes k hk := by rw [State.byteAt, h]; exact byte_setBytes_outside _ hk

/-- The byte at a place in a list of bytes of a number. -/
theorem getLsbD_ofNat_div (v j n : Nat) (hn : n < 8) :
    (BitVec.ofNat 8 (v / 256 ^ j)).getLsbD n = v.testBit (8 * j + n) := by
  have h8 : 256 ^ j = 2 ^ (8 * j) := by rw [pow_mul]; norm_num
  rw [BitVec.getLsbD_ofNat, decide_eq_true hn, Bool.true_and, h8, Nat.testBit_div_two_pow, Nat.add_comm]

/-- A number read from bytes, bit by bit. -/
theorem testBit_natOfBytes (bs : List Byte) (n : Nat) :
    (natOfBytes bs).testBit n = (bs.getD (n / 8) 0).getLsbD (n % 8) := by
  induction bs generalizing n with
  | nil => simp [natOfBytes]
  | cons b bs ih =>
    have e : natOfBytes (b :: bs) = 2 ^ 8 * natOfBytes bs + b.toNat := by
      simp [natOfBytes, Nat.add_comm]
    rw [e, Nat.testBit_two_pow_mul_add _ b.isLt]
    by_cases h : n < 8
    · rw [if_pos h, Nat.div_eq_of_lt h, Nat.mod_eq_of_lt h]; rfl
    · obtain ⟨m, rfl⟩ : ∃ m, n = m + 8 := ⟨n - 8, by omega⟩
      rw [if_neg h, ih, Nat.add_sub_cancel, Nat.add_mod_right, Nat.add_div_right _ (by decide)]
      rfl

/-- A byte of a run of bytes. -/
theorem getD_bytes (m : Memory) (a n j : Nat) :
    (m.bytes a n).getD j 0 = if j < n then m.byte (a + j) else 0 := by
  by_cases h : j < n
  · rw [if_pos h, List.getD_eq_getElem _ _ (by simpa using h), bytes_getElem _ h]
  · rw [if_neg h, List.getD_eq_default _ _ (by simpa using h)]

/-- Four bytes read as a half. -/
theorem halfAt_eq (s : State) (a : Nat) :
    BitVec.ofNat 32 (natOfBytes (s.mem.bytes a 4)) = s.halfAt a := by
  apply BitVec.eq_of_getLsbD_eq
  intro n hn
  rw [State.halfAt, BitVec.getLsbD_append, BitVec.getLsbD_append, BitVec.getLsbD_append]
  simp only [BitVec.getLsbD_ofNat, testBit_natOfBytes, getD_bytes, hn, decide_true, Bool.true_and, State.byteAt]
  rw [if_pos (by omega)]
  rcases (by omega : n / 8 = 0 ∨ n / 8 = 1 ∨ n / 8 = 2 ∨ n / 8 = 3) with h | h | h | h <;> rw [h] <;>
    (repeat' split) <;> first | omega | (congr 1; omega)

/-- Eight bytes read as a word. -/
theorem wordAt_eq (s : State) (a : Nat) :
    BitVec.ofNat 64 (natOfBytes (s.mem.bytes a 8)) = s.wordAt a := by
  apply BitVec.eq_of_getLsbD_eq
  intro n hn
  rw [State.wordAt, BitVec.getLsbD_append, ← halfAt_eq, ← halfAt_eq]
  simp only [BitVec.getLsbD_ofNat, testBit_natOfBytes, getD_bytes, hn, decide_true, Bool.true_and]
  by_cases h : n < 32
  · rw [if_pos (by omega), if_pos h, if_pos (by omega), decide_eq_true h, Bool.true_and]
  · rw [if_pos (by omega), if_neg h, if_pos (by omega), decide_eq_true (by omega), Bool.true_and,
      show (n - 32) % 8 = n % 8 by omega, show a + 4 + (n - 32) / 8 = a + n / 8 by omega]

/-- A half or word depends on its bytes alone. -/
theorem halfAt_congr {s t : State} {a : Nat} (h : ∀ k, a ≤ k → k < a + 4 → t.byteAt k = s.byteAt k) :
    t.halfAt a = s.halfAt a := by
  rw [← halfAt_eq, ← halfAt_eq, bytes_congr h]

theorem wordAt_congr {s t : State} {a : Nat} (h : ∀ k, a ≤ k → k < a + 8 → t.byteAt k = s.byteAt k) :
    t.wordAt a = s.wordAt a := by
  rw [← wordAt_eq, ← wordAt_eq, bytes_congr h]

/-- Four bytes of a number written read back as its low half. -/
theorem halfAt_setBytes {s t : State} {a v : Nat} (h : t.mem = s.mem.setBytes a (bytesOfNat 4 v)) :
    t.halfAt a = BitVec.ofNat 32 v := by
  have := bytes_setBytes s.mem a (bytesOfNat 4 v)
  rw [bytesOfNat_length] at this
  rw [← halfAt_eq, h, this, natOfBytes_bytesOfNat]
  apply BitVec.eq_of_toNat_eq
  simp

/-- Eight bytes of a number written read back as its low word. -/
theorem wordAt_setBytes {s t : State} {a v : Nat} (h : t.mem = s.mem.setBytes a (bytesOfNat 8 v)) :
    t.wordAt a = BitVec.ofNat 64 v := by
  have := bytes_setBytes s.mem a (bytesOfNat 8 v)
  rw [bytesOfNat_length] at this
  rw [← wordAt_eq, h, this, natOfBytes_bytesOfNat]
  apply BitVec.eq_of_toNat_eq
  simp

/-! ## Operands (spec/30_encoding.md R97, R98) -/

@[simp] theorem ext32_eq (v : Half) : ext32 v = v.setWidth 64 := rfl

@[simp] theorem lowHalf_eq (v : Word) : lowHalf v = v.extractLsb' 0 32 := rfl

theorem memValue_of_fits {s : State} {a : Word} (h : s.fits a.toNat 4) :
    s.memValue a = .ok ((s.halfAt a.toNat).setWidth 64) := by
  rw [State.memValue, reference_valueBytes, memRead_of_fits h]
  simp [halfAt_eq]

theorem memValue_of_not {s : State} {a : Word} (h : ¬ s.fits a.toNat 4) :
    s.memValue a = .error (.memoryFault a.toNat 4) := by
  rw [State.memValue, reference_valueBytes, memRead_of_not h]

theorem toNat_setWidth_half (a : Half) : (a.setWidth 64 : Word).toNat = a.toNat := by
  rw [BitVec.toNat_setWidth]; omega

/-- A readable operand's value. -/
theorem value_of_readable {s : State} {v : Operand} (h : s.readable v) :
    s.value v = .ok (s.operandValue v) := by
  cases v with
  | imm d => rfl
  | reg r => rfl
  | mem a =>
    have := memValue_of_fits (h _ rfl)
    rw [toNat_setWidth_half] at this
    exact this
  | regOff r n => exact memValue_of_fits (h _ rfl)

/-- An operand whose bytes do not lie in memory is a MemoryFault. -/
theorem value_of_not {s : State} {v : Operand} {a : Word} (hp : s.place v = some a)
    (h : ¬ s.fits a.toNat 4) : s.value v = .error (.memoryFault a.toNat 4) := by
  cases v with
  | imm d => cases hp
  | reg r => cases hp
  | mem m => cases hp; exact memValue_of_not h
  | regOff r n => cases hp; exact memValue_of_not h

/-- An operand is readable, or it names a place outside memory. -/
theorem readable_or (s : State) (v : Operand) :
    s.readable v ∨ ∃ a, s.place v = some a ∧ ¬ s.fits a.toNat 4 := by
  by_cases h : s.readable v
  · exact .inl h
  · simp only [State.readable, Option.mem_def, not_forall] at h
    obtain ⟨a, ha, hf⟩ := h
    exact .inr ⟨a, ha, hf⟩

/-- What a continuation on an operand's value can do. -/
theorem withValue_cases {s t : State} {v : Operand} {k : Word → Outcome} (h : withValue s v k = .next t) :
    (s.readable v ∧ k (s.operandValue v) = .next t) ∨ ∃ r, t = s.faulted r := by
  rcases readable_or s v with hr | ⟨a, hp, hf⟩
  · rw [withValue, value_of_readable hr] at h
    exact .inl ⟨hr, h⟩
  · rw [withValue, value_of_not hp hf] at h
    exact .inr ⟨_, by simpa using h.symm⟩

theorem withValue_of_readable {s : State} {v : Operand} (h : s.readable v) (k : Word → Outcome) :
    withValue s v k = k (s.operandValue v) := by rw [withValue, value_of_readable h, orRaise_ok]

theorem withValue_of_not {s : State} {v : Operand} {a : Word} (hp : s.place v = some a)
    (h : ¬ s.fits a.toNat 4) (k : Word → Outcome) :
    withValue s v k = .next (s.faulted (.memoryFault a.toNat 4)) := by
  rw [withValue, value_of_not hp h, orRaise_error]

theorem addr_isSome {s : State} {a : Operand} (h : a.isAddr = true) : ∃ x, s.addr a = some x := by
  cases a <;> simp_all [Operand.isAddr, State.addr]

end Sys2Proof.Machine
end

