-- ==== Sys2Proof/Laws/Exec.lean ====
section
/-! SUPPORT. What `exec` can do, said once: an instruction is skipped, faults, or runs as `Ran` says; and
that every instruction answers a next state. -/

namespace Sys2Proof.Machine

/-! ## The frame read back by `ret` -/

/-- The registers of a frame of 8-byte items that lies in memory. -/
theorem readFrame_of_fits {s : State} (xs : List FrameItem) (h8 : ∀ x ∈ xs, x.bytes = 8) {a : Word}
    (h : ∀ j < xs.length, s.fits (a + BitVec.ofNat 64 (8 * j)).toNat 8) :
    s.readFrame a xs =
      .ok (xs.mapIdx fun j x => (x.reg, s.wordAt (a + BitVec.ofNat 64 (8 * j)).toNat)) := by
  induction xs generalizing a with
  | nil => rfl
  | cons x xs ih =>
    have hx := h8 x (by simp)
    have h0 : s.fits a.toNat 8 := by simpa using h 0 (by simp)
    have e (j : Nat) : a + BitVec.ofNat 64 8 + BitVec.ofNat 64 (8 * j) = a + BitVec.ofNat 64 (8 * (j + 1)) := by
      apply BitVec.eq_of_toNat_eq; simp; omega
    rw [State.readFrame, hx, memRead_of_fits h0, ih (fun y hy => h8 y (by simp [hy]))]
    · simp only [List.mapIdx_cons, e, wordAt_eq, Nat.mul_zero, BitVec.add_zero]
    · intro j hj
      rw [e]
      exact h (j + 1) (by simpa using hj)

/-- The first item of a frame of 8-byte items that does not lie in memory. -/
theorem readFrame_of_not {s : State} (xs : List FrameItem) (h8 : ∀ x ∈ xs, x.bytes = 8) {a : Word} {k : Nat}
    (hk : k < xs.length) (h : ∀ j < k, s.fits (a + BitVec.ofNat 64 (8 * j)).toNat 8)
    (hn : ¬ s.fits (a + BitVec.ofNat 64 (8 * k)).toNat 8) :
    s.readFrame a xs = .error (.memoryFault (a + BitVec.ofNat 64 (8 * k)).toNat 8) := by
  induction xs generalizing a k with
  | nil => simp at hk
  | cons x xs ih =>
    have hx := h8 x (by simp)
    cases k with
    | zero =>
      simp only [Nat.mul_zero, BitVec.add_zero] at hn ⊢
      rw [State.readFrame, hx, memRead_of_not hn]
    | succ k =>
      have h0 : s.fits a.toNat 8 := by simpa using h 0 (by simp)
      have e (j : Nat) : a + BitVec.ofNat 64 8 + BitVec.ofNat 64 (8 * j) = a + BitVec.ofNat 64 (8 * (j + 1)) := by
        apply BitVec.eq_of_toNat_eq; simp; omega
      have hk' : k < xs.length := by simpa using hk
      rw [State.readFrame, hx, memRead_of_fits h0]
      simp only
      rw [ih (fun y hy => h8 y (by simp [hy])) hk' (fun j hj => by rw [e]; exact h (j + 1) (by omega))
        (by rw [e]; exact hn), e]

/-- The registers named in what a frame's read gives are those asked for. -/
theorem readFrame_names {s : State} {xs : List FrameItem} {a : Word} {ws : List (Reg × Word)}
    (h : s.readFrame a xs = .ok ws) : ws.map Prod.fst = xs.map FrameItem.reg := by
  induction xs generalizing a ws with
  | nil => cases h; rfl
  | cons x xs ih =>
    rw [State.readFrame] at h
    split at h
    · cases h
    · split at h
      · cases h
      next hw => cases h; simp [ih hw]

/-- The items of the reference frame take 8 bytes each (R230). -/
theorem frame_bytes : ∀ x ∈ Config.reference.frame, x.bytes = 8 := by decide

/-- The registers of the reference frame, lowest address first (R230). -/
@[simp] theorem frame_regs : Config.reference.frame.map FrameItem.reg =
    [.fp, .ip, .s 0, .s 1, .s 2, .s 3, .s 4, .s 5, .s 6, .s 7] := rfl

@[simp] theorem frame_length : Config.reference.frame.length = 10 := rfl

@[simp] theorem frameSize_reference : frameSize = 80 := rfl

@[simp] theorem frameBytes_length (s : State) : s.frameBytes.length = 80 := by
  simp [State.frameBytes, Config.reference, memOfNat]

/-! ## What an instruction that runs does -/

/-- What a service does when it does not fault. -/
def Served (x : Service) (s t : State) : Prop :=
  match x with
  | .printInt => t = s.emit (.printInt s.arg1)
  | .printFloat => t = s.emit (.printFloat (lowHalf s.arg1))
  | .printDouble => t = s.emit (.printDouble s.arg1)
  | .printChar => t = s.emit (.printChar (s.arg1.extractLsb' 0 8))
  | .printString => ∃ bs, s.stringAt s.arg1 = .ok bs ∧ t = s.emit (.printString bs)
  | .readInt => t = (s.drawn (.word64 s.nextWord64)).setReg .ret s.nextWord64
  | .readFloat => t = (s.drawn (.word32 s.nextWord32)).setReg .ret (s.nextWord32.setWidth 64)
  | .readDouble => t = (s.drawn (.word64 s.nextWord64)).setReg .ret s.nextWord64
  | .readChar => t = (s.drawn (.byte s.nextByte)).setReg .ret (s.nextByte.setWidth 64)
  | .readString => s.fits s.arg1.toNat s.readStringBytes.length ∧
      t = State.drawn { s with mem := s.mem.setBytes s.arg1.toNat s.readStringBytes } (.bytes s.nextBytes)
  | .exit => t = { s.emit .exit with flag := withRun s.flag false }
  | .exit2 => t = { s.emit (.exit2 s.arg1) with flag := withRun s.flag false }

/-- What an instruction does when its test passes and it does not fault. -/
def Ran (i : Instr) (s t : State) : Prop :=
  match i with
  | .nop => t = s
  | .load _ d v => t = s.writeDest d (s.operandValue v)
  | .loadu _ d v => t = s.writeDest d (upperHalf (s.reg d) (s.operandValue v))
  | .store _ r a => ∃ x, s.addr a = some x ∧ s.fits x.toNat 4 ∧
      t = { s with mem := s.mem.setBytes x.toNat (bytesOfNat 4 (s.reg r).toNat) }
  | .add _ ty d r v => ∃ x, arithResult addOp ty (s.reg r) (s.operandValue v) = .ok x ∧ t = s.writeDest d x
  | .sub _ ty d r v => ∃ x, arithResult subOp ty (s.reg r) (s.operandValue v) = .ok x ∧ t = s.writeDest d x
  | .mul _ ty d r v => ∃ x, arithResult mulOp ty (s.reg r) (s.operandValue v) = .ok x ∧ t = s.writeDest d x
  | .div _ ty d r v => ∃ x, arithResult divOp ty (s.reg r) (s.operandValue v) = .ok x ∧ t = s.writeDest d x
  | .idiv _ ty d r v => ∃ x, arithResult idivOp ty (s.reg r) (s.operandValue v) = .ok x ∧ t = s.writeDest d x
  | .cmp _ r v => t = { s with flag := withCmp s.flag (compareCode (s.reg r) (s.operandValue v)) }
  | .b _ a => ∃ x, s.addr a = some x ∧ t = { s with ip := x }
  | .not _ d r => t = s.writeDest d (~~~ s.reg r)
  | .and _ d r v => t = s.writeDest d (s.reg r &&& s.operandValue v)
  | .or _ d r v => t = s.writeDest d (s.reg r ||| s.operandValue v)
  | .xor _ d r v => t = s.writeDest d (s.reg r ^^^ s.operandValue v)
  | .shr _ d r v => t = s.writeDest d (shiftRight (s.reg r) (s.operandValue v))
  | .shl _ d r v => t = s.writeDest d (shiftLeft (s.reg r) (s.operandValue v))
  | .push _ v => s.fits s.sp.toNat 4 ∧
      t = { s with mem := s.mem.setBytes s.sp.toNat (bytesOfNat 4 (s.operandValue v).toNat), sp := s.sp + 4 }
  | .call _ v => s.fits s.sp.toNat 80 ∧
      t = { s with
        mem := s.mem.setBytes s.sp.toNat s.frameBytes
        fp := s.sp
        sp := s.sp + 80
        ip := s.operandValue v }
  | .ret _ => ∃ n ws, s.memRead (s.fp - 4) 4 = .ok n ∧ s.readFrame s.fp Config.reference.frame = .ok ws ∧
      t = (s.setRegs ws).setReg .sp (s.fp - 4 - 4 * BitVec.ofNat 64 n)
  | .syscall _ v => ∃ x, serviceOf (s.operandValue v) = some x ∧ Served x s t

variable {s t : State}

/-- What a service can do. -/
theorem performService_cases {x : Service} (h : performService x s = .next t) :
    (∃ r, t = s.faulted r) ∨ Served x s t := by
  cases x with
  | printString =>
    obtain ⟨bs, hb, h⟩ | ⟨r, -, h⟩ := orRaise_cases h
    · exact .inr ⟨bs, hb, by simpa using h.symm⟩
    · exact .inl ⟨r, h⟩
  | readString =>
    obtain ⟨u, hu, h⟩ | ⟨r, -, h⟩ := orRaise_cases h
    · obtain ⟨hf, rfl⟩ := memWriteBytes_ok hu
      exact .inr ⟨hf, by simpa using h.symm⟩
    · exact .inl ⟨r, h⟩
  | _ => right; cases h; rfl

/-- What an instruction of the arithmetic class can do. -/
theorem arith_cases {o : ArithOp} {c : Cond} {ty : DType} {d r : Reg} {v : Operand}
    (h : arith o c ty d r v s = .next t) :
    t = s ∨ (∃ r, t = s.faulted r) ∨
      ∃ x, arithResult o ty (s.reg r) (s.operandValue v) = .ok x ∧ t = s.writeDest d x := by
  obtain ⟨-, h⟩ | ⟨-, h⟩ := conditional_cases h
  · obtain ⟨-, h⟩ | h := withValue_cases h
    · obtain ⟨x, hx, h⟩ | ⟨r, -, h⟩ := orRaise_cases h
      · exact .inr (.inr ⟨x, hx, by simpa using h.symm⟩)
      · exact .inr (.inl ⟨r, h⟩)
    · exact .inr (.inl h)
  · exact .inl h

/-- What an instruction with a `<value>` and no fault of its own can do. -/
theorem valued_cases {c : Cond} {v : Operand} {f : Word → State}
    (h : conditional c s (withValue s v fun x => .next (f x)) = .next t) :
    t = s ∨ (∃ r, t = s.faulted r) ∨ t = f (s.operandValue v) := by
  obtain ⟨-, h⟩ | ⟨-, h⟩ := conditional_cases h
  · obtain ⟨-, h⟩ | h := withValue_cases h
    · exact .inr (.inr (by simpa using h.symm))
    · exact .inr (.inl h)
  · exact .inl h

/-- What any instruction can do: it is skipped, it faults, or it runs. -/
theorem exec_cases {i : Instr} (h : exec i s = .next t) :
    t = s ∨ (∃ r, t = s.faulted r) ∨ Ran i s t := by
  cases i with
  | nop => left; cases h; rfl
  | load c d v => exact valued_cases h
  | loadu c d v => exact valued_cases (f := fun x => s.writeDest d (upperHalf (s.reg d) x)) h
  | store c r a =>
    simp only [exec, execStore, withAddr] at h
    split at h
    next x hx =>
      obtain ⟨-, h⟩ | ⟨-, h⟩ := conditional_cases h
      · obtain ⟨u, hu, h⟩ | ⟨r, -, h⟩ := orRaise_cases h
        · obtain ⟨hf, rfl⟩ := memWrite_ok hu
          exact .inr (.inr ⟨x, hx, hf, by cases h; rfl⟩)
        · exact .inr (.inl ⟨r, h⟩)
      · exact .inl h
    next => exact .inr (.inl ⟨_, by simpa [raise_eq] using h.symm⟩)
  | add c ty d r v => exact arith_cases h
  | sub c ty d r v => exact arith_cases h
  | mul c ty d r v => exact arith_cases h
  | div c ty d r v => exact arith_cases h
  | idiv c ty d r v => exact arith_cases h
  | cmp c r v =>
    exact valued_cases (f := fun y => { s with flag := withCmp s.flag (compareCode (s.reg r) y) }) h
  | b cnd a =>
    simp only [exec, execB, withAddr] at h
    split at h
    next x hx =>
      split at h
      · exact .inr (.inr ⟨x, hx, by simpa using h.symm⟩)
      · exact .inl (by simpa using h.symm)
    next => exact .inr (.inl ⟨_, by simpa [raise_eq] using h.symm⟩)
  | not c d r =>
    obtain ⟨-, h⟩ | ⟨-, h⟩ := conditional_cases h
    · exact .inr (.inr (by cases h; rfl))
    · exact .inl h
  | and c d r v => exact valued_cases (f := fun b => s.writeDest d (s.reg r &&& b)) h
  | or c d r v => exact valued_cases (f := fun b => s.writeDest d (s.reg r ||| b)) h
  | xor c d r v => exact valued_cases (f := fun b => s.writeDest d (s.reg r ^^^ b)) h
  | shr c d r v => exact valued_cases (f := fun b => s.writeDest d (shiftRight (s.reg r) b)) h
  | shl c d r v => exact valued_cases (f := fun b => s.writeDest d (shiftLeft (s.reg r) b)) h
  | push c v =>
    obtain ⟨-, h⟩ | ⟨-, h⟩ := conditional_cases h
    · obtain ⟨-, h⟩ | h := withValue_cases h
      · obtain ⟨u, hu, h⟩ | ⟨r, -, h⟩ := orRaise_cases h
        · obtain ⟨hf, rfl⟩ := memWrite_ok hu
          exact .inr (.inr ⟨hf, by simpa using h.symm⟩)
        · exact .inr (.inl ⟨r, h⟩)
      · exact .inr (.inl h)
    · exact .inl h
  | call c v =>
    obtain ⟨-, h⟩ | ⟨-, h⟩ := conditional_cases h
    · obtain ⟨-, h⟩ | h := withValue_cases h
      · obtain ⟨u, hu, h⟩ | ⟨r, -, h⟩ := orRaise_cases h
        · obtain ⟨hf, rfl⟩ := memWriteBytes_ok hu
          exact .inr (.inr ⟨by simpa using hf, by cases h; rfl⟩)
        · exact .inr (.inl ⟨r, h⟩)
      · exact .inr (.inl h)
    · exact .inl h
  | ret c =>
    obtain ⟨-, h⟩ | ⟨-, h⟩ := conditional_cases h
    · obtain ⟨n, hn, h⟩ | ⟨r, -, h⟩ := orRaise_cases h
      · obtain ⟨ws, hw, h⟩ | ⟨r, -, h⟩ := orRaise_cases h
        · exact .inr (.inr ⟨n, ws, hn, hw, by simpa using h.symm⟩)
        · exact .inr (.inl ⟨r, h⟩)
      · exact .inr (.inl ⟨r, h⟩)
    · exact .inl h
  | syscall c v =>
    obtain ⟨-, h⟩ | ⟨-, h⟩ := conditional_cases h
    · obtain ⟨-, h⟩ | h := withValue_cases h
      · split at h
        next x hx =>
          obtain h | h := performService_cases h
          · exact .inr (.inl h)
          · exact .inr (.inr ⟨x, hx, h⟩)
        next => exact .inr (.inl ⟨_, by simpa [raise_eq] using h.symm⟩)
      · exact .inr (.inl h)
    · exact .inl h

end Sys2Proof.Machine
end

