-- ==== Sys2Proof/Laws/PerInstr.lean ====
section
/-! SUPPORT. A law of the syntax, one lemma for each instruction: its fields hold its opcode, and every
field R93 does not give it is zero (spec/30_encoding.md R93, R103, R105 conditions 1 and 2). -/

namespace Sys2Proof.Laws

/-- The fields of an instruction's word hold its opcode and nothing outside its row of R93's table. -/
def FieldsInLayout.Statement (i : Instr) : Prop :=
  (encodeFields i).opcode = Config.opcode i.op ∧ (encodeFields i).only i.op.usage = encodeFields i

theorem FieldsInLayout.nop :
    FieldsInLayout.Statement (.nop) := ⟨rfl, rfl⟩
theorem FieldsInLayout.load (c : Cond) (d : Reg) (v : Operand) :
    FieldsInLayout.Statement (.load c d v) := ⟨rfl, rfl⟩
theorem FieldsInLayout.loadu (c : Cond) (d : Reg) (v : Operand) :
    FieldsInLayout.Statement (.loadu c d v) := ⟨rfl, rfl⟩
theorem FieldsInLayout.store (c : Cond) (r : Reg) (a : Operand) :
    FieldsInLayout.Statement (.store c r a) := ⟨rfl, rfl⟩
theorem FieldsInLayout.add (c : Cond) (t : DType) (d : Reg) (s : Reg) (v : Operand) :
    FieldsInLayout.Statement (.add c t d s v) := ⟨rfl, rfl⟩
theorem FieldsInLayout.sub (c : Cond) (t : DType) (d : Reg) (s : Reg) (v : Operand) :
    FieldsInLayout.Statement (.sub c t d s v) := ⟨rfl, rfl⟩
theorem FieldsInLayout.mul (c : Cond) (t : DType) (d : Reg) (s : Reg) (v : Operand) :
    FieldsInLayout.Statement (.mul c t d s v) := ⟨rfl, rfl⟩
theorem FieldsInLayout.div (c : Cond) (t : DType) (d : Reg) (s : Reg) (v : Operand) :
    FieldsInLayout.Statement (.div c t d s v) := ⟨rfl, rfl⟩
theorem FieldsInLayout.idiv (c : Cond) (t : DType) (d : Reg) (s : Reg) (v : Operand) :
    FieldsInLayout.Statement (.idiv c t d s v) := ⟨rfl, rfl⟩
theorem FieldsInLayout.cmp (c : Cond) (r : Reg) (v : Operand) :
    FieldsInLayout.Statement (.cmp c r v) := ⟨rfl, rfl⟩
theorem FieldsInLayout.b (cnd : BitVec 3) (a : Operand) :
    FieldsInLayout.Statement (.b cnd a) := ⟨rfl, rfl⟩
theorem FieldsInLayout.not (c : Cond) (d : Reg) (s : Reg) :
    FieldsInLayout.Statement (.not c d s) := ⟨rfl, rfl⟩
theorem FieldsInLayout.and (c : Cond) (d : Reg) (s : Reg) (v : Operand) :
    FieldsInLayout.Statement (.and c d s v) := ⟨rfl, rfl⟩
theorem FieldsInLayout.or (c : Cond) (d : Reg) (s : Reg) (v : Operand) :
    FieldsInLayout.Statement (.or c d s v) := ⟨rfl, rfl⟩
theorem FieldsInLayout.xor (c : Cond) (d : Reg) (s : Reg) (v : Operand) :
    FieldsInLayout.Statement (.xor c d s v) := ⟨rfl, rfl⟩
theorem FieldsInLayout.shr (c : Cond) (d : Reg) (s : Reg) (v : Operand) :
    FieldsInLayout.Statement (.shr c d s v) := ⟨rfl, rfl⟩
theorem FieldsInLayout.shl (c : Cond) (d : Reg) (s : Reg) (v : Operand) :
    FieldsInLayout.Statement (.shl c d s v) := ⟨rfl, rfl⟩
theorem FieldsInLayout.push (c : Cond) (v : Operand) :
    FieldsInLayout.Statement (.push c v) := ⟨rfl, rfl⟩
theorem FieldsInLayout.call (c : Cond) (v : Operand) :
    FieldsInLayout.Statement (.call c v) := ⟨rfl, rfl⟩
theorem FieldsInLayout.ret (c : Cond) :
    FieldsInLayout.Statement (.ret c) := ⟨rfl, rfl⟩
theorem FieldsInLayout.syscall (c : Cond) (v : Operand) :
    FieldsInLayout.Statement (.syscall c v) := ⟨rfl, rfl⟩

end Sys2Proof.Laws
end

