-- ==== Sys2Proof/Laws/Step.lean ====
section
/-! SUPPORT. What a step can do, said once (spec/30_encoding.md R107). -/

namespace Sys2Proof.Machine

/-- The machine of the host's interface is the one under the reference configuration
(spec/00_scope.md R7). -/
theorem execUnder_reference (i : Instr) (s : State) : execUnder Config.reference i s = exec i s := by
  cases i <;> rfl

theorem stepUnder_reference (s : State) : stepUnder Config.reference s = step s := by
  rw [stepUnder, funext₂ execUnder_reference]
  rfl

/-- The word at `$ip`, where it lies in memory. -/
theorem fetch_of_fits {s : State} (h : s.fits s.ip.toNat 8) : s.fetch = .ok (s.wordAt s.ip.toNat) := by
  rw [State.fetch, memRead_of_fits h]
  simp [wordAt_eq, fetchAligned]

theorem fetch_of_not {s : State} (h : ¬ s.fits s.ip.toNat 8) :
    s.fetch = .error (.memoryFault s.ip.toNat 8) := by
  rw [State.fetch, memRead_of_not h]
  rfl

/-- A halted machine's step. -/
theorem step_of_halted {s : State} (h : s.halted) : step s = .next s := by
  simp only [step, cycle, runFlag_eq, h]; rfl

/-- A running machine's step. -/
theorem step_of_running {s : State} (h : s.running) : step s =
    if s.fits s.ip.toNat 8 then
      match decode (s.wordAt s.ip.toNat) with
      | .error _ => .next (s.advance.faulted (.illegalInstruction (s.wordAt s.ip.toNat)))
      | .ok i => exec i s.advance
    else .next (s.faulted (.memoryFault s.ip.toNat 8)) := by
  simp only [step, cycle, runFlag_eq, h, if_true]
  by_cases hf : s.fits s.ip.toNat 8
  · rw [fetch_of_fits hf, if_pos hf]; rfl
  · rw [fetch_of_not hf, if_neg hf]; rfl

/-- The four things a step can be: nothing on a halted machine, a fetch fault, an illegal word, an
instruction. -/
theorem step_cases {s t : State} (h : step s = .next t) :
    (s.halted ∧ t = s) ∨
    (s.running ∧ ¬ s.fits s.ip.toNat 8 ∧ t = s.faulted (.memoryFault s.ip.toNat 8)) ∨
    (s.running ∧ s.fits s.ip.toNat 8 ∧ (∃ e, decode (s.wordAt s.ip.toNat) = .error e) ∧
      t = s.advance.faulted (.illegalInstruction (s.wordAt s.ip.toNat))) ∨
    (s.running ∧ s.fits s.ip.toNat 8 ∧
      ∃ i, decode (s.wordAt s.ip.toNat) = .ok i ∧ exec i s.advance = .next t) := by
  rcases Bool.eq_false_or_eq_true (s.flag.getLsbD 4) with hr | hr
  · rw [step_of_running hr] at h
    split at h
    next hf =>
      split at h
      next e he => exact .inr (.inr (.inl ⟨hr, hf, ⟨e, he⟩, by cases h; rfl⟩))
      next i hi => exact .inr (.inr (.inr ⟨hr, hf, i, hi, h⟩))
    next hf => exact .inr (.inl ⟨hr, hf, by cases h; rfl⟩)
  · rw [step_of_halted hr] at h
    exact .inl ⟨hr, by cases h; rfl⟩

end Sys2Proof.Machine
end

