-- ==== Sys2Proof/Tests/Slice0.lean ====
section
/-! SUPPORT. Tests: well-formedness, one word of every instruction and of every illegal condition, at most
two steps an instruction (spec/95_test_vectors.md, vector names in the comments), and a witness for the
hypotheses of every statement. -/

namespace Sys2Proof.Tests

open Sys2Proof Sys2Proof.Machine

-- One theorem at a time: each kernel evaluation would otherwise hold a thread of its own.
set_option Elab.async false

/-! ## Well-formedness and decoding -/

theorem test_wf_store_refuses_immediate : (Instr.store .always (.r 0) (.imm 0x200)).wf = false := by decide
theorem test_wf_b_refuses_immediate : (Instr.b 1 (.imm 0x200)).wf = false := by decide
theorem test_wf_b_takes_register : (Instr.b 1 (.reg (.r 4))).wf = true := by decide

/-- The instruction a word decodes to, if any. -/
def dec (w : Word) : Option Instr := (decode w).toOption

/-- Why a word is refused, if it is. -/
def why (w : Word) : Option DecodeError :=
  match decode w with
  | .ok _ => none
  | .error e => some e

theorem test_decode_nop : dec 0x0000000000000000 = some .nop := by decide +kernel
theorem test_decode_load : dec 0x3FFFFE00B0008001 = some (.load .always (.r 2) (.regOff .fp (-8))) := by
  decide +kernel
theorem test_decode_loadu : dec 0x37AB6FBBC0006002 = some (.loadu .always (.r 0) (.imm 0xDEADBEEF)) := by
  decide +kernel
theorem test_decode_store : dec 0x0000010070006003 = some (.store .always (.r 0) (.regOff .sp 4)) := by
  decide +kernel
theorem test_decode_add : dec 0x0000000140706004 = some (.add .always .int64 (.r 0) (.r 1) (.imm 5)) := by
  decide +kernel
theorem test_decode_sub : dec 0x00000001E0706805 = some (.sub .always .float (.r 0) (.r 1) (.reg (.r 1))) := by
  decide +kernel
theorem test_decode_mul : dec 0x0000000220706C06 = some (.mul .always .double (.r 0) (.r 1) (.reg (.r 2))) := by
  decide +kernel
theorem test_decode_div : dec 0x0000000080608407 = some (.div .always .int32 (.r 2) (.r 0) (.imm 2)) := by
  decide +kernel
theorem test_decode_idiv : dec 0x0000000080608008 = some (.idiv .always .int64 (.r 2) (.r 0) (.imm 2)) := by
  decide +kernel
theorem test_decode_cmp : dec 0x0000000280006009 = some (.cmp .always (.r 0) (.imm 10)) := by decide +kernel
theorem test_decode_b : dec 0x000000041000010A = some (.b 0b010 (.mem 0x10)) := by decide +kernel
theorem test_decode_not : dec 0x000000000070600B = some (.not .always (.r 0) (.r 1)) := by decide +kernel
theorem test_decode_and : dec 0x0000003FC070600C = some (.and .always (.r 0) (.r 1) (.imm 0xFF)) := by
  decide +kernel
theorem test_decode_or : dec 0x000000022070600D = some (.or .always (.r 0) (.r 1) (.reg (.r 2))) := by
  decide +kernel
theorem test_decode_xor : dec 0x00000001A060600E = some (.xor .always (.r 0) (.r 0) (.reg (.r 0))) := by
  decide +kernel
theorem test_decode_shr : dec 0x000000010070600F = some (.shr .always (.r 0) (.r 1) (.imm 4)) := by
  decide +kernel
theorem test_decode_shl : dec 0x0000000800706010 = some (.shl .always (.r 0) (.r 1) (.imm 32)) := by
  decide +kernel
theorem test_decode_push : dec 0x00000001A0000011 = some (.push .always (.reg (.r 0))) := by decide +kernel
theorem test_decode_call : dec 0x0000004000000012 = some (.call .always (.imm 0x100)) := by decide +kernel
theorem test_decode_ret : dec 0x0000000000000053 = some (.ret ⟨true, 0⟩) := by decide +kernel
theorem test_decode_syscall : dec 0x00000002C00000D4 = some (.syscall ⟨true, 1⟩ (.imm 11)) := by decide +kernel

/-- R105 condition 1 (X2, X3). -/
theorem test_refuse_opcode : why 0x3F = some .unassignedOpcode ∧ why 0x40 = some .unassignedOpcode := by
  decide +kernel
/-- Condition 2: bit 62 (X5), bit 6 of `b` (B8), data type outside the class (G11), value of `ret` (X8). -/
theorem test_refuse_reserved : why 0x4000000040006001 = some .reservedNonzero ∧
    why 0x000000041000014A = some .reservedNonzero ∧ why 0x0000003FC070640C = some .reservedNonzero ∧
    why 0x0000000040000013 = some .reservedNonzero := by decide +kernel
/-- Condition 3 (X4) and condition 4 (X7, and register mode with a stray bit). -/
theorem test_refuse_register : why 0x000000004001E001 = some .badRegister ∧
    why 0x0000003220006001 = some .badRegister ∧ why 0x0000400060006001 = some .reservedNonzero := by
  decide +kernel
/-- Condition 5 (T16). -/
theorem test_refuse_immediate_address : why 0x0000008000006003 = some .immediateAddress := by decide +kernel

/-! ## One step -/

/-- The state an outcome answers. -/
def nextOf (o : Outcome) : Option State :=
  match o with
  | .next s => some s
  | .fault _ => none
  | .refused _ => none

theorem eq_next {o : Outcome} {t : State} (h : nextOf o = some t) : o = .next t := by
  cases o <;> simp_all [nextOf]

/-- A word run as the next instruction, and something read of the state after it. -/
def after {α : Type} (s : State) (w : Nat) (f : State → α) : Option α :=
  (nextOf (step (s.withFetchWord 64 w))).map f

/-- A state with some registers set. -/
def regs (ws : List (Reg × Word)) : State := State.reset.setRegs ws

theorem test_load_register_offset :  -- T4
    after { regs [(.fp, 0x1010)] with mem := State.reset.mem.setBytes 0x1008 [0xEF, 0xBE, 0xAD, 0xDE] }
      0x3FFFFE00B0008001 (·.reg (.r 2)) = some 0xDEADBEEF := by decide +kernel
theorem test_load_flag_halts :  -- T10
    after State.reset 0x0000000000003001 (·.flag) = some 0x8 := by decide +kernel
theorem test_loadu_register :  -- T12
    after (regs [(.r 0, 1), (.r 1, 0x1122334455667788)]) 0x00000001E0006002 (·.reg (.r 0)) =
      some 0x5566778800000001 := by decide +kernel
theorem test_store :  -- T15
    after (regs [(.r 0, 0x1020304), (.sp, 0x1000)]) 0x0000010070006003 (·.mem.bytes 0x1000 9) =
      some [0, 0, 0, 0, 4, 3, 2, 1, 0] := by decide +kernel
theorem test_add_wraps :  -- A2
    after (regs [(.r 1, 0xFFFFFFFFFFFFFFFF)]) 0x0000000040706004 (fun t => (t.reg (.r 0), t.flag)) =
      some (0, 0x18) := by decide +kernel
theorem test_adds_ignores_upper_halves :  -- A3
    after (regs [(.r 1, 0x1FFFFFFFF), (.r 2, 1), (.r 0, 7)]) 0x0000000220706404 (·.reg (.r 0)) = some 0 := by
  decide +kernel
theorem test_subs :  -- A5
    after State.reset 0x0000000040706405 (·.reg (.r 0)) = some 0xFFFFFFFF := by decide +kernel
theorem test_mul :  -- A7
    after (regs [(.r 0, 0x100000000), (.r 1, 0x100000000), (.r 2, 5)]) 0x00000001E0608006
      (fun t => (t.reg (.r 2), t.flag)) = some (0, 0x18) := by decide +kernel
theorem test_div_rounds_toward_zero :  -- A10
    after (regs [(.r 0, 7), (.r 1, 0xFFFFFFFFFFFFFFFE)]) 0x00000001E0608007 (·.reg (.r 2)) =
      some 0xFFFFFFFFFFFFFFFD := by decide +kernel
theorem test_div_by_zero :  -- A12
    after (regs [(.r 0, 7), (.r 2, 5)]) 0x00000001E0608007 (fun t => (t.reg (.r 2), t.flag, t.ip, t.reason)) =
      some (5, 0x20, 8, some .divideByZero) := by decide +kernel
theorem test_idiv :  -- A14
    after (regs [(.r 0, 7)]) 0x0000000080608008 (·.reg (.r 2)) = some 3 := by decide +kernel
theorem test_cmp_is_signed :  -- B2
    after (regs [(.r 0, 0x8000000000000000), (.r 1, 1)]) 0x00000001E0006009 (·.flag) = some 0x12 := by
  decide +kernel
theorem test_cmp_immediate_is_positive :  -- B3
    after (regs [(.r 0, 0xFFFFFFFFFFFFFFFF)]) 0x3FFFFFFFC0006009 (·.flag) = some 0x12 := by decide +kernel
theorem test_b_taken :  -- B7
    after (regs [(.flag, 0x17), (.r 0, 0x100)]) 0x00000401B000038A (·.ip) = some 0x110 := by decide +kernel
theorem test_b_not_taken :  -- B5
    after (regs [(.flag, 0x12)]) 0x000000041000018A (·.ip) = some 8 := by decide +kernel
theorem test_not :  -- G1
    after (regs [(.r 1, 0xFFFF0000)]) 0x000000000070600B (·.reg (.r 0)) = some 0xFFFFFFFF0000FFFF := by
  decide +kernel
theorem test_and :  -- G4
    after (regs [(.r 1, 0xFFFFFFFFFFFFFFFF)]) 0x3FFFFFFFC070600C (·.reg (.r 0)) = some 0xFFFFFFFF := by
  decide +kernel
theorem test_or :  -- G5
    after (regs [(.r 1, 0xF0), (.r 2, 0xF)]) 0x000000022070600D (·.reg (.r 0)) = some 0xFF := by decide +kernel
theorem test_xor :  -- G6
    after (regs [(.r 0, 0x55)]) 0x00000001A060600E (fun t => (t.reg (.r 0), t.flag)) = some (0, 0x18) := by
  decide +kernel
theorem test_shr :  -- G7
    after (regs [(.r 1, 0x8000000000000010)]) 0x000000010070600F (·.reg (.r 0)) = some 0x800000000000001 := by
  decide +kernel
theorem test_shl :  -- R201's example
    after (regs [(.r 1, 0x100000000), (.r 0, 1)]) 0x0000000800706010 (fun t => (t.reg (.r 0), t.flag)) =
      some (0, 0x18) := by decide +kernel
theorem test_push :  -- S5
    after (regs [(.sp, 0x2000)]) 0x0000000060000011 (fun t => (t.sp, t.mem.bytes 0x2000 4)) =
      some (0x2004, [0, 0x20, 0, 0]) := by decide +kernel
theorem test_push_faults :  -- S4
    after (regs [(.sp, 0xFFFE)]) 0x00000001C0000011 (fun t => (t.sp, t.flag)) = some (0xFFFE, 0x20) := by
  decide +kernel
theorem test_call :  -- C2
    after (regs [(.sp, 0x2000), (.r 0, 0x500)]) 0x00000001A0000012
      (fun t => (t.sp, t.fp, t.ip, t.mem.bytes 0x2008 8)) =
      some (0x2050, 0x2000, 0x500, [8, 0, 0, 0, 0, 0, 0, 0]) := by decide +kernel
theorem test_call_faults :  -- C3
    after (regs [(.sp, 0xFFC0), (.fp, 0x77)]) 0x0000004000000012 (fun t => (t.sp, t.fp, t.flag)) =
      some (0xFFC0, 0x77, 0x20) := by decide +kernel
theorem test_ret :  -- R232's example: count 2 at 0x1008, return address 0x30, $s1 = 0x51
    after { regs [(.fp, 0x100C)] with
        mem := ((State.reset.mem.setByte 0x1008 2).setByte 0x1014 0x30).setByte 0x101C 0x51 }
      0x0000000000000013 (fun t => (t.sp, t.ip, t.fp, t.reg (.s 0))) = some (0x1000, 0x30, 0, 0x51) := by
  decide +kernel
theorem test_ret_faults :  -- C5
    after State.reset 0x0000000000000013 (·.reason) = some (some (.memoryFault (2 ^ 64 - 4) 4)) := by
  decide +kernel
theorem test_syscall_read_string :  -- Y10
    (nextOf (execWith (supplied [.bytes [0x48, 0x65, 0x6C, 0x6C, 0x6F]] Config.input) (.syscall .always (.imm 10))
      { regs [(.r 0, 0x300), (.r 1, 3)] with
        mem := State.reset.mem.setBytes 0x300 [0xAA, 0xAA, 0xAA, 0xAA, 0xAA, 0xAA] })).map
      (·.mem.bytes 0x300 6) = some [0x48, 0x65, 0x6C, 0, 0xAA, 0xAA] := by decide +kernel
/-- R251: the second item is the next service's, R260's byte zero-extended. -/
theorem test_syscall_read_char :
    (nextOf (execWith (supplied [.word64 7, .byte 0x41] Config.input) (.syscall .always (.imm 9))
      { regs [(.ret, -1)] with consumed := [.word64 7] })).map (fun t => (t.ret, t.consumed)) =
      some (0x41, [.word64 7, .byte 0x41]) := by decide +kernel
theorem test_syscall_skipped :  -- Y15
    after (regs [(.flag, 0x16)]) 0x00000002C00000D4 (fun t => (t.flag, t.ip)) = some (0x16, 8) := by
  decide +kernel
theorem test_nop :  -- X1
    after (regs [(.flag, 0x16)]) 0 (fun t => (t.flag, t.ip)) = some (0x16, 8) := by decide +kernel

/-! ## Other configurations (spec/00_scope.md R7, spec/92_eei_decisions.md) -/

/-- Another layout: operands and parts of the value field in reverse order, `loadu` and `load` changed
over. -/
def otherLayout : Params :=
  { Config.reference with
    opcode := fun o => Config.opcode (match o with | .load => .loadu | .loadu => .load | o => o)
    fieldLayout := ⟨56, 48, 12, 50⟩
    valueLayout := ⟨32, 0, 24, 0⟩ }

/-- What an instruction under a configuration leaves, and something read of it. -/
def under {α : Type} (p : Params) (i : Instr) (s : State) (f : State → α) : Option α :=
  (nextOf (execUnder p i s)).map f

theorem test_other_layout :
    let i : Instr := .xor ⟨true, 5⟩ (.s 7) (.r 3) (.regOff .fp (-8))
    encode i otherLayout ≠ encode i ∧ (decode (encode i otherLayout) otherLayout).toOption = some i ∧
      (decode 2 otherLayout).toOption = some (.load .always .ip (.imm 0)) := by decide +kernel
/-- D8: `<cnd>` is where `FIELD_LAYOUT` has it, here bits 50 to 52, and nowhere else. -/
theorem test_other_cnd :
    (decode (encode (.b 5 (.mem 0x40)) otherLayout) otherLayout).toOption = some (.b 5 (.mem 0x40)) ∧
      (encode (.b 5 (.mem 0x40)) otherLayout).extractLsb' 50 3 = 5 ∧
      (encode (.b 5 (.mem 0x40)) otherLayout).extractLsb' 6 6 = 0 := by decide +kernel
/-- D18: `load $r, -1` gives all ones under `sign`. -/
theorem test_sign_extension :
    under { Config.reference with value32Extend := .sign } (.load .always (.r 0) (.imm 0xFFFFFFFF))
      State.reset (·.reg (.r 0)) = some 0xFFFFFFFFFFFFFFFF := by decide +kernel
/-- D10: `le` passes after `lt` under `relational`. -/
theorem test_relational :
    under { Config.reference with condMatch := .relational } (.b 3 (.mem 0x40))
      (regs [(.flag, 0x12)]) (·.ip) = some 0x40 := by decide +kernel
/-- D15: the byte at the lowest address holds bits 31 to 24 under `big`. -/
theorem test_big_endian :
    under { Config.reference with byteOrder := .big } (.push .always (.imm 0x11223344))
      State.reset (·.mem.bytes 0 4) = some [0x11, 0x22, 0x33, 0x44] := by decide +kernel
/-- R167: `-7 / 2` is -4 under `floor`. -/
theorem test_floor :
    under { Config.reference with idivRound := .floor } (.div .always .int64 (.r 0) (.r 0) (.imm 2))
      (regs [(.r 0, -7)]) (·.reg (.r 0)) = some (-4) := by decide +kernel
/-- D21: eight bytes under `STORE_BYTES` = 8. -/
theorem test_store_eight :
    under { Config.reference with storeBytes := 8 } (.store .always (.r 0) (.mem 0))
      (regs [(.r 0, 0x1122334455667788)]) (·.mem.bytes 0 8) =
      some [0x88, 0x77, 0x66, 0x55, 0x44, 0x33, 0x22, 0x11] := by decide +kernel

/-- A memory of 16 bytes. -/
def sixteen : Params := { Config.reference with memSize := 16 }

/-- D17: a configuration's `MEM_SIZE` is the memory of its runs, an image and a store held against it. -/
theorem test_mem_size :
    ((State.reset.boot (programImage 0 [.store .always (.r 0) (.mem 13)] sixteen) sixteen).bind fun s =>
      (nextOf (stepUnder sixteen s)).map (·.reason)) = some (some (.memoryFault 13 4)) ∧
    State.reset.boot (programImage 9 [.nop]) sixteen = none := by decide +kernel

/-! ## Witnesses: the hypotheses of each statement hold together somewhere

`witness_<statement>`; clauses at the boundary of their range. -/

/-- A running machine with 4096 bytes of memory, all zero. -/
def small : State := { State.reset with mem := ⟨0x1000, []⟩ }

/-- It with some registers set. -/
def smallWith (ws : List (Reg × Word)) : State := small.setRegs ws

/-- It with an instruction word at the highest address that holds one, and `$ip` there. -/
def atTop (w : Nat) : State := { small with ip := 0xFF8 }.withFetchWord 64 w

/-- The conditional test passes and the operand can be read. -/
abbrev ready (c : Cond) (v : Operand) (s : State) : Prop := condHolds c s ∧ s.readable v

/-- `ready` as it is computed. -/
def isReady (c : Cond) (v : Operand) (s : State) : Bool :=
  condPasses c s.flag &&
    match s.place v with
    | none => true
    | some a => s.mem.inRange a.toNat 4

theorem ready_of {c : Cond} {v : Operand} {s : State} (h : isReady c v s = true) : ready c v s := by
  simp only [isReady, Bool.and_eq_true] at h
  refine ⟨(condPasses_iff _ _).mp h.1, fun a ha => ?_⟩
  rw [Option.mem_def.mp ha] at h
  simpa [Memory.inRange] using h.2

theorem inv_small : Inv small where
  memory := by decide
  fault := by decide
  exited := by decide
  exitLast := by decide
  printed := by intro bs h; cases h
  drawn := by intro bs h; cases h

theorem witness_EncodedInstructionDecodesToItself : (Instr.store .always .zero (.regOff .ip (-1))).wf = true := by
  decide
theorem witness_DecodedWordEncodesBack : 
    decode 0x3FFFFE00B0008001 = .ok (.load .always (.r 2) (.regOff .fp (-8))) := rfl
/-- Conditions 1 (opcode 21, the first unassigned; opcode 0), 2, 3 (register 30, the first bad number), 4, 5. -/
theorem witness_IllegalWordsAreRefusedAndFault :
    (∀ w ∈ [(0x15 : Word), 0x40, 0x4000000040006001, 0x000000004001E001, 0x0000003220006001,
      0x0000400060006001, 0x0000008000006003], IllegalWord w) ∧
    (atTop 0x15).running ∧ (atTop 0x15).fits (atTop 0x15).ip.toNat 8 ∧
    (atTop 0x15).wordAt (atTop 0x15).ip.toNat = 0x15 := by
  refine ⟨fun w h => ?_, by decide +kernel⟩
  fin_cases h <;> simp [IllegalWord, badValueField, badRegNumber]
theorem witness_ZeroWordAloneIsNop : (0x40 : Word).extractLsb' 0 6 = 0 ∧ (0x40 : Word) ≠ 0 := by decide
theorem witness_StepRunsTheDecodedInstruction : (atTop 0x13).running ∧
    (atTop 0x13).fits (atTop 0x13).ip.toNat 8 ∧
    dec ((atTop 0x13).wordAt (atTop 0x13).ip.toNat) = some (.ret .always) := by decide +kernel
theorem witness_FetchOutsideMemoryFaults : (smallWith [(.ip, 0xFF9)]).running ∧
    ¬ (smallWith [(.ip, 0xFF9)]).fits (smallWith [(.ip, 0xFF9)]).ip.toNat 8 := by decide
theorem witness_HaltedMachineNeverChanges : (smallWith [(.flag, 0xF)]).halted := by decide
/-- The highest address that holds an instruction; two words that end memory. -/
theorem witness_StoredInstructionsAreFetched : ((smallWith [(.ip, 0xFF8)]).running ∧
    (smallWith [(.ip, 0xFF8)]).fits (smallWith [(.ip, 0xFF8)]).ip.toNat 8 ∧
    (Instr.b 0 (.reg .zero)).wf = true) ∧
    small.mem.size ≤ 2 ^ 64 ∧ State.fits { small with ip := 0xFF0 } 0xFF0 (8 * [Instr.nop, .nop].length) ∧
    ∀ j i u, [Instr.nop, .nop][j]? = some i → execSeq ([.nop, .nop].take j) { small with ip := 0xFF0 } = .next u →
      decode (u.wordAt (0xFF0 + 8 * j)) = .ok i := by
  refine ⟨by decide, by decide, by decide, fun j i u hi hu => ?_⟩
  match j with
  | 0 => cases hi; cases hu; rfl
  | 1 => cases hi; cases hu; rfl
  | j + 2 => cases hi
theorem witness_StepKeepsTheInvariant : Inv small ∧ step small = .next small.advance :=
  ⟨inv_small, eq_next (by decide +kernel)⟩
theorem witness_ResetMeetsTheInvariant : small.mem.wf = true ∧ sixteen.memSize < 2 ^ 64 := by decide
/-- Reset into a smaller memory keeps the byte at its top, whatever the other registers hold. -/
theorem witness_ResetLeavesTheFixedRows :
    let t := State.resetFrom { smallWith [(.sp, 7), (.flag, 0x2F)] with mem := ⟨0x1000, [(15, 3), (16, 4)]⟩ } sixteen
    t.mem = ⟨16, [(15, 3)]⟩ ∧ t.flag = 0x1F ∧ t.sp = 7 := by decide
/-- Both clauses: a fetch fault one byte past the top, an illegal word at the top. -/
theorem witness_FaultsArePrecise :
    (step (smallWith [(.ip, 0xFF9)]) = .next ((smallWith [(.ip, 0xFF9)]).faulted (.memoryFault 0xFF9 8)) ∧
      (smallWith [(.ip, 0xFF9)]).reason = none) ∧
    step (atTop 0x15) = .next ((atTop 0x15).advance.faulted (.illegalInstruction 0x15)) ∧
      (atTop 0x15).reason = none :=
  ⟨⟨eq_next (by decide +kernel), by decide⟩, eq_next (by decide +kernel), by decide +kernel⟩
theorem witness_FlagBitsChangeOnlyAsTheirRulesSay :
    exec (.cmp .always .zero (.imm 0)) small = .next { small with flag := 0x11 } ∧
    destOf (.cmp .always .zero (.imm 0)) ≠ some .flag ∧
    exec (.load .always .sp (.imm 0)) small = .next { small with flag := 0x18 } ∧
    destOf (.load .always .sp (.imm 0)) ≠ some .flag :=
  ⟨eq_next (by decide +kernel), by decide, eq_next (by decide +kernel), by decide⟩
theorem witness_RunIsClearedOnlyByExitFaultOrFlagWrite :
    exec (.syscall .always (.imm 11)) small = .next { small with flag := 0, events := [.exit] } ∧
    small.running ∧ State.halted { small with flag := 0, events := [.exit] } :=
  ⟨eq_next (by decide +kernel), by decide, by decide⟩
theorem witness_RegistersChangeOnlyAsNamed :
    exec (.push .always (.imm 0)) small = .next { small with sp := 4 } ∧
    Reg.ret ∉ writesOf (.push .always (.imm 0)) ∧ Reg.ret ≠ .flag :=
  ⟨eq_next (by decide +kernel), by decide, by decide⟩
/-- The run from reset of a memory of 16 bytes: two `nop`s, then the fetch at 16 faults. -/
theorem witness_MemoryChangesOnlyByStoringInstructions :
    exec (.ret ⟨true, 1⟩) small = .next small ∧
    stepUnder sixteen (small.resetFrom sixteen) = .next (small.resetFrom sixteen).advance ∧
    Host.Core.run (machineUnder sixteen small) 3 (small.resetFrom sixteen) =
      .next ((small.resetFrom sixteen).advance.advance.faulted (.memoryFault 16 8)) :=
  ⟨eq_next (by decide +kernel), eq_next (by decide +kernel), eq_next (by decide +kernel)⟩
theorem witness_HostRecordChangesOnlyBySyscall :
    exec (.b 0 (.mem 8)) small = .next { small with ip := 8 } := eq_next (by decide +kernel)
theorem witness_HostRecordCannotBeRead : ([] : List InputItem).length = small.consumed.length ∧ step small = .next small.advance :=
  ⟨rfl, eq_next (by decide +kernel)⟩
theorem witness_FailedTestSkipsTheInstruction : (Instr.call ⟨true, 1⟩ (.imm 0)).wf = true ∧
    condOf (.call ⟨true, 1⟩ (.imm 0)) = some ⟨true, 1⟩ ∧ ¬ condHolds ⟨true, 1⟩ small := by decide
/-- Equal, less, greater. -/
theorem witness_AfterCmpOnlyEqLtGtPass : ready ⟨true, 0⟩ (.mem 0xFFC) small ∧
    (small.reg .sp).toInt = (small.operandValue (.mem 0xFFC)).toInt ∧
    ((smallWith [(.sp, -1)]).reg .sp).toInt < ((smallWith [(.sp, -1)]).operandValue (.imm 0)).toInt ∧
    ((smallWith [(.sp, 1)]).operandValue (.imm 0)).toInt < ((smallWith [(.sp, 1)]).reg .sp).toInt :=
  ⟨ready_of (by decide +kernel), by decide +kernel⟩
theorem witness_AddressOfEachMode : (∀ r, Operand.mem 0xFFC ≠ .reg r) ∧ small.addr (.mem 0xFFC) = some 0xFFC ∧
    small.fits (0xFFC : Word).toNat 4 ∧ small.addr (.reg .sp) = some 0 := ⟨by simp, by decide, by decide, by decide⟩
theorem witness_UnreadableOperandFaults : valueOf (.push .always (.mem 0xFFD)) = some (.mem 0xFFD) ∧
    condOf (.push .always (.mem 0xFFD)) = some .always ∧ condHolds .always small ∧
    small.place (.mem 0xFFD) = some 0xFFD ∧ ¬ small.fits (0xFFD : Word).toNat 4 := by decide
theorem witness_ZeroRegisterIsHardwired : ready .always (.imm 5) small := ready_of (by decide)
/-- A load, and a division of `$flag` by 1. -/
theorem witness_WritingFlagTakesEffectNext : ready .always (.imm 0xF) small ∧
    destOf (.load .always .flag (.imm 0xF)) = some .flag ∧
    condOf (.load .always .flag (.imm 0xF)) = some .always ∧
    resultOf (.load .always .flag (.imm 0xF)) small = some 0xF ∧ (0xF : Word).getLsbD 4 = false ∧
    resultOf (.div .always .int64 .flag .flag (.imm 1)) small = some 0x10 :=
  ⟨ready_of (by decide), by decide⟩
/-- The last address in range, the first out of range. -/
theorem witness_RangeCheckDoesNotWrap : (0xFFC : Word).toNat + 4 ≤ small.mem.size ∧
    ¬ (0xFFD : Word).toNat + 4 ≤ small.mem.size ∧ small.mem.size < 2 ^ 64 := by decide
theorem witness_MixedWidthsAgree : small.mem.size ≤ 2 ^ 64 ∧ ∃ t, small.memWrite 0xFF8 8 1 = .ok t :=
  ⟨by decide, _, memWrite_of_fits (by decide)⟩
theorem witness_EqualReadsMeanEqualMemories : ∃ m n : Memory, m.wf = true ∧ n.wf = true ∧ m.size = n.size ∧
    ∀ a, m.byte a = n.byte a := ⟨small.mem, small.mem, by decide, by decide, rfl, fun _ => rfl⟩
theorem witness_LoadWritesItsOperand : ready .always (.mem 0xFFC) small := ready_of (by decide)
theorem witness_LoaduReplacesTheUpperHalf : ready .always (.regOff .zero 0xFFC) small := ready_of (by decide)
/-- In range at the top, out of range one byte above. -/
theorem witness_StoreWritesFourBytes : condHolds .always small ∧ small.addr (.mem 0xFFC) = some 0xFFC ∧
    small.fits (0xFFC : Word).toNat 4 ∧ small.addr (.mem 0xFFD) = some 0xFFD ∧
    ¬ small.fits (0xFFD : Word).toNat 4 := by decide
theorem witness_AddSubMulWrap : ready .always (.imm 0xFFFFFFFF) small := ready_of (by decide)
/-- Both widths, with a divisor of 1 and one of -1. -/
theorem witness_DivisionRoundsTowardZero : ready .always (.imm 0xFFFFFFFF) small ∧
    small.operandValue (.imm 1) ≠ 0 ∧ ¬ small.operandValue (.imm 1) = -1 ∧
    (small.operandValue (.imm 0xFFFFFFFF)).extractLsb' 0 32 ≠ 0 ∧
    ¬ ((small.reg .sp).extractLsb' 0 32 = BitVec.intMin 32 ∧
      (small.operandValue (.imm 0xFFFFFFFF)).extractLsb' 0 32 = -1) :=
  ⟨ready_of (by decide), by decide⟩
/-- Zero and not zero in each width, and the overflow in each width. -/
theorem witness_DivideByZeroIsRaisedOnIntegersOnly : ready .always (.reg .fp) small ∧
    small.operandValue (.reg .fp) = 0 ∧ small.operandValue (.imm 1) ≠ 0 ∧
    ((smallWith [(.fp, 0x100000000)]).operandValue (.reg .fp)).extractLsb' 0 32 = 0 ∧
    ((smallWith [(.fp, 0x100000001)]).operandValue (.reg .fp)).extractLsb' 0 32 ≠ 0 ∧
    (smallWith [(.sp, 0x8000000000000000), (.fp, -1)]).reg .sp = BitVec.intMin 64 ∧
    (smallWith [(.sp, 0x8000000000000000), (.fp, -1)]).operandValue (.reg .fp) = -1 ∧
    ((smallWith [(.sp, 0x80000000), (.fp, -1)]).reg .sp).extractLsb' 0 32 = BitVec.intMin 32 ∧
    ((smallWith [(.sp, 0x80000000), (.fp, -1)]).operandValue (.reg .fp)).extractLsb' 0 32 = -1 :=
  ⟨ready_of (by decide), by decide⟩
theorem witness_FloatResultsAreThoseOfNum : ready .always (.imm 0x3F800000) small := ready_of (by decide)
theorem witness_CmpWritesTheCode : ready .always (.mem 0xFFC) small ∧
    (small.reg .sp).toInt = (small.operandValue (.mem 0xFFC)).toInt ∧
    ((smallWith [(.sp, -1)]).reg .sp).toInt < ((smallWith [(.sp, -1)]).operandValue (.imm 0)).toInt ∧
    ((smallWith [(.sp, 1)]).operandValue (.imm 0)).toInt < ((smallWith [(.sp, 1)]).reg .sp).toInt :=
  ⟨ready_of (by decide +kernel), by decide +kernel⟩
theorem witness_BranchIsTakenExactlyOnAMatch : small.addr (.reg .sp) = some 0 ∧
    (0 : BitVec 3) = small.flag.extractLsb' 0 3 ∧ (1 : BitVec 3) ≠ small.flag.extractLsb' 0 3 := by decide
theorem witness_LogicalInstructionsWorkBitByBit : ready .always (.imm 0xFF) small := ready_of (by decide)
/-- Amounts 0, 63 and 64. -/
theorem witness_ShiftsMoveBitsAndFillWithZeros : ready .always (.imm 0) small ∧ ready .always (.imm 63) small ∧
    ready .always (.imm 64) small :=
  ⟨ready_of (by decide), ready_of (by decide), ready_of (by decide)⟩
theorem witness_PushStoresAtTheOldSp : ready .always (.reg .sp) (smallWith [(.sp, 0xFFC)]) ∧
    (smallWith [(.sp, 0xFFC)]).fits (smallWith [(.sp, 0xFFC)]).sp.toNat 4 ∧
    ¬ (smallWith [(.sp, 0xFFD)]).fits (smallWith [(.sp, 0xFFD)]).sp.toNat 4 :=
  ⟨ready_of (by decide), by decide⟩
theorem witness_CallPushesTheFrame : ready .always (.imm 0x100) (smallWith [(.sp, 0xFB0)]) ∧
    (smallWith [(.sp, 0xFB0)]).fits (smallWith [(.sp, 0xFB0)]).sp.toNat 80 ∧
    ¬ (smallWith [(.sp, 0xFB1)]).fits (smallWith [(.sp, 0xFB1)]).sp.toNat 80 :=
  ⟨ready_of (by decide), by decide⟩
theorem witness_RetRestoresFromTheFrame : condHolds .always (smallWith [(.fp, 0xFB0)]) ∧
    (smallWith [(.fp, 0xFB0)]).mem.size ≤ 2 ^ 64 ∧
    (smallWith [(.fp, 0xFB0)]).fits ((smallWith [(.fp, 0xFB0)]).fp - 4).toNat 4 ∧
    (smallWith [(.fp, 0xFB0)]).fits (smallWith [(.fp, 0xFB0)]).fp.toNat 80 := by decide
/-- The count outside memory (`$fp` 0); the last saved register one byte outside. -/
theorem witness_RetFaultsOutsideMemory : condHolds .always small ∧ small.mem.size < 2 ^ 64 ∧
    ¬ small.fits (small.fp - 4).toNat 4 ∧
    (smallWith [(.fp, 0xFB1)]).fits ((smallWith [(.fp, 0xFB1)]).fp - 4).toNat 4 ∧
    ¬ (smallWith [(.fp, 0xFB1)]).fits (smallWith [(.fp, 0xFB1)]).fp.toNat 80 := by decide
/-- A function that returns at once: the state after `call` is the one `ret` meets. -/
theorem witness_RetUndoesCall : ∃ s t : State, exec (.call .always (.imm 0x100)) s = .next t ∧
    ready .always (.imm 0x100) s ∧ s.mem.size ≤ 2 ^ 64 ∧ 4 ≤ s.sp.toNat ∧
    s.fits s.sp.toNat 80 ∧ condHolds .always t :=
  ⟨smallWith [(.sp, 0x10)],
    { smallWith [(.sp, 0x10)] with
      mem := small.mem.setBytes 0x10 small.frameBytes, fp := 0x10, sp := 0x60, ip := 0x100 },
    eq_next (by decide +kernel), ready_of (by decide), by decide, by decide, by decide, by decide⟩
theorem witness_OutputServicesAppendTheirEvent : ready .always (.imm 1) small ∧
    small.operandValue (.imm 1) = 1 ∧ small.operandValue (.imm 2) = 2 ∧ small.operandValue (.imm 3) = 3 ∧
    small.operandValue (.imm 4) = 4 :=
  ⟨ready_of (by decide), by decide⟩
/-- An empty string whose zero byte is the last byte of memory; a memory of one byte, not zero; an address
above memory. -/
theorem witness_PrintStringStopsAtTheFirstZero : ready .always (.imm 5) (smallWith [(.r 0, 0xFFF)]) ∧
    small.operandValue (.imm 5) = 5 ∧ ((smallWith [(.r 0, 0xFFF)]).reg (.r 0)).toNat = 0xFFF ∧
    small.fits 0xFFF (0 + 1) ∧ small.byteAt 0xFFF = 0 ∧
    (∀ k < 1, State.byteAt { small with mem := ⟨1, [(0, 7)]⟩ } k ≠ 0) ∧
    ∀ k, 0x1000 ≤ k → k < small.mem.size → small.byteAt k ≠ 0 :=
  ⟨ready_of (by decide), by decide, by decide, by decide, by decide, by decide,
    fun _ h1 h2 => absurd h2 (Nat.not_lt.mpr h1)⟩
theorem witness_InputServicesWriteRet : ready .always (.imm 6) small ∧
    ready .always (.imm 7) small ∧
    ready .always (.imm 8) small ∧
    ready .always (.imm 9) small ∧
    small.operandValue (.imm 6) = 6 ∧ small.operandValue (.imm 7) = 7 ∧ small.operandValue (.imm 8) = 8 ∧
    small.operandValue (.imm 9) = 9 :=
  ⟨ready_of (by decide), ready_of (by decide), ready_of (by decide), ready_of (by decide), by decide⟩
/-- One byte of the item and the zero byte end memory; one address higher they do not fit. -/
theorem witness_ReadStringStoresTheTruncatedItem :
    ready .always (.imm 10) (smallWith [(.r 0, 0xFFE), (.r 1, 1)]) ∧
    small.operandValue (.imm 10) = 10 ∧
    (supplied [.bytes [1, 2]] Config.input).bytes small.consumed.length = [1, 2] ∧ (0 : Byte) ∉ [1, 2] ∧
    small.fits 0xFFE (min [1, 2].length (1 : Word).toNat + 1) ∧
    ¬ small.fits 0xFFF (min [1, 2].length (1 : Word).toNat + 1) :=
  ⟨ready_of (by decide), by decide⟩
theorem witness_ExitServicesHalt : ready .always (.imm 11) small ∧ small.operandValue (.imm 11) = 11 ∧
    small.operandValue (.imm 12) = 12 :=
  ⟨ready_of (by decide), by decide⟩
/-- 0 and 13 fault, 1 and 12 do not. -/
theorem witness_UnknownServiceFaults : ready .always (.imm 0) small ∧
    (small.operandValue (.imm 0)).toNat = 0 ∧ 12 < (small.operandValue (.imm 13)).toNat ∧
    1 ≤ (small.operandValue (.imm 1)).toNat ∧ (small.operandValue (.imm 12)).toNat ≤ 12 ∧
    small.reason = none :=
  ⟨ready_of (by decide), by decide⟩
theorem witness_LoadlLoadsAConstant : small.running ∧ Reg.r 0 ≠ .ip ∧ Reg.r 0 ≠ .flag ∧
    (Pseudo.loadl (.r 0) (.const (-1))).expand =
      some [.load .always (.r 0) (.imm 0xFFFFFFFF), .loadu .always (.r 0) (.imm 0xFFFFFFFF)] := by decide
theorem witness_ZeroClearsTheRegister : small.running ∧
    (Pseudo.zero .ip).expand = some [.xor .always .ip .ip (.reg .ip)] := by decide
/-- All three modes; offsets 0 and -1, where `add` gives way to `sub`. -/
theorem witness_JmpGoesToTheAddress : small.running ∧
    State.addr { small with ip := 8 } (.regOff .ip (-1)) = some 7 ∧
    (Pseudo.jmp (.mem 7)).expand = some [.load .always .ip (.imm 7)] ∧
    (Pseudo.jmp (.reg .sp)).expand = some [.load .always .ip (.reg .sp)] ∧
    (Pseudo.jmp (.regOff .ip 0)).expand = some [.add .always .int64 .ip .ip (.imm 0)] ∧
    (Pseudo.jmp (.regOff .ip (-1))).expand = some [.sub .always .int64 .ip .ip (.imm 1)] := by decide
theorem witness_PoplUndoesPushl : small.running ∧ small.mem.size ≤ 2 ^ 64 ∧
    (smallWith [(.sp, 0xFF8)]).fits (smallWith [(.sp, 0xFF8)]).sp.toNat 8 ∧
    (Pseudo.pushl (.const 1)).expand = some [.push .always (.imm 1), .push .always (.imm 0)] ∧
    (Pseudo.popl (some (.s 7))).expand = some [dropStack 8, .load .always (.s 7) (.regOff .sp 0),
      .loadu .always (.s 7) (.regOff .sp 4)] := by decide
theorem witness_StargsPushesArgumentsAndCount : small.running ∧ small.mem.size ≤ 2 ^ 64 ∧
    (smallWith [(.sp, 0xFF8)]).fits (smallWith [(.sp, 0xFF8)]).sp.toNat (4 * ([5].length + 1)) ∧
    (Pseudo.stargs ([5].map .imm)).expand = some [.push .always (.imm 5), .push .always (.imm 1)] := by decide
theorem witness_LdargReadsTheArgument : small.running ∧
    (Pseudo.ldarg (.r 0) 2 0).expand = some [.load .always (.r 0) (.regOff .fp (-12))] ∧
    (smallWith [(.fp, 0x10)]).fits ((smallWith [(.fp, 0x10)]).fp - 12).toNat 4 := by decide

end Sys2Proof.Tests
end

section
/-! PROOFS. Statements about the state (spec/10_state.md): what an instruction writes, by its shape. -/

namespace Sys2Proof.Machine

variable {i : Instr} {s t : State}

/-! ## Instructions with a destination -/

/-- An instruction with a destination writes it and no other register but `$flag`. -/
theorem writesOf_of_destOf {d : Reg} (hd : destOf i = some d) : writesOf i = [d] := by
  cases i with
  | nop | store | cmp | b | push | call | ret | syscall => cases hd
  | _ => cases hd; rfl

/-- What an instruction with a destination does when it runs: it writes its result there. -/
theorem ran_of_destOf {d : Reg} (hd : destOf i = some d) (h : Ran i s t) :
    ∃ x, resultOf i s = some x ∧ t = s.writeDest d x := by
  cases i with
  | load | loadu | not | and | or | xor | shr | shl => cases hd; exact ⟨_, rfl, h⟩
  | add | sub | mul | div | idiv =>
    cases hd
    obtain ⟨x, hx, ht⟩ := h
    exact ⟨x, congrArg Except.toOption hx, ht⟩
  | _ => cases hd

/-- The operation of the arithmetic class where it has a result. -/
theorem arith_of_result {o : ArithOp} {c : Cond} {ty : DType} {d r : Reg} {v : Operand} {x : Word}
    (hc : condHolds c s) (hv : s.readable v)
    (hx : (arithResult o ty (s.reg r) (s.operandValue v)).toOption = some x) :
    arith o c ty d r v s = .next (s.writeDest d x) := by
  have hok : arithResult o ty (s.reg r) (s.operandValue v) = .ok x := by
    cases h : arithResult o ty (s.reg r) (s.operandValue v) <;> simp_all [Except.toOption]
  rw [arith, conditional_of_holds hc, withValue_of_readable hv, hok, orRaise_ok]

/-- An instruction with a `<value>` and no fault of its own, where its test passes and the value can be read. -/
theorem valued_of_readable {c : Cond} {v : Operand} (hc : condHolds c s) (hv : s.readable v)
    (f : Word → State) :
    conditional c s (withValue s v fun x => .next (f x)) = .next (f (s.operandValue v)) := by
  rw [conditional_of_holds hc, withValue_of_readable hv]

/-- An instruction with a destination, where its test passes, its operand can be read and it has a result. -/
theorem exec_of_resultOf {c : Cond} {d : Reg} {x : Word} (hd : destOf i = some d) (hi : condOf i = some c)
    (hc : condHolds c s) (hv : ∀ v ∈ valueOf i, s.readable v) (hx : resultOf i s = some x) :
    exec i s = .next (s.writeDest d x) := by
  cases i with
  | load c d v | loadu c d v | and c d r v | or c d r v | xor c d r v | shr c d r v | shl c d r v =>
    cases hd; cases hi; cases hx
    exact valued_of_readable hc (hv v rfl) _
  | add c ty d r v | sub c ty d r v | mul c ty d r v | div c ty d r v | idiv c ty d r v =>
    cases hd; cases hi
    exact arith_of_result hc (hv v rfl) hx
  | not c d r =>
    cases hd; cases hi; cases hx
    exact conditional_of_holds hc _
  | _ => cases hd

/-- What any instruction can do, by its shape: nothing, a fault, the write of its destination, or what
`Ran` says of one that has none. -/
theorem exec_effect_cases (h : exec i s = .next t) :
    t = s ∨ (∃ r, Faulted s t r) ∨ (∃ d x, destOf i = some d ∧ WroteDest s t d x) ∨
      (destOf i = none ∧ Ran i s t) := by
  obtain rfl | ⟨r, rfl⟩ | hran := exec_cases h
  · exact .inl rfl
  · exact .inr (.inl ⟨r, faulted_spec s r⟩)
  · cases hd : destOf i with
    | none => exact .inr (.inr (.inr ⟨rfl, hran⟩))
    | some d =>
      obtain ⟨x, -, rfl⟩ := ran_of_destOf hd hran
      exact .inr (.inr (.inl ⟨d, x, rfl, writeDest_spec s d x⟩))

/-! ## Services -/

/-- The exit services are numbers 11 and 12 (spec/46_syscall.md R262, R263). -/
theorem eq_of_serviceOf_exit {k : Word} (h : serviceOf k = some .exit) : k = 11 := by
  unfold serviceOf at h
  split at h <;> cases h
  next hk => exact BitVec.eq_of_toNat_eq hk

theorem eq_of_serviceOf_exit2 {k : Word} (h : serviceOf k = some .exit2) : k = 12 := by
  unfold serviceOf at h
  split at h <;> cases h
  next hk => exact BitVec.eq_of_toNat_eq hk

/-- A service keeps `$flag`, but that the exit services clear `RUN` (spec/46_syscall.md R250, R262, R263). -/
theorem served_flag {x : Service} (h : Served x s t) :
    t.flag = s.flag ∨ ((x = .exit ∨ x = .exit2) ∧ t.flag = withRun s.flag false) := by
  cases x with
  | printString => obtain ⟨bs, -, rfl⟩ := h; exact .inl rfl
  | readString => obtain ⟨-, rfl⟩ := h; exact .inl rfl
  | exit | exit2 => cases h; exact .inr ⟨by simp, rfl⟩
  | _ => cases h; exact .inl rfl

/-- A service writes no register but `$ret` and `$flag` (spec/46_syscall.md R250). -/
theorem served_reg {x : Service} {r : Reg} (h : Served x s t) (hr : r ≠ .ret) (hf : r ≠ .flag) :
    t.reg r = s.reg r := by
  cases x with
  | printString => obtain ⟨bs, -, rfl⟩ := h; exact reg_emit s _ r
  | readString => obtain ⟨-, rfl⟩ := h; rw [reg_drawn, reg_with_mem]
  | readInt | readFloat | readDouble | readChar => cases h; rw [reg_setReg_of_ne _ _ _ hr, reg_drawn]
  | exit | exit2 => cases h; rw [reg_with_flag, if_neg hf, reg_emit]
  | _ => cases h; exact reg_emit s _ r

/-- A service that does not fault keeps the fault reason. -/
theorem served_reason {x : Service} (h : Served x s t) : t.reason = s.reason := by
  cases x with
  | printString => obtain ⟨bs, -, rfl⟩ := h; rfl
  | readString => obtain ⟨-, rfl⟩ := h; rfl
  | _ => cases h; rfl

/-! ## Instructions without a destination -/

/-- The registers after `push`'s two updates (spec/44_stack.md R216). -/
theorem reg_with_mem_sp (s : State) (m : Memory) (x : Word) (r : Reg) :
    State.reg { s with mem := m, sp := x } r = if r = .sp then x else s.reg r := by cases r <;> rfl

/-- The registers after `call`'s four updates (spec/45_functions.md R231). -/
theorem reg_with_call (s : State) (m : Memory) (f p a : Word) (r : Reg) :
    State.reg { s with mem := m, fp := f, sp := p, ip := a } r =
      if r = .ip then a else if r = .sp then p else if r = .fp then f else s.reg r := by cases r <;> rfl

/-- `ret` keeps every register that is neither `$sp` nor in the frame (spec/45_functions.md R232). -/
theorem ran_ret_reg {c : Cond} {r : Reg} (h : Ran (.ret c) s t) (hr : r ∉ writesOf (.ret c)) :
    t.reg r = s.reg r := by
  obtain ⟨n, ws, -, hws, rfl⟩ := h
  have hnames : ws.map Prod.fst = [.fp, .ip, .s 0, .s 1, .s 2, .s 3, .s 4, .s 5, .s 6, .s 7] :=
    (readFrame_names hws).trans frame_regs
  have hsp : r ≠ .sp := by rintro rfl; exact hr (by simp [writesOf])
  have hframe : r ∉ ws.map Prod.fst := by
    rw [hnames]
    simp only [writesOf, List.mem_cons] at hr ⊢
    tauto
  rw [reg_setReg_of_ne _ _ _ hsp, reg_setRegs_of_notMem _ _ hframe]

/-- `$flag` after an instruction without a destination: kept, but that `cmp` writes `CMP` and the exit
services clear `RUN` (spec/10_state.md R30, R33). -/
theorem ran_flag_of_no_dest (hd : destOf i = none) (h : Ran i s t) :
    t.flag = s.flag ∨
    (∃ c r v, i = .cmp c r v ∧ t.flag = withCmp s.flag (compareCode (s.reg r) (s.operandValue v))) ∨
    (∃ c v, i = .syscall c v ∧ (s.operandValue v = 11 ∨ s.operandValue v = 12) ∧
      t.flag = withRun s.flag false) := by
  cases i with
  | nop => cases h; exact .inl rfl
  | store => obtain ⟨x, -, -, rfl⟩ := h; exact .inl rfl
  | cmp c r v => cases h; exact .inr (.inl ⟨c, r, v, rfl, rfl⟩)
  | b => obtain ⟨x, -, rfl⟩ := h; exact .inl rfl
  | push | call => obtain ⟨-, rfl⟩ := h; exact .inl rfl
  | ret c => exact .inl (ran_ret_reg (r := .flag) h (by simp [writesOf]))
  | syscall c v =>
    obtain ⟨x, hx, hserved⟩ := h
    obtain hf | ⟨rfl | rfl, hf⟩ := served_flag hserved
    · exact .inl hf
    · exact .inr (.inr ⟨c, v, rfl, .inl (eq_of_serviceOf_exit hx), hf⟩)
    · exact .inr (.inr ⟨c, v, rfl, .inr (eq_of_serviceOf_exit2 hx), hf⟩)
  | _ => cases hd

/-- An instruction without a destination writes the registers its rule names, and `$flag`. -/
theorem ran_reg_of_no_dest {r : Reg} (hd : destOf i = none) (h : Ran i s t) (hr : r ∉ writesOf i)
    (hf : r ≠ .flag) : t.reg r = s.reg r := by
  cases i with
  | nop => cases h; rfl
  | store => obtain ⟨x, -, -, rfl⟩ := h; exact reg_with_mem s _ r
  | cmp => cases h; rw [reg_with_flag, if_neg hf]
  | b => obtain ⟨x, -, rfl⟩ := h; rw [reg_with_ip, if_neg (by simpa [writesOf] using hr)]
  | push =>
    obtain ⟨-, rfl⟩ := h
    rw [reg_with_mem_sp, if_neg (by simpa [writesOf] using hr)]
  | call =>
    obtain ⟨-, rfl⟩ := h
    simp only [writesOf, List.mem_cons, List.not_mem_nil, or_false, not_or] at hr
    obtain ⟨hip, hsp, hfp⟩ := hr
    rw [reg_with_call, if_neg hip, if_neg hsp, if_neg hfp]
  | ret c => exact ran_ret_reg h hr
  | syscall =>
    obtain ⟨x, -, hserved⟩ := h
    exact served_reg hserved (by simpa [writesOf] using hr) hf
  | _ => cases hd

/-- An instruction without a destination that is no `syscall` keeps the host record. -/
theorem ran_host_of_no_dest (hd : destOf i = none) (h : Ran i s t) (hs : ∀ c v, i ≠ .syscall c v) :
    SameHost s t := by
  cases i with
  | nop | cmp => cases h; exact ⟨rfl, rfl, rfl⟩
  | store => obtain ⟨x, -, -, rfl⟩ := h; exact ⟨rfl, rfl, rfl⟩
  | b => obtain ⟨x, -, rfl⟩ := h; exact ⟨rfl, rfl, rfl⟩
  | push | call => obtain ⟨-, rfl⟩ := h; exact ⟨rfl, rfl, rfl⟩
  | ret =>
    obtain ⟨n, ws, -, -, rfl⟩ := h
    exact ⟨by simp, by simp, by simp⟩
  | syscall c v => exact absurd rfl (hs c v)
  | _ => cases hd

/-- An instruction without a destination that does not fault keeps the fault reason. -/
theorem ran_reason_of_no_dest (hd : destOf i = none) (h : Ran i s t) : t.reason = s.reason := by
  cases i with
  | syscall =>
    obtain ⟨x, -, hserved⟩ := h
    exact served_reason hserved
  | _ => exact (ran_host_of_no_dest hd h (by simp)).reason

/-! ## What every instruction leaves -/

/-- Settles O15, by what the instruction did: each kind of change names the bits it may touch. -/
theorem flagBitsChangeOnlyAsTheirRulesSay : Obligations.FlagBitsChangeOnlyAsTheirRulesSay := by
  intro i s t h hflag
  obtain rfl | ⟨r, hf⟩ | ⟨d, x, hd, hw⟩ | ⟨hd, hran⟩ := exec_effect_cases h
  · exact ⟨fun _ _ _ => rfl, fun _ => rfl, .inl rfl, fun _ _ => rfl⟩
  · exact ⟨fun _ n hn => hf.flag n (by omega) (by omega), fun _ => hf.flag 3 (by omega) (by omega),
      .inr ⟨r, hf⟩, fun n hn => hf.flag n (by omega) (by omega)⟩
  · have hne : d ≠ .flag := by rintro rfl; exact hflag hd
    have keep (n : Nat) (hn : n ≠ 3) : t.flag.getLsbD n = s.flag.getLsbD n := by
      rw [hw.flag n hn, if_neg hne]
    exact ⟨fun _ n hn => keep n (by omega), fun hnone => by simp [hd] at hnone,
      .inl (keep 5 (by omega)), fun n hn => keep n (by omega)⟩
  · obtain hf | ⟨c, r, v, rfl, hf⟩ | ⟨c, v, rfl, -, hf⟩ := ran_flag_of_no_dest hd hran
    · simp [hf]
    · have keep (n : Nat) (hn : 3 ≤ n) : t.flag.getLsbD n = s.flag.getLsbD n := by
        rw [hf, getLsbD_withCmp, if_neg (by omega)]
      exact ⟨fun hcmp => absurd rfl (hcmp c r v), fun _ => keep 3 (by omega), .inl (keep 5 (by omega)),
        fun n hn => keep n (by omega)⟩
    · have keep (n : Nat) (hn : n ≠ 4) : t.flag.getLsbD n = s.flag.getLsbD n := by
        rw [hf, getLsbD_withRun, if_neg hn]
      exact ⟨fun _ n hn => keep n (by omega), fun _ => keep 3 (by omega), .inl (keep 5 (by omega)),
        fun n hn => keep n (by omega)⟩

/-- Settles O16: where the instruction neither faults, nor writes `$flag`, nor exits, bit 4 is kept. -/
theorem runIsClearedOnlyByExitFaultOrFlagWrite : Obligations.RunIsClearedOnlyByExitFaultOrFlagWrite := by
  intro i s t h hrun hhalt
  have kept_absurd (hkeep : t.flag.getLsbD 4 = s.flag.getLsbD 4) : False :=
    Bool.false_ne_true (hhalt.symm.trans (hkeep.trans hrun))
  obtain rfl | hf | ⟨d, x, hd, hw⟩ | ⟨hd, hran⟩ := exec_effect_cases h
  · exact (kept_absurd rfl).elim
  · exact .inl hf
  · by_cases hflag : d = .flag
    · exact .inr (.inl (hflag ▸ hd))
    · exact (kept_absurd (by rw [hw.flag 4 (by omega), if_neg hflag])).elim
  · obtain hf | ⟨c, r, v, -, hf⟩ | ⟨c, v, hi, hk, -⟩ := ran_flag_of_no_dest hd hran
    · exact (kept_absurd (by rw [hf])).elim
    · exact (kept_absurd (by rw [hf, getLsbD_withCmp, if_neg (by omega)])).elim
    · exact .inr (.inr ⟨c, v, hi, hk⟩)

/-- Settles O17, by what the instruction did. -/
theorem registersChangeOnlyAsNamed : Obligations.RegistersChangeOnlyAsNamed := by
  intro i s t r h hr hflag
  obtain rfl | ⟨e, hf⟩ | ⟨d, x, hd, hw⟩ | ⟨hd, hran⟩ := exec_effect_cases h
  · rfl
  · exact hf.regs r (by simpa using hflag)
  · rw [writesOf_of_destOf hd] at hr
    exact hw.regs r (by simp_all)
  · exact ran_reg_of_no_dest hd hran hr hflag

/-- Settles O19, by what the instruction did. -/
theorem hostRecordChangesOnlyBySyscall : Obligations.HostRecordChangesOnlyBySyscall := by
  intro i s t h
  obtain rfl | ⟨r, hf⟩ | ⟨d, x, -, hw⟩ | ⟨hd, hran⟩ := exec_effect_cases h
  · exact ⟨fun _ => ⟨rfl, rfl⟩, .inl rfl⟩
  · exact ⟨fun _ => ⟨hf.events, hf.consumed⟩, .inr ⟨r, hf⟩⟩
  · exact ⟨fun _ => ⟨hw.host.events, hw.host.consumed⟩, .inl hw.host.reason⟩
  · refine ⟨fun hs => ?_, .inl (ran_reason_of_no_dest hd hran)⟩
    have hhost := ran_host_of_no_dest hd hran hs
    exact ⟨hhost.events, hhost.consumed⟩

/-! ## Writes of `$flag` and of `$zero` -/

/-- Which tests pass after a write of `$flag`: those the written bits 0 to 2 pass. -/
theorem condHolds_of_wrote_flag {x : Word} (h : WroteDest s t .flag x) (c : Cond) :
    condHolds c t ↔ (c.test = true → c.cc = x.extractLsb' 0 3) := by
  have hcmp : cmpBits t.flag = cmpBits x :=
    cmpBits_congr fun n hn => by rw [h.flag n (by omega), if_pos rfl]
  rw [condHolds, show t.flag.extractLsb' 0 3 = x.extractLsb' 0 3 from hcmp]

/-- Settles O28: what `exec_of_resultOf` writes, by the rule of the destination write. -/
theorem writingFlagTakesEffectNext : Obligations.WritingFlagTakesEffectNext := by
  intro i c x s hd hi hc hv hx
  have hw := writeDest_spec s .flag x
  have hbit (n : Nat) (hn : n ≠ 3) : (s.writeDest .flag x).flag.getLsbD n = x.getLsbD n := by
    rw [hw.flag n hn, if_pos rfl]
  exact ⟨_, exec_of_resultOf hd hi hc hv hx, hbit, by simpa using hw.z,
    fun r hr => hw.regs r (by simpa using hr), hw.mem, hw.host, condHolds_of_wrote_flag hw,
    fun hrun => step_of_halted ((hbit 4 (by omega)).trans hrun)⟩

/-- Settles O27: a destination write of `$zero` sees 0 and touches `flag.Z` alone. -/
theorem zeroRegisterIsHardwired : Obligations.ZeroRegisterIsHardwired := by
  refine fun s => ⟨reg_zero s, setReg_zero s, fun c v hc hv => ?_⟩
  have hw := writeDest_spec s .zero (s.operandValue v)
  exact ⟨_, valued_of_readable hc hv _, rfl, by simpa using hw.z,
    fun n hn => by rw [hw.flag n hn, if_neg (by decide)],
    fun r hr => by
      by_cases h0 : r = .zero
      · rw [h0]; rfl
      · exact hw.regs r (by simp_all),
    hw.mem, hw.host⟩

end Sys2Proof.Machine
end

section
/-! PROOFS. No instruction reads the host record (spec/10_state.md R39): a step of the same machine under
another record is the same step, its draws recorded after the other record's. -/

namespace Sys2Proof.Machine

/-- The same machine under another host record. -/
def State.withHost (s : State) (ev : List Event) (cs : List InputItem) (r : Option FaultReason) : State :=
  { s with events := ev, consumed := cs, reason := r }

section
variable (s : State) (ev : List Event) (cs : List InputItem) (r : Option FaultReason)

@[simp] theorem withHost_flag : (s.withHost ev cs r).flag = s.flag := rfl
@[simp] theorem withHost_ip : (s.withHost ev cs r).ip = s.ip := rfl
@[simp] theorem withHost_mem : (s.withHost ev cs r).mem = s.mem := rfl
@[simp] theorem withHost_consumed : (s.withHost ev cs r).consumed = cs := rfl
@[simp] theorem withHost_value (v : Operand) : (s.withHost ev cs r).value v = s.value v := by
  cases v with
  | reg x => exact congrArg Except.ok (by cases x <;> rfl)
  | regOff x n => cases x <;> rfl
  | _ => rfl
@[simp] theorem reg_withHost (x : Reg) : (s.withHost ev cs r).reg x = s.reg x := by cases x <;> rfl
@[simp] theorem withHost_addr (a : Operand) : (s.withHost ev cs r).addr a = s.addr a := by
  cases a <;> simp [State.addr, State.offsetAddr]
@[simp] theorem withHost_memRead (a : Word) (n : Nat) : (s.withHost ev cs r).memRead a n = s.memRead a n := rfl
@[simp] theorem withHost_wordAt (a : Nat) : (s.withHost ev cs r).wordAt a = s.wordAt a := rfl
@[simp] theorem withHost_frameBytes : (s.withHost ev cs r).frameBytes = s.frameBytes := by
  simp [State.frameBytes]

@[simp] theorem withHost_readFrame (a : Word) (xs : List FrameItem) :
    (s.withHost ev cs r).readFrame a xs = s.readFrame a xs := by
  induction xs generalizing a with
  | nil => rfl
  | cons x xs ih => simp only [State.readFrame, withHost_memRead, ih]

theorem withHost_setReg (d : Reg) (x : Word) :
    (s.withHost ev cs r).setReg d x = (s.setReg d x).withHost ev cs r := by cases d <;> rfl

theorem withHost_setRegs (ws : List (Reg × Word)) :
    (s.withHost ev cs r).setRegs ws = (s.setRegs ws).withHost ev cs r := by
  induction ws generalizing s with
  | nil => rfl
  | cons w ws ih => simp only [State.setRegs, withHost_setReg, ih]

theorem withHost_writeDest (d : Reg) (x : Word) :
    (s.withHost ev cs r).writeDest d x = (s.writeDest d x).withHost ev cs r := by
  rw [State.writeDest, withHost_setReg]
  cases d <;> rfl
end

/-- What the machine answers under a record with `cs` consumed, when it answers `o` from `s`: the same state
under some record, with the same draws after `cs`. -/
def SameUnderHost (s : State) (cs : List InputItem) (o o' : Outcome) : Prop :=
  ∀ t, o = .next t → ∃ ev drawn r, o' = .next (t.withHost ev (cs ++ drawn) r) ∧
    t.consumed = s.consumed ++ drawn

section
variable {s : State} {ev : List Event} {cs : List InputItem} {r : Option FaultReason}

/-- An outcome that draws nothing. -/
theorem sameUnderHost_next {u : State} (hu : u.consumed = s.consumed) :
    SameUnderHost s cs (.next u) (.next (u.withHost ev cs r)) := by
  rintro t ⟨⟩
  exact ⟨ev, [], r, by rw [List.append_nil], by rw [hu, List.append_nil]⟩

/-- A fault. -/
theorem sameUnderHost_faulted (e : FaultReason) :
    SameUnderHost s cs (.next (s.faulted e)) (.next ((s.withHost ev cs r).faulted e)) :=
  sameUnderHost_next (ev := ev) (r := some e) (u := s.faulted e) rfl

theorem sameUnderHost_conditional {c : Cond} {o o' : Outcome} (h : SameUnderHost s cs o o') :
    SameUnderHost s cs (conditional c s o) (conditional c (s.withHost ev cs r) o') := by
  by_cases hc : condHolds c s
  · rwa [conditional_of_holds hc, conditional_of_holds (s := s.withHost ev cs r) hc]
  · rw [conditional_of_not hc, conditional_of_not (s := s.withHost ev cs r) hc]
    exact sameUnderHost_next rfl

theorem sameUnderHost_orRaise {α : Type} {x : Except FaultReason α} {k k' : α → Outcome}
    (h : ∀ v, SameUnderHost s cs (k v) (k' v)) :
    SameUnderHost s cs (orRaise s x k) (orRaise (s.withHost ev cs r) x k') := by
  cases x with
  | ok v => exact h v
  | error e => exact sameUnderHost_faulted e

theorem sameUnderHost_withValue {v : Operand} {k k' : Word → Outcome}
    (h : ∀ x, SameUnderHost s cs (k x) (k' x)) :
    SameUnderHost s cs (withValue s v k) (withValue (s.withHost ev cs r) v k') := by
  simp only [withValue, withHost_value]
  exact sameUnderHost_orRaise h

theorem sameUnderHost_withAddr {i : Instr} {a : Operand} {k k' : Word → Outcome}
    (h : ∀ x, SameUnderHost s cs (k x) (k' x)) :
    SameUnderHost s cs (withAddr s i a k) (withAddr (s.withHost ev cs r) i a k') := by
  simp only [withAddr, withHost_addr]
  cases s.addr a with
  | some x => exact h x
  | none => exact sameUnderHost_faulted _

/-- A write of bytes, and what goes on with the memory it leaves. -/
theorem sameUnderHost_memWriteBytes {a : Word} {bs : List Byte} {k k' : State → Outcome}
    (h : ∀ m, SameUnderHost s cs (k { s with mem := m }) (k' (State.withHost { s with mem := m } ev cs r))) :
    SameUnderHost s cs (orRaise s (s.memWriteBytes a bs) k)
      (orRaise (s.withHost ev cs r) ((s.withHost ev cs r).memWriteBytes a bs) k') := by
  by_cases hf : s.fits a.toNat bs.length
  · rw [memWriteBytes_of_fits hf, memWriteBytes_of_fits (s := s.withHost ev cs r) hf]
    exact h _
  · rw [memWriteBytes_of_not hf, memWriteBytes_of_not (s := s.withHost ev cs r) hf]
    exact sameUnderHost_faulted _

theorem sameUnderHost_writeDest (d : Reg) (x : Word) :
    SameUnderHost s cs (.next (s.writeDest d x)) (.next ((s.withHost ev cs r).writeDest d x)) := by
  rw [withHost_writeDest]
  exact sameUnderHost_next (by simp)

theorem sameUnderHost_arith (o : ArithOp) (c : Cond) (ty : DType) (d x : Reg) (v : Operand) :
    SameUnderHost s cs (arith o c ty d x v s) (arith o c ty d x v (s.withHost ev cs r)) := by
  unfold arith
  refine sameUnderHost_conditional (sameUnderHost_withValue fun b => ?_)
  rw [reg_withHost]
  exact sameUnderHost_orRaise fun y => sameUnderHost_writeDest d y

theorem sameUnderHost_logical (f : Word → Word → Word) (c : Cond) (d x : Reg) (v : Operand) :
    SameUnderHost s cs (logical f c d x v s) (logical f c d x v (s.withHost ev cs r)) := by
  unfold logical
  refine sameUnderHost_conditional (sameUnderHost_withValue fun b => ?_)
  rw [reg_withHost]
  exact sameUnderHost_writeDest d _

/-- A draw, and the write of `$ret` after it: both machines record the same item. -/
theorem sameUnderHost_drawn (x : InputItem) (w : Word) :
    SameUnderHost s cs (.next ((s.drawn x).setReg .ret w))
      (.next (((s.withHost ev cs r).drawn x).setReg .ret w)) := by
  rintro t ⟨⟩
  exact ⟨ev, [x], r, rfl, rfl⟩

/-- A service: the items drawn are those at the place in the input sequence that both machines have reached. -/
theorem sameUnderHost_performService (hl : cs.length = s.consumed.length) (x : Service) :
    SameUnderHost s cs (performService x s) (performService x (s.withHost ev cs r)) := by
  have h64 : (s.withHost ev cs r).nextWord64 = s.nextWord64 := by simp [State.nextWord64, hl]
  have h32 : (s.withHost ev cs r).nextWord32 = s.nextWord32 := by simp [State.nextWord32, hl]
  have h8 : (s.withHost ev cs r).nextByte = s.nextByte := by simp [State.nextByte, hl]
  have hbs : (s.withHost ev cs r).nextBytes = s.nextBytes := by simp [State.nextBytes, hl]
  have hstr : (s.withHost ev cs r).readStringBytes = s.readStringBytes := by
    simp [State.readStringBytes, hbs, State.arg2]
  cases x with
  | printInt | printFloat | printDouble | printChar => exact sameUnderHost_next (u := s.emit _) rfl
  | printString => exact sameUnderHost_orRaise fun bs => sameUnderHost_next (u := s.emit _) rfl
  | readInt | readDouble =>
    simp only [performService, serviceReadInt, serviceReadDouble, h64]
    exact sameUnderHost_drawn _ _
  | readFloat =>
    simp only [performService, serviceReadFloat, h32]
    exact sameUnderHost_drawn _ _
  | readChar =>
    simp only [performService, serviceReadChar, h8]
    exact sameUnderHost_drawn _ _
  | readString =>
    simp only [performService, serviceReadString, hbs, hstr]
    refine sameUnderHost_memWriteBytes fun m => ?_
    rintro t ⟨⟩
    exact ⟨ev, [_], r, rfl, rfl⟩
  | exit => exact sameUnderHost_next (u := { s.emit .exit with flag := withRun s.flag false }) rfl
  | exit2 => exact sameUnderHost_next (u := { s.emit (.exit2 s.arg1) with flag := withRun s.flag false }) rfl

/-- No instruction reads the host record. -/
theorem sameUnderHost_exec (hl : cs.length = s.consumed.length) (i : Instr) :
    SameUnderHost s cs (exec i s) (exec i (s.withHost ev cs r)) := by
  cases i with
  | nop => exact sameUnderHost_next rfl
  | load c d v =>
    exact sameUnderHost_conditional (sameUnderHost_withValue fun x => sameUnderHost_writeDest d x)
  | loadu c d v =>
    refine sameUnderHost_conditional (sameUnderHost_withValue fun x => ?_)
    rw [reg_withHost]
    exact sameUnderHost_writeDest d _
  | store c x a =>
    refine sameUnderHost_withAddr fun y => sameUnderHost_conditional ?_
    rw [reg_withHost]
    exact sameUnderHost_memWriteBytes fun m => sameUnderHost_next rfl
  | add c ty d x v | sub c ty d x v | mul c ty d x v | div c ty d x v | idiv c ty d x v =>
    exact sameUnderHost_arith _ c ty d x v
  | cmp c x v =>
    refine sameUnderHost_conditional (sameUnderHost_withValue fun y => ?_)
    rw [reg_withHost]
    exact sameUnderHost_next (u := { s with flag := withCmp s.flag (compareCode (s.reg x) y) }) rfl
  | b cnd a =>
    refine sameUnderHost_withAddr fun x => ?_
    rw [withHost_flag]
    split
    · exact sameUnderHost_next (u := { s with ip := x }) rfl
    · exact sameUnderHost_next rfl
  | not c d x =>
    refine sameUnderHost_conditional ?_
    rw [reg_withHost]
    exact sameUnderHost_writeDest d _
  | and c d x v | or c d x v | xor c d x v | shr c d x v | shl c d x v =>
    exact sameUnderHost_logical _ c d x v
  | push c v =>
    refine sameUnderHost_conditional (sameUnderHost_withValue fun x => ?_)
    exact sameUnderHost_memWriteBytes fun m => sameUnderHost_next (u := { s with mem := m, sp := s.sp + 4 }) rfl
  | call c v =>
    refine sameUnderHost_conditional (sameUnderHost_withValue fun x => ?_)
    rw [withHost_frameBytes]
    exact sameUnderHost_memWriteBytes fun m =>
      sameUnderHost_next (u := { s with mem := m, fp := s.sp, sp := s.sp + 80, ip := x }) rfl
  | ret c =>
    refine sameUnderHost_conditional (sameUnderHost_orRaise fun n => ?_)
    rw [withHost_readFrame]
    refine sameUnderHost_orRaise fun ws => ?_
    rw [withHost_setRegs, withHost_setReg]
    exact sameUnderHost_next (by simp)
  | syscall c v =>
    refine sameUnderHost_conditional (sameUnderHost_withValue fun k => ?_)
    cases serviceOf k with
    | some x => exact sameUnderHost_performService hl x
    | none => exact sameUnderHost_faulted _

/-- No step reads the host record. -/
theorem sameUnderHost_step (hl : cs.length = s.consumed.length) :
    SameUnderHost s cs (step s) (step (s.withHost ev cs r)) := by
  rcases Bool.eq_false_or_eq_true (s.flag.getLsbD 4) with hr | hr
  · rw [step_of_running hr, step_of_running (s := s.withHost ev cs r) hr, withHost_ip,
      withHost_wordAt]
    by_cases hf : s.fits s.ip.toNat 8
    · rw [if_pos hf, if_pos (c := (s.withHost ev cs r).fits s.ip.toNat 8) hf]
      cases decode (s.wordAt s.ip.toNat) with
      | error e => exact sameUnderHost_faulted (s := s.advance) _
      | ok i => exact sameUnderHost_exec (s := s.advance) hl i
    · rw [if_neg hf, if_neg (c := (s.withHost ev cs r).fits s.ip.toNat 8) hf]
      exact sameUnderHost_faulted _
  · rw [step_of_halted hr, step_of_halted (s := s.withHost ev cs r) hr]
    exact sameUnderHost_next rfl
end

/-- Settles O20, by `sameUnderHost_step`. -/
theorem hostRecordCannotBeRead : Obligations.HostRecordCannotBeRead := by
  intro s t ev cs r hl h
  obtain ⟨ev', drawn, r', h', hd⟩ := sameUnderHost_step (ev := ev) (r := r) hl t h
  exact ⟨_, drawn, h', reg_withHost _ _ _ _, rfl, hd, rfl⟩

end Sys2Proof.Machine
end

section
/-! PROOFS. What reset leaves (spec/10_state.md R40, spec/70_reset_and_hazards.md R310). -/

namespace Sys2Proof.Machine

/-- A canonical memory and an empty host record meet the invariant, whatever the registers hold. -/
theorem inv_of_host_empty {s : State} (hm : s.mem.wf = true) (he : s.events = []) (hc : s.consumed = [])
    (hr : s.reason = none) : Inv s where
  memory := hm
  fault h := absurd hr h
  exited := by simp [he]
  exitLast := by simp [he]
  printed := by simp [he]
  drawn := by simp [hc]

/-- Settles O12: reset empties the host record, and cuts a canonical memory to the configuration's size. -/
theorem resetMeetsTheInvariant : Obligations.ResetMeetsTheInvariant :=
  ⟨inv_of_host_empty (by decide) rfl rfl rfl,
    fun _ _ hm hp => inv_of_host_empty (ofSize_wf hm hp) rfl rfl rfl⟩

/-- Bit by bit, the `$flag` that reset leaves. -/
theorem getLsbD_resetFrom_flag (init : State) (p : Params) (n : Nat) :
    (init.resetFrom p).flag.getLsbD n =
      if n = 5 then false else if n = 4 then true else init.flag.getLsbD n := by
  rw [State.resetFrom, getLsbD_withErr, getLsbD_withRun]

/-- Reset writes no register but `$ip` and `$flag`. -/
theorem reg_resetFrom (init : State) (p : Params) : RegsSameBut init (init.resetFrom p) [.ip, .flag] := by
  intro r hr
  cases r with
  | ip | flag => simp at hr
  | _ => rfl

/-- The bytes of the configuration's memory are those of `INIT`. -/
theorem byteAt_resetFrom (init : State) (p : Params) {a : Nat} (ha : a < p.memSize) :
    (init.resetFrom p).byteAt a = init.byteAt a :=
  (byte_ofSize init.mem p.memSize a).trans (if_pos ha)

/-- Settles O13, row by row. -/
theorem resetLeavesTheFixedRows : Obligations.ResetLeavesTheFixedRows := by
  refine ⟨fun _ => rfl, ?_⟩
  rintro init t p rfl
  have hflag := getLsbD_resetFrom_flag init p
  exact ⟨rfl, hflag 4, hflag 5, rfl, fun n h4 h5 => by rw [hflag, if_neg h5, if_neg h4], reg_resetFrom init p,
    rfl, fun _ ha => byteAt_resetFrom init p ha, rfl, rfl, rfl⟩

end Sys2Proof.Machine
end

section
/-! PROOFS. Statements about memory (spec/20_memory.md): the range check, an access of another width, the
canonical form. -/

namespace Sys2Proof.Machine

/-! ## The range check (R66) -/

theorem memRead_ok_iff (s : State) (a : Word) (n : Nat) :
    (∃ x, s.memRead a n = .ok x) ↔ s.fits a.toNat n := by
  refine ⟨fun ⟨x, hx⟩ => ?_, fun h => ⟨_, memRead_of_fits h⟩⟩
  by_contra hn
  rw [memRead_of_not hn] at hx
  cases hx

theorem memWrite_ok_iff (s : State) (a : Word) (n v : Nat) :
    (∃ t, s.memWrite a n v = .ok t) ↔ s.fits a.toNat n :=
  ⟨fun ⟨_, h⟩ => (memWrite_ok h).1, fun h => ⟨_, memWrite_of_fits h⟩⟩

/-- Settles O29: the check adds numbers, not words, so four bytes at 2^64 - 4 end at 2^64. -/
theorem rangeCheckDoesNotWrap : Obligations.RangeCheckDoesNotWrap := by
  refine fun s a n v => ⟨memRead_ok_iff s a n, memRead_of_not, memWrite_ok_iff s a n v, memWrite_of_not,
    fun hsize => ?_⟩
  have htop : (0 - 4 : Word).toNat = 2 ^ 64 - 4 := rfl
  have hout : ¬ s.fits (0 - 4 : Word).toNat 4 := by rw [htop]; omega
  rw [memRead_of_not hout, htop]

/-! ## Accesses of other widths (R61) -/

theorem bytesOfNat_drop {n k : Nat} (h : k ≤ n) (v : Nat) :
    (bytesOfNat n v).drop k = bytesOfNat (n - k) (v / 256 ^ k) := by
  apply List.ext_getElem (by simp)
  intro j h1 h2
  simp only [bytesOfNat_length] at h2
  rw [List.getElem_drop, bytesOfNat_getElem (by omega), bytesOfNat_getElem h2, Nat.div_div_eq_div_mul, pow_add]

theorem bytesOfNat_take {n k : Nat} (h : k ≤ n) (v : Nat) : (bytesOfNat n v).take k = bytesOfNat k v := by
  apply List.ext_getElem (by simpa using h)
  intro j h1 h2
  simp only [bytesOfNat_length] at h2
  rw [List.getElem_take, bytesOfNat_getElem (by omega), bytesOfNat_getElem h2]

/-- A read inside a run of bytes just written. -/
theorem bytes_setBytes_inside (m : Memory) (a : Nat) {bs : List Byte} {k n : Nat} (h : k + n ≤ bs.length) :
    (m.setBytes a bs).bytes (a + k) n = (bs.drop k).take n := by
  apply List.ext_getElem (by simp; omega)
  intro j h1 h2
  simp only [bytes_length] at h1
  rw [bytes_getElem _ h1, Nat.add_assoc, byte_setBytes_inside m (by omega), List.getElem_take, List.getElem_drop]

/-- Part of a number's bytes written reads back as those of its bits. -/
theorem natOfBytes_setBytes_inside (m : Memory) (a v : Nat) {w k n : Nat} (h : k + n ≤ w) :
    natOfBytes ((m.setBytes a (bytesOfNat w v)).bytes (a + k) n) = v / 256 ^ k % 256 ^ n := by
  rw [bytes_setBytes_inside m a (by simpa using h), bytesOfNat_drop (by omega), bytesOfNat_take (by omega),
    natOfBytes_bytesOfNat]

/-- Whole bytes of a word as a number. -/
theorem toNat_extractLsb'_bytes (v : Word) (k n : Nat) :
    (v.extractLsb' (8 * k) (8 * n)).toNat = v.toNat / 256 ^ k % 256 ^ n := by
  have h256 (j : Nat) : 256 ^ j = 2 ^ (8 * j) := by rw [pow_mul]; norm_num
  rw [BitVec.extractLsb'_toNat, Nat.shiftRight_eq_div_pow, h256, h256]

/-- After an 8-byte write, a read inside the eight bytes sees the bits of its bytes. -/
theorem memRead_inside_memWrite {s t : State} {a v : Word} {k n : Nat} (hsize : s.mem.size ≤ 2 ^ 64)
    (h : s.memWrite a 8 v.toNat = .ok t) (hk : k < 8) (hn : k + n ≤ 8) :
    t.memRead (a + BitVec.ofNat 64 k) n = .ok (v.extractLsb' (8 * k) (8 * n)).toNat := by
  obtain ⟨hfits, rfl⟩ := memWrite_ok h
  have haddr : (a + BitVec.ofNat 64 k).toNat = a.toNat + k := by
    rw [BitVec.toNat_add, BitVec.toNat_ofNat]
    omega
  have hinside : s.fits (a + BitVec.ofNat 64 k).toNat n := by omega
  rw [memRead_of_fits (by rwa [State.fits, setBytes_size]), haddr, natOfBytes_setBytes_inside _ _ _ hn,
    toNat_extractLsb'_bytes]

/-- Settles O30: each read is one inside the eight bytes, and the write leaves every byte outside them. -/
theorem mixedWidthsAgree : Obligations.MixedWidthsAgree := by
  intro s t a v hsize h
  have read {k n : Nat} := memRead_inside_memWrite (k := k) (n := n) hsize h
  refine ⟨?_, read (k := 4) (n := 4) (by omega) (by omega), fun k hk => read hk (by omega), ?_⟩
  · simpa using read (k := 0) (n := 4) (by omega) (by omega)
  · obtain ⟨-, rfl⟩ := memWrite_ok h
    exact memSameOutside_setBytes s _ a.toNat (bytesOfNat 8 v.toNat) rfl

/-! ## The canonical form (R65) -/

/-- What a canonical listing with an entry says of it. -/
theorem cellsWf_cons {size lo k : Nat} {b : Byte} {cs : List Host.Cell} :
    cellsWf size lo ((k, b) :: cs) = true ↔
      lo ≤ k ∧ k < size ∧ b ≠ unlistedByte ∧ cellsWf size (k + 1) cs = true := by
  simp [cellsWf, and_assoc]

/-- Below its first address a canonical listing lists nothing. -/
theorem lookupCell_below {size lo a : Nat} {cs : List Host.Cell} (h : cellsWf size lo cs = true) (ha : a < lo) :
    lookupCell cs a = unlistedByte := by
  induction cs generalizing lo with
  | nil => rfl
  | cons c cs ih =>
    obtain ⟨k, b⟩ := c
    obtain ⟨hlo, -, -, hcs⟩ := cellsWf_cons.mp h
    rw [lookupCell, if_neg (by omega)]
    exact ih hcs (by omega)

/-- The first address listed reads a byte that a canonical listing above it does not have there. -/
theorem lookupCell_cons_ne {size lo k : Nat} {b : Byte} {cs ds : List Host.Cell}
    (hc : cellsWf size lo ((k, b) :: cs) = true) (hd : cellsWf size (k + 1) ds = true) :
    lookupCell ((k, b) :: cs) k ≠ lookupCell ds k := by
  obtain ⟨-, -, hb, -⟩ := cellsWf_cons.mp hc
  rwa [lookupCell, if_pos rfl, lookupCell_below hd (Nat.lt_succ_self k)]

/-- A canonical listing is canonical above any address below its first. -/
theorem cellsWf_cons_above {size lo k l : Nat} {c : Byte} {ds : List Host.Cell}
    (h : cellsWf size lo ((l, c) :: ds) = true) (hl : k < l) : cellsWf size (k + 1) ((l, c) :: ds) = true := by
  obtain ⟨-, hrest⟩ := cellsWf_cons.mp h
  exact cellsWf_cons.mpr ⟨hl, hrest⟩

/-- Two canonical listings that read the same are the same: their first addresses agree, as the lower of two
different ones would read differently, and so do the rests. -/
theorem cells_ext {size lo : Nat} {cs ds : List Host.Cell} (hc : cellsWf size lo cs = true)
    (hd : cellsWf size lo ds = true) (h : ∀ a, lookupCell cs a = lookupCell ds a) : cs = ds := by
  induction cs generalizing lo ds with
  | nil =>
    cases ds with
    | nil => rfl
    | cons d ds => exact absurd (h d.1).symm (lookupCell_cons_ne hd rfl)
  | cons c cs ih =>
    cases ds with
    | nil => exact absurd (h c.1) (lookupCell_cons_ne hc rfl)
    | cons d ds =>
      obtain ⟨k, b⟩ := c
      obtain ⟨l, b'⟩ := d
      rcases Nat.lt_trichotomy k l with hkl | rfl | hlk
      · exact absurd (h k) (lookupCell_cons_ne hc (cellsWf_cons_above hd hkl))
      · obtain ⟨-, -, -, hcs⟩ := cellsWf_cons.mp hc
        obtain ⟨-, -, -, hds⟩ := cellsWf_cons.mp hd
        have hb : b = b' := by simpa [lookupCell] using h k
        have hrest : cs = ds := ih hcs hds fun a => by
          by_cases ha : k = a
          · rw [lookupCell_below hcs (by omega), lookupCell_below hds (by omega)]
          · simpa [lookupCell, ha] using h a
        rw [hb, hrest]
      · exact absurd (h l).symm (lookupCell_cons_ne hd (cellsWf_cons_above hc hlk))

/-- Settles O31, by `cells_ext`. -/
theorem equalReadsMeanEqualMemories : Obligations.EqualReadsMeanEqualMemories := by
  rintro ⟨size, cs⟩ ⟨_, ds⟩ hm hn rfl h
  simp only [Memory.wf, Bool.and_eq_true] at hm hn
  exact congrArg (Memory.mk size) (cells_ext hm.2 hn.2 h)

end Sys2Proof.Machine
end

section
/-! PROOFS. Which instructions change memory (spec/20_memory.md R61, R66), and that none changes its size under
any configuration (spec/00_scope.md R7). -/

namespace Sys2Proof.Machine

/-! ## Runs of a machine behind the host's interface -/

section
variable {M : Host.Core} {s t : M.State}

theorem run_succ_of_next (h : M.step s = .next t) (k : Nat) : M.run (k + 1) s = M.run k t := by
  simp only [Host.Core.run, h]

/-- A run that ends in a state has taken its first step. -/
theorem run_succ_cases {k : Nat} (h : M.run (k + 1) s = .next t) :
    ∃ u, M.step s = .next u ∧ M.run k u = .next t := by
  simp only [Host.Core.run] at h
  split at h
  next u hu => exact ⟨u, hu, h⟩
  next => cases h
  next => cases h

/-- A run of one step is the step. -/
theorem run_one (M : Host.Core) (s : M.State) : M.run 1 s = M.step s := by
  simp only [Host.Core.run]
  cases M.step s <;> rfl
end

/-! ## Memory kept -/

section
variable {i : Instr} {s t : State}

/-- Service 10 is the number of `read_string` (spec/46_syscall.md R261). -/
theorem eq_of_serviceOf_readString {k : Word} (h : serviceOf k = some .readString) : k = 10 := by
  unfold serviceOf at h
  split at h <;> cases h
  next hk => exact BitVec.eq_of_toNat_eq hk

/-- No service but `read_string` writes memory. -/
theorem served_mem {x : Service} (h : Served x s t) (hx : x ≠ .readString) : t.mem = s.mem := by
  cases x with
  | printString => obtain ⟨bs, -, rfl⟩ := h; rfl
  | readString => exact absurd rfl hx
  | readInt | readFloat | readDouble | readChar => cases h; rw [setReg_mem, drawn_mem]
  | _ => cases h; rfl

/-- An instruction without a destination that is not `store`, `push`, `call` or service 10 keeps memory. -/
theorem ran_mem_of_no_dest (hd : destOf i = none) (h : Ran i s t) (hstore : ∀ c r a, i ≠ .store c r a)
    (hpush : ∀ c v, i ≠ .push c v) (hcall : ∀ c v, i ≠ .call c v)
    (hsys : ∀ c v, i = .syscall c v → s.operandValue v ≠ 10) : t.mem = s.mem := by
  cases i with
  | nop | cmp => cases h; rfl
  | store c r a => exact absurd rfl (hstore c r a)
  | b => obtain ⟨x, -, rfl⟩ := h; rfl
  | push c v => exact absurd rfl (hpush c v)
  | call c v => exact absurd rfl (hcall c v)
  | ret => obtain ⟨n, ws, -, -, rfl⟩ := h; rw [setReg_mem, setRegs_mem]
  | syscall c v =>
    obtain ⟨x, hx, hserved⟩ := h
    refine served_mem hserved ?_
    rintro rfl
    exact hsys c v rfl (eq_of_serviceOf_readString hx)
  | _ => cases hd
end

/-! ## The size kept, under any configuration -/

/-- A next state of the outcome, if there is one, has a memory of the same size. -/
def KeepsSize (s : State) (o : Outcome) : Prop := ∀ t, o = .next t → t.mem.size = s.mem.size

section
variable {s : State} {p : Params}

theorem keepsSize_next {t : State} (h : t.mem.size = s.mem.size) : KeepsSize s (.next t) := by
  rintro _ ⟨⟩
  exact h

theorem keepsSize_raise (r : FaultReason) : KeepsSize s (raise s r) := keepsSize_next rfl

theorem keepsSize_conditional {c : Cond} {o : Outcome} (h : KeepsSize s o) : KeepsSize s (conditional c s o p) := by
  unfold conditional
  split
  · exact h
  · exact keepsSize_next rfl

theorem keepsSize_orRaise {α : Type} {x : Except FaultReason α} {k : α → Outcome}
    (h : ∀ v, x = .ok v → KeepsSize s (k v)) : KeepsSize s (orRaise s x k) := by
  cases x with
  | ok v => exact h v rfl
  | error r => exact keepsSize_raise r

theorem keepsSize_withValue {v : Operand} {k : Word → Outcome} (h : ∀ x, KeepsSize s (k x)) :
    KeepsSize s (withValue s v k p) := keepsSize_orRaise fun x _ => h x

theorem keepsSize_withAddr {i : Instr} {a : Operand} {k : Word → Outcome} (h : ∀ x, KeepsSize s (k x)) :
    KeepsSize s (withAddr s i a k p) := by
  unfold withAddr
  split
  · exact h _
  · exact keepsSize_raise _

theorem keepsSize_memWriteBytes {a : Word} {bs : List Byte} {k : State → Outcome}
    (h : ∀ t : State, t.mem.size = s.mem.size → KeepsSize s (k t)) :
    KeepsSize s (orRaise s (s.memWriteBytes a bs) k) := by
  refine keepsSize_orRaise fun t ht => h t ?_
  obtain ⟨-, rfl⟩ := memWriteBytes_ok ht
  exact setBytes_size _ _ _

theorem keepsSize_writeDest (d : Reg) (x : Word) : KeepsSize s (.next (s.writeDest d x)) :=
  keepsSize_next (by rw [writeDest_mem])

theorem keepsSize_arith (o : ArithOp) (c : Cond) (ty : DType) (d r : Reg) (v : Operand) :
    KeepsSize s (arith o c ty d r v s p) :=
  keepsSize_conditional (keepsSize_withValue fun _ => keepsSize_orRaise fun x _ => keepsSize_writeDest d x)

theorem keepsSize_logical (f : Word → Word → Word) (c : Cond) (d r : Reg) (v : Operand) :
    KeepsSize s (logical f c d r v s p) :=
  keepsSize_conditional (keepsSize_withValue fun _ => keepsSize_writeDest d _)

theorem keepsSize_performService (x : Service) : KeepsSize s (performService x s p) := by
  cases x with
  | printInt | printFloat | printDouble | printChar | exit | exit2 => exact keepsSize_next rfl
  | printString => exact keepsSize_orRaise fun _ _ => keepsSize_next rfl
  | readInt | readFloat | readDouble | readChar => exact keepsSize_next (by rw [setReg_mem, drawn_mem])
  | readString => exact keepsSize_memWriteBytes fun _ ht => keepsSize_next ht

/-- No instruction changes the size of memory, under any configuration. -/
theorem keepsSize_execUnder (i : Instr) : KeepsSize s (execUnder p i s) := by
  cases i with
  | nop => exact keepsSize_next rfl
  | load c d v | loadu c d v =>
    exact keepsSize_conditional (keepsSize_withValue fun _ => keepsSize_writeDest d _)
  | store c r a =>
    exact keepsSize_withAddr fun _ => keepsSize_conditional (keepsSize_memWriteBytes fun _ => keepsSize_next)
  | add c ty d r v | sub c ty d r v | mul c ty d r v | div c ty d r v | idiv c ty d r v =>
    exact keepsSize_arith _ c ty d r v
  | cmp c r v => exact keepsSize_conditional (keepsSize_withValue fun _ => keepsSize_next rfl)
  | b cnd a =>
    refine keepsSize_withAddr fun x => ?_
    split <;> exact keepsSize_next rfl
  | not c d r => exact keepsSize_conditional (keepsSize_writeDest d _)
  | and c d r v | or c d r v | xor c d r v | shr c d r v | shl c d r v => exact keepsSize_logical _ c d r v
  | push c v | call c v =>
    exact keepsSize_conditional (keepsSize_withValue fun _ =>
      keepsSize_memWriteBytes fun _ ht => keepsSize_next ht)
  | ret c =>
    exact keepsSize_conditional (keepsSize_orRaise fun _ _ => keepsSize_orRaise fun _ _ =>
      keepsSize_next (by rw [setReg_mem, setRegs_mem]))
  | syscall c v =>
    refine keepsSize_conditional (keepsSize_withValue fun k => ?_)
    split
    · exact keepsSize_performService _
    · exact keepsSize_raise _

/-- No step changes the size of memory, under any configuration. -/
theorem keepsSize_stepUnder : KeepsSize s (stepUnder p s) := by
  unfold stepUnder cycle
  split
  · split
    · exact keepsSize_raise _
    · split
      · exact keepsSize_raise (s := s.advance) _
      · exact keepsSize_execUnder (s := s.advance) _
  · exact keepsSize_next rfl

/-- No run changes the size of memory, under any configuration. -/
theorem keepsSize_run (init : State) (k : Nat) : KeepsSize s (Host.Core.run (machineUnder p init) k s) := by
  induction k generalizing s with
  | zero => exact keepsSize_next rfl
  | succ k ih =>
    intro t h
    obtain ⟨u, hu, hrest⟩ := run_succ_cases h
    exact (ih t hrest).trans (keepsSize_stepUnder u hu)
end

/-- An instruction of the reference machine keeps the size of memory. -/
theorem keepsSize_exec (i : Instr) (s : State) : KeepsSize s (exec i s) :=
  execUnder_reference i s ▸ keepsSize_execUnder i

/-- Settles O18: what the instruction did tells whether memory is kept; its size is kept by every operation. -/
theorem memoryChangesOnlyByStoringInstructions : Obligations.MemoryChangesOnlyByStoringInstructions := by
  refine ⟨fun i s t h => ⟨keepsSize_exec i s t h, fun hstore hpush hcall hsys => ?_⟩,
    fun _ _ t h => keepsSize_stepUnder t h, fun p init t k h a n => ?_⟩
  · obtain rfl | ⟨r, hf⟩ | ⟨d, x, -, hw⟩ | ⟨hd, hran⟩ := exec_effect_cases h
    · rfl
    · exact hf.mem
    · exact hw.mem
    · exact ran_mem_of_no_dest hd hran hstore hpush hcall hsys
  · have hsize : t.mem.size = p.memSize := keepsSize_run init k t h
    rw [State.fits, hsize]

end Sys2Proof.Machine
end

section
/-! PROOFS. Decoding undoes encoding (spec/30_encoding.md R90 to R105): fields, then operands, then words. -/

namespace Sys2Proof

/-- An instruction's fields hold its opcode and nothing outside its row of R93's table. -/
theorem fieldsInLayout (i : Instr) : Laws.FieldsInLayout.Statement i := by
  cases i <;> exact ⟨rfl, rfl⟩

/-- The fields of an instruction's word. -/
theorem ofWord_encode (i : Instr) : Fields.ofWord (encode i) .arithmetic = encodeFields i := by
  rw [encode, layoutOf_reference, ofWord_toWord]

/-- The opcode of an instruction's word names it. -/
theorem opOfCode_encode (i : Instr) : opOfCode (opcodeOf (encode i)) = some i.op := by
  have h : opcodeOf (encode i) = Config.opcode i.op :=
    (congrArg Fields.opcode (ofWord_encode i)).trans (fieldsInLayout i).1
  rw [h, opOfCode_opcode]

/-! ## The conditional field and the operands read back -/

section
variable (o : Op) (c : Cond) (d s : Reg) (v : Operand)

@[simp] theorem cond_conditional : (Fields.conditional o c).cond = c := by
  obtain ⟨test, cc⟩ := c
  cases test <;> rfl

@[simp] theorem cond_regValue : (Fields.regValue o c d v).cond = c := cond_conditional o c
@[simp] theorem cond_regRegValue : (Fields.regRegValue o c d s v).cond = c := cond_conditional o c
@[simp] theorem cond_arithmetic (t : DType) : (Fields.arithmetic o c t d s v).cond = c := cond_conditional o c
@[simp] theorem cond_valueOnly : (Fields.valueOnly o c v).cond = c := cond_conditional o c

theorem decodeRegValue_encode (k : Reg → Operand → Instr) :
    decodeRegValue (Fields.regValue o c d v) k = .ok (k d v) := by
  simp [decodeRegValue, Fields.regValue]

theorem decodeRegAddr_encode (k : Reg → Operand → Instr) (h : v.isAddr = true) :
    decodeRegAddr (Fields.regValue o c d v) k = .ok (k d v) := by
  simp [decodeRegAddr, Fields.regValue, h]

theorem decodeRegRegValue_encode (k : Reg → Reg → Operand → Instr) :
    decodeRegRegValue (Fields.regRegValue o c d s v) k = .ok (k d s v) := by
  simp [decodeRegRegValue, Fields.regRegValue, Fields.regValue]

theorem decodeValue_encode (k : Operand → Instr) : decodeValue (Fields.valueOnly o c v) k = .ok (k v) := by
  simp [decodeValue, Fields.valueOnly]
end

theorem decodeArithmetic_encode (o : Op) (c : Cond) (t : DType) (d s : Reg) (v : Operand)
    (k : Cond → DType → Reg → Reg → Operand → Instr) :
    decodeRegRegValue (Fields.arithmetic o c t d s v)
      (k (Fields.arithmetic o c t d s v).cond (decodeDType (Fields.arithmetic o c t d s v).dtype)) =
      .ok (k c t d s v) := by
  rw [cond_arithmetic, show (Fields.arithmetic o c t d s v).dtype = encodeDType t from rfl,
    decodeDType_encodeDType]
  exact decodeRegRegValue_encode o c d s v (k c t)

/-- The operands of a well-formed instruction read back from its fields. -/
theorem decodeAs_encodeFields {i : Instr} (h : i.wf = true) : decodeAs i.op (encodeFields i) = .ok i := by
  cases i with
  | nop => rfl
  | load c d v | loadu c d v | cmp c d v =>
    simp only [Instr.op, encodeFields, decodeAs, cond_regValue, decodeRegValue_encode]
  | store c r a =>
    simp only [Instr.op, encodeFields, decodeAs, cond_regValue]
    exact decodeRegAddr_encode _ c r a _ h
  | add c t d s v | sub c t d s v | mul c t d s v | div c t d s v | idiv c t d s v =>
    exact decodeArithmetic_encode _ c t d s v _
  | b cnd a =>
    have ha : decodeAddr (encodeOperand a) = .ok a := decodeAddr_encodeOperand h
    simp only [Instr.op, encodeFields, decodeAs, decodeAddrOnly, ha]
  | not c d s =>
    have hc : (encodeFields (.not c d s)).cond = c := cond_conditional .not c
    simp only [Instr.op, decodeAs, hc]
    simp [decodeRegReg, encodeFields]
  | and c d s v | or c d s v | xor c d s v | shr c d s v | shl c d s v =>
    simp only [Instr.op, encodeFields, decodeAs, cond_regRegValue, decodeRegRegValue_encode]
  | push c v | call c v | syscall c v =>
    simp only [Instr.op, encodeFields, decodeAs, cond_valueOnly, decodeValue_encode]
  | ret c => simp only [Instr.op, encodeFields, decodeAs, cond_conditional]

/-- A well-formed instruction is read back from its word. -/
theorem decode_encode {i : Instr} (h : i.wf = true) : decode (encode i) = .ok i := by
  have hfields := ofWord_encode i
  refine decode_ok_iff.mpr ⟨i.op, opOfCode_encode i, fun hnop => ?_, ?_, ?_, ?_⟩
  · cases i <;> cases hnop
    rfl
  · rw [hfields]
    exact (fieldsInLayout i).2
  · rw [encode, layoutOf_reference]
    exact toWord_top _
  · rw [hfields]
    exact decodeAs_encodeFields h

end Sys2Proof
end

section
/-! PROOFS. Instructions in memory are what the steps run (spec/20_memory.md R73, spec/30_encoding.md R107). -/

namespace Sys2Proof.Machine

/-- A step of the running machine is the instruction that the word at `$ip` decodes to. -/
theorem step_of_decode {s : State} {i : Instr} (hr : s.running) (hf : s.fits s.ip.toNat 8)
    (hd : decode (s.wordAt s.ip.toNat) = .ok i) : step s = exec i s.advance := by
  rw [step_of_running hr, if_pos hf, hd]

/-- The bytes of an instruction, stored, are its word. -/
theorem wordAt_encodeBytes {s t : State} {a : Nat} {i : Instr} (h : t.mem = s.mem.setBytes a (encodeBytes i)) :
    t.wordAt a = encode i := by
  rw [wordAt_setBytes (v := (encode i).toNat) h, BitVec.ofNat_toNat, BitVec.setWidth_eq]

/-- The next step runs an instruction stored at `$ip`. -/
theorem step_of_stored {s : State} {i : Instr} (hr : s.running) (hf : s.fits s.ip.toNat 8) (hi : i.wf = true) :
    step { s with mem := s.mem.setBytes s.ip.toNat (encodeBytes i) } =
      exec i { s with mem := s.mem.setBytes s.ip.toNat (encodeBytes i), ip := s.ip + 8 } := by
  refine step_of_decode (s := { s with mem := s.mem.setBytes s.ip.toNat (encodeBytes i) }) hr ?_ ?_
  · rw [State.fits, setBytes_size]
    exact hf
  · rw [wordAt_encodeBytes (s := s) rfl, decode_encode hi]

/-! ## A straight line of instructions -/

theorem execSeq_of_halted {s : State} (h : s.halted) (i : Instr) (is : List Instr) :
    execSeq (i :: is) s = .next s := by
  rw [execSeq, runFlag_eq, if_neg (Bool.eq_false_iff.mp h)]

/-- The first of a straight line goes on to the rest. -/
theorem execSeq_of_next {s t : State} {i : Instr} (hr : s.running) (he : exec i s.advance = .next t)
    (hip : t.ip = s.ip + 8) (is : List Instr) : execSeq (i :: is) s = execSeq is t := by
  simp [execSeq, hr, he, hip]

/-- The first of a straight line ends it, by a jump or without a next state. -/
theorem execSeq_of_leaves {s : State} {i : Instr} (hr : s.running)
    (h : ∀ t, exec i s.advance = .next t → t.ip ≠ s.ip + 8) (is : List Instr) :
    execSeq (i :: is) s = exec i s.advance := by
  rw [execSeq, runFlag_eq, if_pos hr]
  split
  next t ht => rw [if_neg (h t ht), ht]
  next hf => exact hf.symm
  next hf => exact hf.symm

/-- The instructions stand one after another from `$ip`, each still there in the state that those before it
leave. -/
def StandsAt (is : List Instr) (s : State) : Prop :=
  ∀ j i u, is[j]? = some i → execSeq (is.take j) s = .next u → decode (u.wordAt (s.ip.toNat + 8 * j)) = .ok i

/-- `m` steps are the straight line: all of it, or up to where it halts or jumps elsewhere. -/
def RunsAs (is : List Instr) (s : State) (m : Nat) : Prop :=
  Host.Core.run Sys2Proof.core m s = execSeq is s ∧
    (m < is.length → ∀ t, execSeq is s = .next t → t.halted ∨ t.ip ≠ s.ip + BitVec.ofNat 64 (8 * m))

/-- The first of a straight line is what stands at `$ip`. -/
theorem StandsAt.head {i : Instr} {is : List Instr} {s : State} (h : StandsAt (i :: is) s) :
    decode (s.wordAt s.ip.toNat) = .ok i := h 0 i s rfl rfl

/-- The rest of a straight line stands from the advanced `$ip`. -/
theorem StandsAt.tail {i : Instr} {is : List Instr} {s t : State} (h : StandsAt (i :: is) s) (hr : s.running)
    (he : exec i s.advance = .next t) (hip : t.ip = s.ip + 8) (hnat : t.ip.toNat = s.ip.toNat + 8) :
    StandsAt is t := by
  intro j i' u hj hu
  rw [hnat, show s.ip.toNat + 8 + 8 * j = s.ip.toNat + 8 * (j + 1) by omega]
  exact h (j + 1) i' u hj ((execSeq_of_next hr he hip _).trans hu)

/-- The first step and the run of the rest. -/
theorem RunsAs.cons {i : Instr} {is : List Instr} {s t : State} {m : Nat} (hr : s.running)
    (hstep : step s = exec i s.advance) (he : exec i s.advance = .next t) (hip : t.ip = s.ip + 8)
    (h : RunsAs is t m) : RunsAs (i :: is) s (m + 1) := by
  obtain ⟨hrun, hend⟩ := h
  have hseq := execSeq_of_next hr he hip is
  have hfirst := run_succ_of_next (M := core) (hstep.trans he) m
  refine ⟨hfirst.trans (hrun.trans hseq.symm), fun hm u hu => ?_⟩
  have haddr : s.ip + BitVec.ofNat 64 (8 * (m + 1)) = t.ip + BitVec.ofNat 64 (8 * m) := by
    rw [hip, Nat.mul_add, Nat.add_comm, BitVec.ofNat_add, BitVec.add_assoc]
    rfl
  rw [haddr]
  exact hend (by simpa using hm) u (hseq ▸ hu)

/-- What is left of a straight line in memory after its first instruction is one in memory. Where `$ip` wraps to
0, memory has ended and nothing is left. -/
theorem straightLine_tail {i : Instr} {is : List Instr} {s t : State} (hsize : s.mem.size ≤ 2 ^ 64)
    (hfits : s.fits s.ip.toNat (8 * (is.length + 1))) (hstand : StandsAt (i :: is) s) (hr : s.running)
    (he : exec i s.advance = .next t) (hip : t.ip = s.ip + 8) :
    t.mem.size = s.mem.size ∧ t.fits t.ip.toNat (8 * is.length) ∧ StandsAt is t := by
  have hmem : t.mem.size = s.mem.size := keepsSize_exec i s.advance t he
  have hnat : t.ip.toNat = (s.ip.toNat + 8) % 2 ^ 64 := by rw [hip, BitVec.toNat_add]; rfl
  refine ⟨hmem, ?_⟩
  rw [State.fits, hmem]
  cases is with
  | nil => exact ⟨by rw [List.length_nil]; omega, fun _ _ _ hj => by simp at hj⟩
  | cons i' is =>
    rw [List.length_cons] at hfits ⊢
    have hnowrap : t.ip.toNat = s.ip.toNat + 8 := by omega
    exact ⟨by omega, hstand.tail hr he hip hnowrap⟩

/-- A straight line in memory runs as `execSeq` says. -/
theorem exists_runsAs {is : List Instr} {s : State} (hsize : s.mem.size ≤ 2 ^ 64)
    (hfits : s.fits s.ip.toNat (8 * is.length)) (hstand : StandsAt is s) : ∃ m ≤ is.length, RunsAs is s m := by
  induction is generalizing s with
  | nil => exact ⟨0, Nat.le_refl 0, rfl, by simp⟩
  | cons i is ih =>
    rw [List.length_cons] at hfits
    rcases Bool.eq_false_or_eq_true (s.flag.getLsbD 4) with hr | hhalt
    · have hstep := step_of_decode hr (by rw [State.fits]; omega) hstand.head
      by_cases hnext : ∃ t, exec i s.advance = .next t ∧ t.ip = s.ip + 8
      · obtain ⟨t, he, hip⟩ := hnext
        obtain ⟨hmem, hrest, hstands⟩ := straightLine_tail hsize hfits hstand hr he hip
        obtain ⟨m, hm, hruns⟩ := ih (hmem ▸ hsize) hrest hstands
        exact ⟨m + 1, Nat.succ_le_succ hm, hruns.cons hr hstep he hip⟩
      · have hleaves (t : State) (he : exec i s.advance = .next t) : t.ip ≠ s.ip + 8 :=
          fun hip => hnext ⟨t, he, hip⟩
        have hseq := execSeq_of_leaves hr hleaves is
        exact ⟨1, by simp, (run_one core s).trans (hstep.trans hseq.symm),
          fun _ t ht => .inr (hleaves t (hseq ▸ ht))⟩
    · have hseq := execSeq_of_halted hhalt i is
      refine ⟨0, Nat.zero_le _, hseq.symm, fun _ t ht => .inl ?_⟩
      cases hseq.symm.trans ht
      exact hhalt

/-- Settles O10, by `step_of_stored` and `exists_runsAs`. -/
theorem storedInstructionsAreFetched : Obligations.StoredInstructionsAreFetched :=
  ⟨fun _ _ => step_of_stored, fun _ _ => exists_runsAs⟩

end Sys2Proof.Machine
end

section
/-! PROOFS. Encoding undoes decoding (spec/30_encoding.md R91 to R105): what the fields of a decoded word are. -/

namespace Sys2Proof

/-! ## The operands that decode, for each shape of fields -/

section
variable {f : Fields} {i : Instr}

/-- The fields of a register and a `<value>` that decode are the encoding of what they decode to. -/
theorem of_decodeRegValue {k : Reg → Operand → Instr} (h : decodeRegValue f k = .ok i) :
    ∃ d v, i = k d v ∧ Config.regNum d = f.dst ∧ encodeOperand v = f.value := by
  unfold decodeRegValue at h
  split at h
  next d v hd hv => cases h; exact ⟨d, v, rfl, regNum_of_decodeReg hd, encodeOperand_of_decodeOperand hv⟩
  all_goals cases h

theorem of_decodeRegRegValue {k : Reg → Reg → Operand → Instr} (h : decodeRegRegValue f k = .ok i) :
    ∃ d s v, i = k d s v ∧ Config.regNum d = f.dst ∧ Config.regNum s = f.src ∧ encodeOperand v = f.value := by
  unfold decodeRegRegValue at h
  split at h
  next d s v hd hs hv =>
    cases h
    exact ⟨d, s, v, rfl, regNum_of_decodeReg hd, regNum_of_decodeReg hs, encodeOperand_of_decodeOperand hv⟩
  all_goals cases h

theorem of_decodeRegReg {k : Reg → Reg → Instr} (h : decodeRegReg f k = .ok i) :
    ∃ d s, i = k d s ∧ Config.regNum d = f.dst ∧ Config.regNum s = f.src := by
  unfold decodeRegReg at h
  split at h
  next d s hd hs => cases h; exact ⟨d, s, rfl, regNum_of_decodeReg hd, regNum_of_decodeReg hs⟩
  all_goals cases h

/-- The same where an `<addr>` stands, which is then no immediate (R98). -/
theorem of_decodeRegAddr {k : Reg → Operand → Instr} (h : decodeRegAddr f k = .ok i) :
    ∃ r a, i = k r a ∧ Config.regNum r = f.dst ∧ encodeOperand a = f.value ∧ a.isAddr = true := by
  unfold decodeRegAddr at h
  split at h
  next r a hr ha =>
    cases h
    obtain ⟨ha, haddr⟩ := of_decodeAddr ha
    exact ⟨r, a, rfl, regNum_of_decodeReg hr, encodeOperand_of_decodeOperand ha, haddr⟩
  all_goals cases h

theorem of_decodeAddrOnly {k : Operand → Instr} (h : decodeAddrOnly f k = .ok i) :
    ∃ a, i = k a ∧ encodeOperand a = f.value ∧ a.isAddr = true := by
  unfold decodeAddrOnly at h
  split at h
  next a ha =>
    cases h
    obtain ⟨ha, haddr⟩ := of_decodeAddr ha
    exact ⟨a, rfl, encodeOperand_of_decodeOperand ha, haddr⟩
  all_goals cases h

theorem of_decodeValue {k : Operand → Instr} (h : decodeValue f k = .ok i) :
    ∃ v, i = k v ∧ encodeOperand v = f.value := by
  unfold decodeValue at h
  split at h
  next v hv => cases h; exact ⟨v, rfl, encodeOperand_of_decodeOperand hv⟩
  all_goals cases h
end

/-! ## The fields of a decoded word -/

section
variable {o : Op} {f : Fields} {d s : Reg} {v : Operand}

/-- The fields built from the conditional field of a word are the word's, every other made zero. -/
theorem conditional_cond (hop : Config.opcode o = f.opcode) :
    Fields.conditional o f.cond = f.only { test := true, cc := true } := by
  have bit : ∀ x : BitVec 1, (if x == 1 then 1 else 0) = x := by decide
  have htest : (if f.cond.test then 1 else 0) = f.test := bit f.test
  rw [Fields.conditional, htest, Fields.blank, reference_opcode, hop]
  rfl

theorem regValue_cond (hop : Config.opcode o = f.opcode) (hd : Config.regNum d = f.dst)
    (hv : encodeOperand v = f.value) :
    Fields.regValue o f.cond d v = f.only { test := true, cc := true, dst := true, value := true } := by
  rw [Fields.regValue, conditional_cond hop, reference_regNum, hd, hv]
  rfl

theorem regRegValue_cond (hop : Config.opcode o = f.opcode) (hd : Config.regNum d = f.dst)
    (hs : Config.regNum s = f.src) (hv : encodeOperand v = f.value) :
    Fields.regRegValue o f.cond d s v =
      f.only { test := true, cc := true, dst := true, src := true, value := true } := by
  rw [Fields.regRegValue, regValue_cond hop hd hv, reference_regNum, hs]
  rfl

theorem arithmetic_cond (hop : Config.opcode o = f.opcode) (hd : Config.regNum d = f.dst)
    (hs : Config.regNum s = f.src) (hv : encodeOperand v = f.value) :
    Fields.arithmetic o f.cond (decodeDType f.dtype) d s v =
      f.only { test := true, cc := true, dtype := true, dst := true, src := true, value := true } := by
  rw [Fields.arithmetic, regRegValue_cond hop hd hs hv, encodeDType_decodeDType]
  rfl

theorem valueOnly_cond (hop : Config.opcode o = f.opcode) (hv : encodeOperand v = f.value) :
    Fields.valueOnly o f.cond v = f.only { test := true, cc := true, value := true } := by
  rw [Fields.valueOnly, conditional_cond hop, hv]
  rfl
end

/-- What the fields of a word decode to under its opcode is a well-formed instruction of that opcode, and, where
no field outside its row of R93's table is set, has those fields. -/
theorem of_decodeAs {o : Op} {f : Fields} {i : Instr} (h : decodeAs o f = .ok i)
    (hop : Config.opcode o = f.opcode) (hu : f.only o.usage = f) :
    i.op = o ∧ i.wf = true ∧ encodeFields i = f := by
  cases o with
  | nop =>
    cases h
    refine ⟨rfl, rfl, Eq.trans ?_ hu⟩
    rw [encodeFields, Fields.blank, reference_opcode, hop]
    rfl
  | load | loadu | cmp =>
    obtain ⟨d, v, rfl, hd, hv⟩ := of_decodeRegValue h
    exact ⟨rfl, rfl, (regValue_cond hop hd hv).trans hu⟩
  | store =>
    obtain ⟨r, a, rfl, hr, ha, haddr⟩ := of_decodeRegAddr h
    exact ⟨rfl, haddr, (regValue_cond hop hr ha).trans hu⟩
  | add | sub | mul | div | idiv =>
    obtain ⟨d, s, v, rfl, hd, hs, hv⟩ := of_decodeRegRegValue h
    exact ⟨rfl, rfl, (arithmetic_cond hop hd hs hv).trans hu⟩
  | b =>
    obtain ⟨a, rfl, ha, haddr⟩ := of_decodeAddrOnly h
    refine ⟨rfl, haddr, Eq.trans ?_ hu⟩
    rw [encodeFields, Fields.blank, reference_opcode, hop, ha]
    rfl
  | not =>
    obtain ⟨d, s, rfl, hd, hs⟩ := of_decodeRegReg h
    refine ⟨rfl, rfl, Eq.trans ?_ hu⟩
    rw [encodeFields, conditional_cond hop, reference_regNum, hd, hs]
    rfl
  | and | or | xor | shr | shl =>
    obtain ⟨d, s, v, rfl, hd, hs, hv⟩ := of_decodeRegRegValue h
    exact ⟨rfl, rfl, (regRegValue_cond hop hd hs hv).trans hu⟩
  | push | call | syscall =>
    obtain ⟨v, rfl, hv⟩ := of_decodeValue h
    exact ⟨rfl, rfl, (valueOnly_cond hop hv).trans hu⟩
  | ret =>
    cases h
    exact ⟨rfl, rfl, (conditional_cond hop).trans hu⟩

/-- A word that decodes is the word of its instruction, which is well formed. -/
theorem encode_of_decode {w : Word} {i : Instr} (h : decode w = .ok i) : i.wf = true ∧ encode i = w := by
  obtain ⟨o, ho, -, hu, htop, has⟩ := decode_ok_iff.mp h
  obtain ⟨-, hwf, hfields⟩ := of_decodeAs has (opcode_of_opOfCode ho) hu
  exact ⟨hwf, by rw [encode, layoutOf_reference, hfields, toWord_ofWord htop]⟩

/-- Settles O1, by `decode_encode`. -/
theorem encodedInstructionDecodesToItself : Obligations.EncodedInstructionDecodesToItself :=
  fun _ => decode_encode

/-- Settles O2, by `encode_of_decode`. -/
theorem decodedWordEncodesBack : Obligations.DecodedWordEncodesBack :=
  fun _ _ => encode_of_decode

end Sys2Proof
end

section
/-! PROOFS. Which words are illegal (spec/30_encoding.md R104, R105): what each part of the decoder refuses, put
together by the usage table of R93, and held against `IllegalWord`. -/

namespace Sys2Proof.Machine

/-! ## Operands that are refused -/

/-- A field of a field of a word. -/
theorem extractLsb'_extractLsb' {n a l k m : Nat} (w : BitVec n) (h : k + m ≤ l) :
    (w.extractLsb' a l).extractLsb' k m = w.extractLsb' (a + k) m := by
  apply BitVec.eq_of_getLsbD_eq
  intro i hi
  simp only [BitVec.getLsbD_extractLsb', Nat.add_assoc, decide_eq_true (show k + i < l by omega), Bool.true_and]

/-- The indicator of the value field of a word. -/
theorem indicator_value (w : Word) : (w.extractLsb' 28 34).extractLsb' 0 2 = w.extractLsb' 28 2 :=
  extractLsb'_extractLsb' w (by decide)

theorem decodeRegOperand_error_iff (d : Half) (k : Reg → Operand) :
    (∃ e, decodeRegOperand d k = .error e) ↔ badRegNumber (d.extractLsb' 0 8) := by
  rw [badRegNumber, ← decodeReg_error_iff, decodeRegOperand, reference_reg]
  cases decodeReg (d.extractLsb' 0 8) <;> simp

/-- A value field is refused exactly for a stray bit in register mode or a number that names no register. -/
theorem decodeOperand_append_error_iff (d : Half) (i : BitVec 2) : (∃ e, decodeOperand (d ++ i) = .error e) ↔
    (i = 2 ∧ d.extractLsb' 8 24 ≠ 0) ∨ ((i = 2 ∨ i = 3) ∧ badRegNumber (d.extractLsb' 0 8)) := by
  have modes : ∀ i : BitVec 2, i = 0 ∨ i = 1 ∨ i = 2 ∨ i = 3 := by decide
  have hreg := decodeRegOperand_error_iff d
  rw [decodeOperand_append]
  rcases modes i with rfl | rfl | rfl | rfl
  case inr.inr.inl =>
    by_cases hz : d.extractLsb' 8 24 = 0
    · rw [if_neg (by decide), if_neg (by decide), if_pos rfl, if_neg (not_not.mpr hz), hreg]
      simp [hz]
    · rw [if_neg (by decide), if_neg (by decide), if_pos rfl, if_pos hz]
      exact ⟨fun _ => .inl ⟨rfl, hz⟩, fun _ => ⟨_, rfl⟩⟩
  case inr.inr.inr =>
    rw [if_neg (by decide), if_neg (by decide), if_neg (by decide), hreg]
    simp
  all_goals simp

/-- The operand of a word is refused exactly as R105 condition 4 says. -/
theorem decodeOperand_error_iff (w : Word) :
    (∃ e, decodeOperand (w.extractLsb' 28 34) = .error e) ↔ badValueField w := by
  have hdata : (w.extractLsb' 28 34).extractLsb' 2 32 = w.extractLsb' 30 32 := extractLsb'_extractLsb' w (by decide)
  have hnum : (w.extractLsb' 30 32).extractLsb' 0 8 = w.extractLsb' 30 8 := extractLsb'_extractLsb' w (by decide)
  have hoff : (w.extractLsb' 30 32).extractLsb' 8 24 = w.extractLsb' 38 24 := extractLsb'_extractLsb' w (by decide)
  rw [← append_extract_ind (w.extractLsb' 28 34), decodeOperand_append_error_iff, indicator_value, hdata, hnum, hoff]

/-- An immediate has indicator 0 and no other operand has (R95). -/
theorem indicator_encodeOperand (v : Operand) :
    (encodeOperand v).extractLsb' 0 2 = 0 ↔ v.isAddr = false := by
  cases v <;> simp [encodeOperand, (extract_append_ind _ _).1, Operand.isAddr]

/-- The `<addr>` of a word is refused where its operand is, and where it is immediate (R105 condition 5). -/
theorem decodeAddr_error_iff (w : Word) :
    (∃ e, decodeAddr (w.extractLsb' 28 34) = .error e) ↔ badValueField w ∨ w.extractLsb' 28 2 = 0 := by
  rw [← decodeOperand_error_iff, decodeAddr]
  cases h : decodeOperand (w.extractLsb' 28 34) with
  | error e => simp
  | ok v =>
    rw [← indicator_value, ← encodeOperand_of_decodeOperand h, indicator_encodeOperand]
    cases h : v.isAddr <;> simp [h]

/-! ## Words that are refused -/

/-- A field outside those an instruction uses is not zero. -/
theorem only_ne_iff (f : Fields) (u : Usage) : f.only u ≠ f ↔
    (u.test = false ∧ f.test ≠ 0) ∨ (u.cc = false ∧ f.cc ≠ 0) ∨ (u.dtype = false ∧ f.dtype ≠ 0) ∨
      (u.dst = false ∧ f.dst ≠ 0) ∨ (u.src = false ∧ f.src ≠ 0) ∨ (u.value = false ∧ f.value ≠ 0) := by
  have cleared {n : Nat} (b : Bool) (x : BitVec n) : ¬ (if b then x else 0) = x ↔ b = false ∧ x ≠ 0 := by
    cases b
    · simpa using ne_comm
    · simp
  obtain ⟨o, test, cc, dtype, dst, src, value⟩ := f
  simp only [Fields.only, ne_eq, Fields.mk.injEq, true_and, not_and_or, cleared]

section
variable (f : Fields)

theorem decodeRegValue_error_iff (k : Reg → Operand → Instr) : (∃ e, decodeRegValue f k = .error e) ↔
    badRegNumber f.dst ∨ ∃ e, decodeOperand f.value = .error e := by
  rw [badRegNumber, ← decodeReg_error_iff, decodeRegValue]
  cases decodeReg f.dst <;> cases decodeOperand f.value <;> simp

theorem decodeRegAddr_error_iff (k : Reg → Operand → Instr) : (∃ e, decodeRegAddr f k = .error e) ↔
    badRegNumber f.dst ∨ ∃ e, decodeAddr f.value = .error e := by
  rw [badRegNumber, ← decodeReg_error_iff, decodeRegAddr]
  cases decodeReg f.dst <;> cases decodeAddr f.value <;> simp

theorem decodeRegReg_error_iff (k : Reg → Reg → Instr) : (∃ e, decodeRegReg f k = .error e) ↔
    badRegNumber f.dst ∨ badRegNumber f.src := by
  rw [badRegNumber, badRegNumber, ← decodeReg_error_iff, ← decodeReg_error_iff, decodeRegReg]
  cases decodeReg f.dst <;> cases decodeReg f.src <;> simp

theorem decodeRegRegValue_error_iff (k : Reg → Reg → Operand → Instr) :
    (∃ e, decodeRegRegValue f k = .error e) ↔
      badRegNumber f.dst ∨ badRegNumber f.src ∨ ∃ e, decodeOperand f.value = .error e := by
  rw [badRegNumber, badRegNumber, ← decodeReg_error_iff, ← decodeReg_error_iff, decodeRegRegValue]
  cases decodeReg f.dst <;> cases decodeReg f.src <;> cases decodeOperand f.value <;> simp

theorem decodeValue_error_iff (k : Operand → Instr) :
    (∃ e, decodeValue f k = .error e) ↔ ∃ e, decodeOperand f.value = .error e := by
  rw [decodeValue]
  cases decodeOperand f.value <;> simp

theorem decodeAddrOnly_error_iff (k : Operand → Instr) :
    (∃ e, decodeAddrOnly f k = .error e) ↔ ∃ e, decodeAddr f.value = .error e := by
  rw [decodeAddrOnly]
  cases decodeAddr f.value <;> simp
end

/-- The operands of a word with an assigned opcode are refused exactly where a register or value field that the
instruction uses is bad, or its `<addr>` is immediate (R105 conditions 3, 4 and 5). -/
theorem decodeAs_error_iff (o : Op) (w : Word) :
    (∃ e, decodeAs o (Fields.ofWord w .arithmetic) = .error e) ↔
      (o.usage.dst = true ∧ badRegNumber (w.extractLsb' 12 8)) ∨
      (o.usage.src = true ∧ badRegNumber (w.extractLsb' 20 8)) ∨
      (o.usage.value = true ∧ badValueField w) ∨ ((o = .store ∨ o = .b) ∧ w.extractLsb' 28 2 = 0) := by
  have hv : (∃ e, decodeOperand (Fields.ofWord w .arithmetic).value = .error e) ↔ badValueField w :=
    decodeOperand_error_iff w
  have ha : (∃ e, decodeAddr (Fields.ofWord w .arithmetic).value = .error e) ↔
      badValueField w ∨ w.extractLsb' 28 2 = 0 := decodeAddr_error_iff w
  have hd : (Fields.ofWord w .arithmetic).dst = w.extractLsb' 12 8 := rfl
  have hs : (Fields.ofWord w .arithmetic).src = w.extractLsb' 20 8 := rfl
  cases o with
  | nop | ret => simp [decodeAs, Op.usage]
  | load | loadu | cmp =>
    rw [decodeAs, decodeRegValue_error_iff, hv, hd]
    simp [Op.usage]
  | store =>
    rw [decodeAs, decodeRegAddr_error_iff, ha, hd]
    simp [Op.usage]
  | add | sub | mul | div | idiv | and | or | xor | shr | shl =>
    rw [decodeAs, decodeRegRegValue_error_iff, hv, hd, hs]
    simp [Op.usage]
  | b =>
    rw [decodeAs, decodeAddrOnly_error_iff, ha]
    simp [Op.usage]
  | not =>
    rw [decodeAs, decodeRegReg_error_iff, hd, hs]
    simp [Op.usage]
  | push | call | syscall =>
    rw [decodeAs, decodeValue_error_iff, hv]
    simp [Op.usage]

/-- What R105 refuses under an assigned opcode, with the fields each row of R93's table uses read off
`Op.usage`. -/
def IllegalUnder (o : Op) (w : Word) : Prop :=
  (o = .nop ∧ w ≠ 0) ∨ w.extractLsb' 62 2 ≠ 0 ∨
  (Fields.ofWord w .arithmetic).only o.usage ≠ Fields.ofWord w .arithmetic ∨
  (o.usage.dst = true ∧ badRegNumber (w.extractLsb' 12 8)) ∨
  (o.usage.src = true ∧ badRegNumber (w.extractLsb' 20 8)) ∨
  (o.usage.value = true ∧ badValueField w) ∨ ((o = .store ∨ o = .b) ∧ w.extractLsb' 28 2 = 0)

/-- A word with an assigned opcode is refused exactly so. -/
theorem decode_error_iff {w : Word} {o : Op} (ho : opOfCode (opcodeOf w) = some o) :
    (∃ e, decode w = .error e) ↔ IllegalUnder o w := by
  rw [IllegalUnder, ← decodeAs_error_iff, decode]
  simp only [ho, layoutOf_reference, reference_reservedNonzero, true_and]
  by_cases hn : o = .nop ∧ w ≠ 0
  · rw [if_pos hn]
    exact ⟨fun _ => .inl hn, fun _ => ⟨_, rfl⟩⟩
  · rw [if_neg hn]
    have hs := strayBits_iff w o.usage
    cases h : strayBits w .arithmetic o.usage with
    | true =>
      have hstray : w.extractLsb' 62 2 ≠ 0 ∨
          (Fields.ofWord w .arithmetic).only o.usage ≠ Fields.ofWord w .arithmetic := by
        rw [ne_eq, ne_eq, ← not_and_or, and_comm, ← hs, h]
        decide
      exact ⟨fun _ => .inr (hstray.imp id .inl), fun _ => ⟨_, rfl⟩⟩
    | false =>
      obtain ⟨hu, htop⟩ := hs.mp h
      simp only [hn, hu, htop, ne_eq, not_true, false_or, Bool.false_eq_true, if_false]

/-- `IllegalWord` under an assigned opcode: its clause for that opcode names the same bits, those of `b` in
another order and its test bit by number. For opcode 0 the other clauses add nothing to a word that is not zero. -/
theorem illegalWord_iff_of_op {w : Word} {o : Op} (ho : opOfCode (opcodeOf w) = some o) :
    IllegalWord w ↔ IllegalUnder o w := by
  have hk : w.extractLsb' 0 6 = Config.opcode o := (opcode_of_opOfCode ho).symm
  simp only [IllegalWord, hk, IllegalUnder, only_ne_iff]
  cases o with
  | nop =>
    by_cases hw : w = 0
    · subst hw
      simp [Op.usage, Fields.ofWord, Config.opcode]
    · exact iff_of_true (.inr (.inl ⟨rfl, hw⟩)) (.inl ⟨rfl, hw⟩)
  | b =>
    have bit : ∀ x : BitVec 1, x ≠ 0 ↔ x.getLsbD 0 = true := by decide
    have htest : w.extractLsb' 6 1 ≠ 0 ↔ w.getLsbD 6 = true := (bit _).trans (by simp)
    simp only [← htest]
    simp [Config.opcode, Op.usage, Fields.ofWord, FieldLayout.arithmetic, or_assoc,
      or_comm (a := badValueField w)]
  | _ => simp [Config.opcode, Op.usage, Fields.ofWord, FieldLayout.arithmetic, or_assoc]

/-- The decoder refuses exactly the illegal words (R105). -/
theorem decode_error_iff_illegalWord (w : Word) : (∃ e, decode w = .error e) ↔ IllegalWord w := by
  cases ho : opOfCode (opcodeOf w) with
  | none =>
    have hk : 20 < (w.extractLsb' 0 6).toNat := (opOfCode_eq_none_iff _).mp ho
    exact ⟨fun _ => .inl hk, fun _ => ⟨.unassignedOpcode, by rw [decode, ho]⟩⟩
  | some o => rw [decode_error_iff ho, illegalWord_iff_of_op ho]

/-- The zero word and no other is `nop` (R104). -/
theorem decode_eq_nop_iff (w : Word) : decode w = .ok .nop ↔ w = 0 := by
  have hzero : encode .nop = 0 := by decide
  constructor
  · intro h
    rw [← (encode_of_decode h).2, hzero]
  · rintro rfl
    exact hzero ▸ decode_encode rfl

/-- Settles O4, by `decode_error_iff_illegalWord` and `step_of_running`. -/
theorem illegalWordsAreRefusedAndFault : Obligations.IllegalWordsAreRefusedAndFault := by
  refine ⟨decode_error_iff_illegalWord, fun s hr hf hw => ?_⟩
  obtain ⟨e, he⟩ := (decode_error_iff_illegalWord _).mpr hw
  refine ⟨_, ?_, faulted_spec s.advance _⟩
  rw [step_of_running hr, if_pos hf, he]

/-- Settles O5, by `decode_eq_nop_iff` and the second condition of `IllegalWord`. -/
theorem zeroWordAloneIsNop : Obligations.ZeroWordAloneIsNop := by
  refine fun w => ⟨decode_eq_nop_iff w, fun hop hw => (decode_error_iff_illegalWord w).mpr ?_⟩
  exact .inr (.inl ⟨congrArg BitVec.toNat hop, hw⟩)

end Sys2Proof.Machine
end

section
/-! PROOFS. The instruction cycle (spec/30_encoding.md R107), the conditional field (R101) and the operands
(R97, R98) of `exec`. -/

namespace Sys2Proof.Machine

variable {s : State}

/-! ## The step -/

/-- Settles O6, by `step_of_decode`. -/
theorem stepRunsTheDecodedInstruction : Obligations.StepRunsTheDecodedInstruction :=
  fun _ _ => step_of_decode

/-- Settles O7, by the fetch fault of `step_of_running`. -/
theorem fetchOutsideMemoryFaults : Obligations.FetchOutsideMemoryFaults := by
  intro s hr hf
  refine ⟨_, ?_, faulted_spec s _⟩
  rw [step_of_running hr, if_neg hf]

/-! ## The conditional field -/

/-- An instruction around an `<addr>` goes on where the operand names an address. -/
theorem withAddr_of_isAddr {i : Instr} {a : Operand} (h : a.isAddr = true) (k : Word → Outcome) :
    ∃ x, s.addr a = some x ∧ withAddr s i a k = k x := by
  obtain ⟨x, hx⟩ := addr_isSome (s := s) h
  exact ⟨x, hx, by rw [withAddr, hx]⟩

/-- A well-formed instruction whose test fails does nothing (R101). -/
theorem exec_of_condition_fails {i : Instr} {c : Cond} (hwf : i.wf = true) (hi : condOf i = some c)
    (hc : ¬ condHolds c s) : exec i s = .next s := by
  cases i with
  | nop | b => cases hi
  | store c r a =>
    cases hi
    obtain ⟨x, -, hx⟩ := withAddr_of_isAddr (s := s) (i := .store c r a) hwf _
    exact hx.trans (conditional_of_not hc _)
  | _ => cases hi; exact conditional_of_not hc _

/-- Settles O21, by `exec_of_condition_fails`. -/
theorem failedTestSkipsTheInstruction : Obligations.FailedTestSkipsTheInstruction :=
  fun _ _ _ => exec_of_condition_fails

/-- What `cmp` does where its test passes and its operand can be read (spec/42_branching.md R180). -/
theorem exec_cmp_of_readable {c : Cond} {r : Reg} {v : Operand} (hc : condHolds c s) (hv : s.readable v) :
    exec (.cmp c r v) s = .next { s with flag := withCmp s.flag (compareCode (s.reg r) (s.operandValue v)) } :=
  valued_of_readable hc hv fun y => { s with flag := withCmp s.flag (compareCode (s.reg r) y) }

/-- The codes `cmp` writes: one for each relation of the signed operands, and no other (R180). -/
theorem compareCode_cases (x y : Word) :
    (x.toInt = y.toInt ∧ compareCode x y = ccEq) ∨ (x.toInt < y.toInt ∧ compareCode x y = ccLt) ∨
      (y.toInt < x.toInt ∧ compareCode x y = ccGt) := by
  unfold compareCode
  split_ifs with heq hlt
  · exact .inl ⟨heq, rfl⟩
  · exact .inr (.inl ⟨hlt, rfl⟩)
  · exact .inr (.inr ⟨by omega, rfl⟩)

/-- Settles O22: the test compares its bits with the code `cmp` wrote. -/
theorem afterCmpOnlyEqLtGtPass : Obligations.AfterCmpOnlyEqLtGtPass := by
  intro c r v s hc hv
  refine ⟨_, exec_cmp_of_readable hc hv, ?_⟩
  have htest (f : Word) (k cc : BitVec 3) :
      condHolds ⟨true, cc⟩ { s with flag := withCmp f k } ↔ cc = k := by
    have := cmpBits_withCmp f k
    rw [cmpBits] at this
    simp only [condHolds, this, true_imp_iff]
  simp only [htest]
  obtain ⟨h, hcode⟩ | ⟨h, hcode⟩ | ⟨h, hcode⟩ := compareCode_cases (s.reg r) (s.operandValue v)
  · rw [hcode]
    exact ⟨iff_of_true rfl h, iff_of_false (by decide) (by omega), iff_of_false (by decide) (by omega),
      by decide, by decide, by decide⟩
  · rw [hcode]
    exact ⟨iff_of_false (by decide) (by omega), iff_of_true rfl h, iff_of_false (by decide) (by omega),
      by decide, by decide, by decide⟩
  · rw [hcode]
    exact ⟨iff_of_false (by decide) (by omega), iff_of_false (by decide) (by omega), iff_of_true rfl h,
      by decide, by decide, by decide⟩

/-! ## Operands -/

/-- An operand that cannot be read is a fault of every instruction that has a `<value>`, before anything else
that it does (R97, spec/60_exceptions.md R286). -/
theorem exec_of_unreadable {i : Instr} {v : Operand} {c : Cond} {a : Word} (hv : valueOf i = some v)
    (hi : condOf i = some c) (hc : condHolds c s) (hp : s.place v = some a) (hf : ¬ s.fits a.toNat 4) :
    exec i s = .next (s.faulted (.memoryFault a.toNat 4)) := by
  have hfault (k : Word → Outcome) :
      conditional c s (withValue s v k) = .next (s.faulted (.memoryFault a.toNat 4)) := by
    rw [conditional_of_holds hc, withValue_of_not hp hf]
  cases i with
  | nop | store | b | not | ret => cases hv
  | _ => cases hv; cases hi; exact hfault _

/-- Settles O25, by `exec_of_unreadable`. -/
theorem unreadableOperandFaults : Obligations.UnreadableOperandFaults :=
  fun _ _ _ _ s hv hi hc hp hf => ⟨_, exec_of_unreadable hv hi hc hp hf, faulted_spec s _⟩

/-- The value of an operand that names an address in memory is the four bytes there (R97). -/
theorem value_of_addr {v : Operand} {a : Word} (hreg : ∀ r, v ≠ .reg r) (ha : s.addr v = some a)
    (hf : s.fits a.toNat 4) : s.value v = .ok ((s.halfAt a.toNat).setWidth 64) := by
  cases v with
  | imm d => cases ha
  | reg r => exact absurd rfl (hreg r)
  | mem m | regOff r n => cases ha; exact memValue_of_fits hf

/-- Settles O24: the modes by the definition of `State.addr`, the value by `value_of_addr`. -/
theorem addressOfEachMode : Obligations.AddressOfEachMode :=
  fun _ => ⟨fun _ => rfl, fun _ => rfl, fun _ => rfl, fun _ _ => rfl, fun _ _ => value_of_addr,
    fun _ _ ha => congrArg Except.ok (Option.some.inj ha)⟩

/-- An immediate where an `<addr>` stands is a fault of the instruction's word, before any test (log entry
14). -/
theorem exec_store_imm (c : Cond) (r : Reg) (d : Half) (s : State) : exec (.store c r (.imm d)) s =
    .next (s.faulted (.illegalInstruction (encode (.store c r (.imm d))))) := rfl

theorem exec_b_imm (cnd : BitVec 3) (d : Half) (s : State) : exec (.b cnd (.imm d)) s =
    .next (s.faulted (.illegalInstruction (encode (.b cnd (.imm d))))) := rfl

/-- Settles O26, by `exec_store_imm` and `exec_b_imm`. -/
theorem immediateAddressFaults : Obligations.ImmediateAddressFaults :=
  fun c r cnd d s => ⟨⟨_, exec_store_imm c r d s, faulted_spec s _⟩, ⟨_, exec_b_imm cnd d s, faulted_spec s _⟩⟩

end Sys2Proof.Machine
end

section
/-! PROOFS. Data transfer (spec/40_data_transfer.md): `load`, `loadu`, `store`, and the pseudo-instructions
`loadl` of a constant and `zero` as they are expanded. -/

namespace Sys2Proof.Machine

variable {i : Instr} {s t u : State}

/-! ## Printed words -/

/-- A word decodes to the well-formed instruction it is the word of. -/
theorem decode_of_encode {w : Word} (h : i.wf = true) (hw : encode i = w) : decode w = .ok i :=
  hw ▸ decode_encode h

/-- Settles O3: each printed word is the word of the instruction printed beside it. -/
theorem printedWordsDecode : Obligations.PrintedWordsDecode :=
  ⟨decode_of_encode rfl rfl, decode_of_encode rfl rfl, decode_of_encode rfl rfl, decode_of_encode rfl rfl,
    decode_of_encode rfl rfl, decode_of_encode rfl rfl, decode_of_encode rfl rfl, decode_of_encode rfl rfl,
    decode_of_encode rfl rfl, decode_of_encode rfl rfl, decode_of_encode rfl rfl, decode_of_encode rfl rfl⟩

/-! ## `load` and `loadu` -/

/-- Without its test bit a conditional test passes (spec/30_encoding.md R101). -/
theorem condHolds_always (s : State) : condHolds .always s := nofun

theorem readable_imm (s : State) (d : Half) : s.readable (.imm d) := nofun

theorem readable_reg (s : State) (r : Reg) : s.readable (.reg r) := nofun

/-- An instruction with a destination, a `<value>` and a result, where its test passes and the value can be
read. -/
theorem writes_of_readable {c : Cond} {d : Reg} {v : Operand} {x : Word} (hd : destOf i = some d)
    (hi : condOf i = some c) (hv : valueOf i = some v) (hc : condHolds c s) (hr : s.readable v)
    (hx : resultOf i s = some x) : Writes i s d x := by
  have hread : ∀ w ∈ valueOf i, s.readable w := by
    rw [hv]
    rintro _ ⟨⟩
    exact hr
  exact ⟨_, exec_of_resultOf hd hi hc hread hx, writeDest_spec s d x⟩

/-- Settles O32, by `writes_of_readable`. -/
theorem loadWritesItsOperand : Obligations.LoadWritesItsOperand :=
  fun _ _ _ _ hc hv => writes_of_readable rfl rfl rfl hc hv rfl

/-- What `loadu` writes: the low half of its value over the low half of the register (R141). -/
theorem writes_loadu {c : Cond} {d : Reg} {v : Operand} (hc : condHolds c s) (hv : s.readable v) :
    Writes (.loadu c d v) s d (upperHalf (s.reg d) (s.operandValue v)) :=
  writes_of_readable rfl rfl rfl hc hv rfl

/-- Settles O33, by `writes_loadu`: the halves of the word written are the two that `upperHalf` joins. -/
theorem loaduReplacesTheUpperHalf : Obligations.LoaduReplacesTheUpperHalf :=
  fun _ _ _ _ hc hv => ⟨_, writes_loadu hc hv, BitVec.extractLsb'_append_eq_left,
    BitVec.extractLsb'_append_eq_right⟩

/-! ## `store` -/

/-- What `store` does where its test passes and its operand names an address: the write of R144. -/
theorem exec_store_of_addr {c : Cond} {r : Reg} {a : Operand} {x : Word} (hc : condHolds c s)
    (ha : s.addr a = some x) :
    exec (.store c r a) s = orRaise s (s.memWrite x 4 (s.reg r).toNat) .next := by
  rw [exec, execStore, withAddr, ha]
  exact conditional_of_holds hc _

/-- Settles O34: the write is in range, and `memWrite_of_fits` says what it leaves, or it is a fault. -/
theorem storeWritesFourBytes : Obligations.StoreWritesFourBytes := by
  refine fun c r a x s hc ha => ⟨fun hf => ?_, fun hf => ?_⟩
  · refine ⟨_, (exec_store_of_addr hc ha).trans (by rw [memWrite_of_fits hf, orRaise_ok]), ?_, ?_, ?_, ?_⟩
    · rw [halfAt_setBytes rfl, BitVec.ofNat_toNat, BitVec.setWidth_eq_extractLsb' (by decide)]
    · exact memSameOutside_setBytes s _ _ (bytesOfNat 4 _) rfl
    · exact fun y _ => reg_with_mem s _ y
    · exact ⟨rfl, rfl, rfl⟩
  · exact ⟨_, (exec_store_of_addr hc ha).trans (by rw [memWrite_of_not hf, orRaise_error]), faulted_spec s _⟩

/-! ## Straight lines of instructions with a destination -/

theorem reg_advance (s : State) (r : Reg) : s.advance.reg r = if r = .ip then s.ip + 8 else s.reg r :=
  reg_with_ip s _ r

theorem advance_advance (s : State) : s.advance.advance = { s with ip := s.ip + 16 } := by
  simp [State.advance, BitVec.add_assoc]

/-- A straight line of one instruction is that instruction. -/
theorem execSeq_singleton (hr : s.running) (h : exec i s.advance = .next t) : execSeq [i] s = .next t := by
  simp [execSeq, hr, h]

theorem WroteDest.ip_eq {d : Reg} {x : Word} (h : WroteDest s t d x) (hip : d ≠ .ip) : t.ip = s.ip :=
  h.regs .ip (by simp [hip.symm])

/-- A write to a register other than `$ip` goes on to the next instruction. -/
theorem execSeq_of_wroteDest {d : Reg} {x : Word} (hr : s.running) (he : exec i s.advance = .next t)
    (h : WroteDest s.advance t d x) (hip : d ≠ .ip) (is : List Instr) : execSeq (i :: is) s = execSeq is t :=
  execSeq_of_next hr he (h.ip_eq hip) is

/-- A write to a register other than `$flag` leaves the machine running. -/
theorem running_of_wroteDest {d : Reg} {x : Word} (hr : s.running) (h : WroteDest s t d x) (hflag : d ≠ .flag) :
    t.running := by
  rw [State.running, h.flag 4 (by decide), if_neg hflag]
  exact hr

/-- Two instructions one after another that write the same register, not `$ip` or `$flag`, leave what the
second writes. -/
theorem WroteDest.overwrite {d : Reg} {x y : Word} (hx : WroteDest s t d x) (hy : WroteDest t.advance u d y)
    (hip : d ≠ .ip) (hflag : d ≠ .flag) : WroteDest s.advance u d y where
  dest := hy.dest
  z := hy.z
  flag n hn := by
    rw [hy.flag n hn, if_neg hflag, if_neg hflag, advance_flag, hx.flag n hn, if_neg hflag, advance_flag]
  regs r hr := by
    rw [hy.regs r hr, reg_advance, reg_advance, hx.regs r hr, hx.ip_eq hip]
  mem := hy.mem.trans hx.mem
  host := ⟨hy.host.events.trans hx.host.events, hy.host.consumed.trans hx.host.consumed,
    hy.host.reason.trans hx.host.reason⟩

/-- Which value is written to `$zero` makes no difference (spec/10_state.md R27). -/
theorem WroteDest.of_zero {x y : Word} (h : WroteDest s t .zero x) : WroteDest s t .zero y where
  dest hz := absurd rfl hz
  z := by simpa using h.z
  flag := h.flag
  regs := h.regs
  mem := h.mem
  host := h.host

/-! ## `loadl` of a constant -/

/-- The two immediates of `loadl` make up its constant (R142). -/
theorem upperHalf_constant (k : Word) : upperHalf ((lowHalf k).setWidth 64) ((highHalf k).setWidth 64) = k := by
  have hlow (x : Half) : lowHalf (x.setWidth 64) = x := by
    rw [lowHalf, BitVec.extractLsb'_setWidth_of_le (by decide), BitVec.extractLsb'_eq_self]
  rw [upperHalf, hlow, hlow]
  exact BitVec.extractLsb'_append_extractLsb'

/-- A register that holds the low half of a constant gets the whole of it by `loadu` of the high half (R142). -/
theorem writes_loadu_high {d : Reg} {k : Word} (h : d ≠ .zero → s.reg d = (lowHalf k).setWidth 64) :
    Writes (.loadu .always d (.imm (highHalf k))) s d k := by
  obtain ⟨t, he, hw⟩ := writes_loadu (d := d) (condHolds_always s) (readable_imm s (highHalf k))
  refine ⟨t, he, ?_⟩
  by_cases hz : d = .zero
  · subst hz
    exact hw.of_zero
  · rw [h hz] at hw
    exact upperHalf_constant k ▸ hw

/-- Settles O55: `load` writes the low half, `loadu` over it the whole. -/
theorem loadlLoadsAConstant : Obligations.LoadlLoadsAConstant := by
  rintro d k _ s hr hip hflag ⟨⟩
  obtain ⟨t, hload, ht⟩ : Writes (.load .always d (.imm (lowHalf k))) s.advance d ((lowHalf k).setWidth 64) :=
    loadWritesItsOperand _ _ _ _ (condHolds_always _) (readable_imm _ _)
  have hrun : t.running := running_of_wroteDest (s := s.advance) hr ht hflag
  have hlow (hz : d ≠ .zero) : t.advance.reg d = (lowHalf k).setWidth 64 := by
    rw [reg_advance, if_neg hip, ht.dest hz hflag]
  obtain ⟨u, hloadu, hu⟩ := writes_loadu_high hlow
  refine ⟨u, ?_, advance_advance s ▸ ht.overwrite hu hip hflag⟩
  rw [execSeq_of_wroteDest hr hload ht hip, execSeq_singleton hrun hloadu]

/-! ## `zero` -/

/-- Settles O56: the expansion writes the register's exclusive or with itself. -/
theorem zeroClearsTheRegister : Obligations.ZeroClearsTheRegister := by
  rintro d _ s hr ⟨⟩
  obtain ⟨t, he, ht⟩ : Writes (.xor .always d d (.reg d)) s.advance d (s.advance.reg d ^^^ s.advance.reg d) :=
    writes_of_readable rfl rfl rfl (condHolds_always _) (readable_reg _ d) rfl
  rw [BitVec.xor_self] at ht
  exact ⟨t, execSeq_singleton hr he, ht⟩

end Sys2Proof.Machine
end

section
/-! PROOFS. The arithmetic class (spec/41_arithmetic.md): `add`, `sub` and `mul` of every data type, and the
integer quotients of `div` and `idiv`. -/

namespace Sys2Proof.Machine

variable {s : State} {c : Cond} {d r : Reg} {v : Operand}

/-! ## `add`, `sub` and `mul` of integers -/

/-- The difference of two words as a sum of residues (R162). -/
theorem toNat_sub_word (a b : Word) : (a - b).toNat = (a.toNat + (2 ^ 64 - b.toNat)) % 2 ^ 64 := by
  rw [BitVec.toNat_sub, Nat.add_comm]

/-- The low half of a word is its residue. -/
theorem toNat_lowHalf (a : Word) : (lowHalf a).toNat = a.toNat % 2 ^ 32 := by
  rw [lowHalf_eq, BitVec.extractLsb'_toNat, Nat.shiftRight_zero]

/-- Sums, differences and products of the low halves, zero-extended, do not depend on the upper halves
(R160 to R163). -/
theorem toNat_ext32_add (a b : Word) :
    (ext32 (lowHalf a + lowHalf b)).toNat = (a.toNat + b.toNat) % 2 ^ 32 := by
  rw [ext32_eq, toNat_setWidth_half, BitVec.toNat_add, toNat_lowHalf, toNat_lowHalf, ← Nat.add_mod]

theorem toNat_ext32_sub (a b : Word) :
    (ext32 (lowHalf a - lowHalf b)).toNat = (a.toNat + (2 ^ 64 - b.toNat)) % 2 ^ 32 := by
  rw [ext32_eq, toNat_setWidth_half, BitVec.toNat_sub, toNat_lowHalf, toNat_lowHalf]
  omega

theorem toNat_ext32_mul (a b : Word) :
    (ext32 (lowHalf a * lowHalf b)).toNat = (a.toNat * b.toNat) % 2 ^ 32 := by
  rw [ext32_eq, toNat_setWidth_half, BitVec.toNat_mul, toNat_lowHalf, toNat_lowHalf, ← Nat.mul_mod]

/-- Settles O35: each instruction writes the result of its operation, whose residue the lemmas above give. -/
theorem addSubMulWrap : Obligations.AddSubMulWrap :=
  fun _ _ _ _ _ hc hv =>
    ⟨⟨_, writes_of_readable rfl rfl rfl hc hv rfl, BitVec.toNat_add _ _⟩,
      ⟨_, writes_of_readable rfl rfl rfl hc hv rfl, toNat_sub_word _ _⟩,
      ⟨_, writes_of_readable rfl rfl rfl hc hv rfl, BitVec.toNat_mul _ _⟩,
      ⟨_, writes_of_readable rfl rfl rfl hc hv rfl, toNat_ext32_add _ _⟩,
      ⟨_, writes_of_readable rfl rfl rfl hc hv rfl, toNat_ext32_sub _ _⟩,
      ⟨_, writes_of_readable rfl rfl rfl hc hv rfl, toNat_ext32_mul _ _⟩⟩

/-! ## `add`, `sub` and `mul` of floats and doubles -/

/-- Settles O38: the result of each instruction is the function of `NUM` itself. -/
theorem floatResultsAreThoseOfNum : Obligations.FloatResultsAreThoseOfNum := by
  rintro c d r v s _ _ hc hv rfl rfl
  exact ⟨writes_of_readable rfl rfl rfl hc hv rfl, writes_of_readable rfl rfl rfl hc hv rfl,
    writes_of_readable rfl rfl rfl hc hv rfl, writes_of_readable rfl rfl rfl hc hv rfl,
    writes_of_readable rfl rfl rfl hc hv rfl, writes_of_readable rfl rfl rfl hc hv rfl⟩

/-! ## `div` and `idiv` of integers -/

/-- The remainder of a quotient rounded toward zero is smaller than the divisor (R167). -/
theorem abs_tmod_lt (x : Int) {y : Int} (hy : y ≠ 0) : |x.tmod y| < |y| := by
  rw [Int.abs_eq_natAbs, Int.abs_eq_natAbs, Int.natAbs_tmod]
  exact_mod_cast Nat.mod_lt _ (Int.natAbs_pos.mpr hy)

/-- The remainder of a quotient rounded toward zero is 0 or has the dividend's sign (R167). -/
theorem tmod_eq_zero_or_neg_iff (x y : Int) : x.tmod y = 0 ∨ (x.tmod y < 0 ↔ x < 0) := by
  have hsign := Int.sign_tmod x y
  split at hsign
  · exact .inl (Int.sign_eq_zero_iff_zero.mp hsign)
  · exact .inr (by rw [← Int.sign_eq_neg_one_iff_neg, hsign, Int.sign_eq_neg_one_iff_neg])

/-- The integer quotient under the reference rounding is the signed quotient of bit vectors. -/
theorem intQuot_trunc {n : Nat} (x y : BitVec n) : intQuot .trunc x y = x.sdiv y :=
  BitVec.eq_of_toInt_eq ((BitVec.toInt_ofInt _).trans (BitVec.toInt_sdiv x y).symm)

/-- `q` is the signed quotient of `x` by `y` rounded toward zero (R167), as O36 says it for either width. -/
def RoundsTowardZero {n : Nat} (x y q : BitVec n) : Prop :=
  ∃ m : Int, x.toInt = q.toInt * y.toInt + m ∧ |m| < |y.toInt| ∧ (m = 0 ∨ (m < 0 ↔ x.toInt < 0))

/-- But for the overflow `MIN / -1`, the integer quotient by a divisor that is not zero is the exact one. -/
theorem intQuot_roundsTowardZero {n : Nat} {x y : BitVec n} (hy : y ≠ 0)
    (hov : ¬ (x = BitVec.intMin n ∧ y = -1)) : RoundsTowardZero x y (intQuot .trunc x y) := by
  have hne : y.toInt ≠ 0 := fun h => hy (BitVec.eq_of_toInt_eq (h.trans BitVec.toInt_zero.symm))
  refine ⟨x.toInt.tmod y.toInt, ?_, abs_tmod_lt _ hne, tmod_eq_zero_or_neg_iff _ _⟩
  rw [intQuot_trunc, BitVec.toInt_sdiv_of_ne_or_ne _ _ (not_and_or.mp hov), Int.tdiv_mul_add_tmod]

/-- Integer division by a divisor that is not zero does not fault (R164). -/
theorem divOrFault_of_ne {n : Nat} {x y : BitVec n} (hy : y ≠ 0) :
    divOrFault x y = .ok (intQuot .trunc x y) :=
  if_neg hy

/-- The result of `div` for each integer type where the divisor is not zero (R160, R164). -/
theorem arithResult_div_int64 {a b : Word} (hb : b ≠ 0) :
    arithResult divOp .int64 a b = .ok (intQuot .trunc a b) :=
  divOrFault_of_ne hb

theorem arithResult_div_int32 {a b : Word} (hb : lowHalf b ≠ 0) :
    arithResult divOp .int32 a b = .ok (ext32 (intQuot .trunc (lowHalf a) (lowHalf b))) := by
  simp only [arithResult, divOp, divOrFault_of_ne hb]

/-- On the integer types `idiv` is `div` (R165). -/
theorem arithResult_idiv {ty : DType} (hty : ty = .int64 ∨ ty = .int32) (a b : Word) :
    arithResult idivOp ty a b = arithResult divOp ty a b := by
  obtain rfl | rfl := hty <;> rfl

/-- Either division instruction writes the result of `div` on the integer types. -/
theorem writes_division {f : Cond → DType → Reg → Reg → Operand → Instr} {ty : DType} {x : Word}
    (hf : f ∈ [Instr.div, Instr.idiv]) (hty : ty = .int64 ∨ ty = .int32) (hc : condHolds c s)
    (hv : s.readable v) (hx : arithResult divOp ty (s.reg r) (s.operandValue v) = .ok x) :
    Writes (f c ty d r v) s d x := by
  have hidiv := (arithResult_idiv hty _ _).trans hx
  simp only [List.mem_cons, List.not_mem_nil, or_false] at hf
  obtain rfl | rfl := hf
  · exact writes_of_readable rfl rfl rfl hc hv (congrArg Except.toOption hx)
  · exact writes_of_readable rfl rfl rfl hc hv (congrArg Except.toOption hidiv)

/-- Settles O36: in either width the quotient written is the one `intQuot_roundsTowardZero` speaks of. -/
theorem divisionRoundsTowardZero : Obligations.DivisionRoundsTowardZero := by
  refine fun f hf c d r v s hc hv => ⟨?_, ?_⟩
  · rintro _ _ rfl rfl hy hov
    exact ⟨_, writes_division hf (.inl rfl) hc hv (arithResult_div_int64 hy), intQuot_roundsTowardZero hy hov⟩
  · rintro _ _ rfl rfl hy hov
    exact ⟨_, writes_division hf (.inr rfl) hc hv (arithResult_div_int32 hy), intQuot_roundsTowardZero hy hov⟩

end Sys2Proof.Machine
end

section
/-! PROOFS. Branching (spec/42_branching.md): `cmp`, `b`, and the pseudo-instruction `jmp` as it is expanded. -/

namespace Sys2Proof.Machine

variable {s : State}

/-! ## `jmp` -/

/-- A number that a 32-bit immediate holds is itself again when the immediate is widened with zeros (R9). -/
theorem setWidth_ofInt_half {k : Int} (h0 : 0 ≤ k) (hk : k < 2 ^ 32) :
    (BitVec.ofInt 32 k).setWidth 64 = BitVec.ofInt 64 k := by
  lift k to ℕ using h0
  rw [BitVec.ofInt_natCast, BitVec.ofInt_natCast,
    BitVec.setWidth_ofNat_of_le_of_lt (by decide) (by exact_mod_cast hk)]

/-- Adding the offset's magnitude where the offset is not negative, or subtracting it where it is, gives the
address of the register-offset mode (R98, R181). -/
theorem add_magnitude_eq_offsetAddr {r : Reg} {n : BitVec 24} (h : 0 ≤ n.toInt) :
    s.reg r + (BitVec.ofInt 32 n.toInt).setWidth 64 = s.offsetAddr r n := by
  have hn := n.toInt_lt
  rw [setWidth_ofInt_half h (by omega), State.offsetAddr, BitVec.signExtend]

theorem sub_magnitude_eq_offsetAddr {r : Reg} {n : BitVec 24} (h : n.toInt < 0) :
    s.reg r - (BitVec.ofInt 32 (-n.toInt)).setWidth 64 = s.offsetAddr r n := by
  have hn := n.le_toInt
  rw [setWidth_ofInt_half (by omega) (by omega), State.offsetAddr, BitVec.signExtend, BitVec.ofInt_neg,
    BitVec.sub_neg]

/-- In every mode `jmp` is one instruction, which writes the address to `$ip` (R181). -/
theorem writes_of_expandJmp {a : Operand} {x : Word} {is : List Instr} (hx : s.addr a = some x)
    (h : expandJmp a = some is) : ∃ i, is = [i] ∧ Writes i s .ip x := by
  have hc := condHolds_always s
  cases a with
  | imm d => cases h
  | mem m =>
    cases h; cases hx
    exact ⟨_, rfl, writes_of_readable rfl rfl rfl hc (readable_imm s m) rfl⟩
  | reg r =>
    cases h; cases hx
    exact ⟨_, rfl, writes_of_readable rfl rfl rfl hc (readable_reg s r) rfl⟩
  | regOff r n =>
    cases hx
    rw [expandJmp] at h
    split at h
    next hn =>
      cases h
      exact ⟨_, rfl, writes_of_readable rfl rfl rfl hc (readable_imm s _)
        (congrArg some (add_magnitude_eq_offsetAddr hn))⟩
    next hn =>
      cases h
      exact ⟨_, rfl, writes_of_readable rfl rfl rfl hc (readable_imm s _)
        (congrArg some (sub_magnitude_eq_offsetAddr (not_le.mp hn)))⟩

/-- Settles O57, by `writes_of_expandJmp` in the state whose `$ip` has advanced. -/
theorem jmpGoesToTheAddress : Obligations.JmpGoesToTheAddress := by
  intro a x is s hr hx his
  obtain ⟨i, rfl, t, he, ht⟩ := writes_of_expandJmp hx his
  exact ⟨t, execSeq_singleton hr he, ht⟩

/-! ## `cmp` -/

/-- The code of each relation of the signed operands (R180). -/
theorem compareCode_of_eq {x y : Word} (h : x.toInt = y.toInt) : compareCode x y = ccEq := if_pos h

theorem compareCode_of_lt {x y : Word} (h : x.toInt < y.toInt) : compareCode x y = ccLt := by
  rw [compareCode, if_neg h.ne, if_pos h]

theorem compareCode_of_gt {x y : Word} (h : y.toInt < x.toInt) : compareCode x y = ccGt := by
  rw [compareCode, if_neg h.ne', if_neg h.not_gt]

/-- Settles O39: `exec_cmp_of_readable` replaces the comparison bits alone, by the code of the relation that
holds. -/
theorem cmpWritesTheCode : Obligations.CmpWritesTheCode := by
  intro c r v s hc hv
  refine ⟨_, exec_cmp_of_readable hc hv, ?_⟩
  have hcode : (withCmp s.flag (compareCode (s.reg r) (s.operandValue v))).extractLsb' 0 3 =
      compareCode (s.reg r) (s.operandValue v) := cmpBits_withCmp _ _
  exact ⟨fun h => hcode.trans (compareCode_of_eq h), fun h => hcode.trans (compareCode_of_lt h),
    fun h => hcode.trans (compareCode_of_gt h),
    fun n hn => by rw [getLsbD_withCmp, if_neg (by omega)],
    fun x hx => by rw [reg_with_flag, if_neg (by simpa using hx)],
    rfl, ⟨rfl, rfl, rfl⟩⟩

/-! ## `b` -/

/-- What `b` does where its operand names an address: the branch of R182. -/
theorem exec_b_of_addr {cnd : BitVec 3} {a : Operand} {x : Word} (ha : s.addr a = some x) :
    exec (.b cnd a) s = if cnd = s.flag.extractLsb' 0 3 then .next { s with ip := x } else .next s := by
  rw [exec, execB, withAddr, ha]
  exact if_congr (ccMatches_reference _ _) rfl rfl

/-- Settles O40, by the two branches of `exec_b_of_addr`. -/
theorem branchIsTakenExactlyOnAMatch : Obligations.BranchIsTakenExactlyOnAMatch :=
  fun _ _ _ _ ha => ⟨fun h => (exec_b_of_addr ha).trans (if_pos h), fun h => (exec_b_of_addr ha).trans (if_neg h)⟩

end Sys2Proof.Machine
end

section
/-! PROOFS. Logical instructions (spec/43_logical.md): the shifts, and the operations bit by bit. -/

namespace Sys2Proof.Machine

variable {s : State}

/-! ## `shr` and `shl` -/

/-- Under the reference `SHIFT_OVER` a guarded shift is the shift by the whole amount, where that shift
gives 0 from 64 on (R200, D27). -/
theorem shiftBy_zero {shift : Word → Nat → Word} {a b : Word} (h : 64 ≤ b.toNat → shift a b.toNat = 0) :
    shiftBy .zero shift a b = shift a b.toNat := by
  rw [shiftBy]
  split
  next => rfl
  next hb => exact (h (not_lt.mp hb)).symm

theorem shiftRight_eq (a b : Word) : shiftRight a b = a >>> b.toNat :=
  shiftBy_zero BitVec.ushiftRight_eq_zero

theorem shiftLeft_eq (a b : Word) : shiftLeft a b = a <<< b.toNat :=
  shiftBy_zero BitVec.shiftLeft_eq_zero

/-- The bits of a word shifted right: zeros come in from the top, where `a` has no bits (R200). -/
theorem getLsbD_shiftRight (a b : Word) (n : Nat) : (shiftRight a b).getLsbD n = a.getLsbD (n + b.toNat) := by
  rw [shiftRight_eq, BitVec.getLsbD_ushiftRight, Nat.add_comm]

/-- The bits of a word shifted left: zeros come in below the amount (R201). -/
theorem getLsbD_shiftLeft (a b : Word) {n : Nat} (hn : n < 64) :
    (shiftLeft a b).getLsbD n = (decide (b.toNat ≤ n) && a.getLsbD (n - b.toNat)) := by
  rw [shiftLeft_eq, BitVec.getLsbD_shiftLeft, decide_eq_true hn, Bool.true_and, ← decide_not,
    decide_eq_decide.mpr not_lt]

/-- Settles O42: each instruction writes its shift, whose bits the two lemmas above give. -/
theorem shiftsMoveBitsAndFillWithZeros : Obligations.ShiftsMoveBitsAndFillWithZeros :=
  fun _ _ _ _ _ hc hv =>
    ⟨⟨_, writes_of_readable rfl rfl rfl hc hv rfl, getLsbD_shiftRight _ _⟩,
      ⟨_, writes_of_readable rfl rfl rfl hc hv rfl, fun _ => getLsbD_shiftLeft _ _⟩⟩

/-! ## `not`, `and`, `or` and `xor` -/

/-- What `not` writes: it has no `<value>`, so nothing of it can fail to be read (R196). -/
theorem writes_not {c : Cond} (d r : Reg) (hc : condHolds c s) : Writes (.not c d r) s d (~~~ s.reg r) :=
  ⟨_, exec_of_resultOf rfl rfl hc nofun rfl, writeDest_spec s d _⟩

/-- Settles O41: each instruction writes the operation of bit vectors, which works bit by bit. -/
theorem logicalInstructionsWorkBitByBit : Obligations.LogicalInstructionsWorkBitByBit :=
  fun _ d r _ _ hc =>
    ⟨⟨_, writes_not d r hc, fun _ hn => by rw [BitVec.getLsbD_not, decide_eq_true hn, Bool.true_and]⟩, fun hv =>
      ⟨⟨_, writes_of_readable rfl rfl rfl hc hv rfl, fun _ => BitVec.getLsbD_and⟩,
        ⟨_, writes_of_readable rfl rfl rfl hc hv rfl, fun _ => BitVec.getLsbD_or⟩,
        ⟨_, writes_of_readable rfl rfl rfl hc hv rfl, fun _ => BitVec.getLsbD_xor⟩⟩⟩

end Sys2Proof.Machine
end

section
/-! PROOFS. The stack (spec/44_stack.md): `push`, and the pseudo-instructions `pushl` of a constant and `popl`
of a register as they are expanded. -/

namespace Sys2Proof.Machine

variable {s t u : State}

/-! ## The state whose `$ip` has advanced -/

@[simp] theorem advance_sp (s : State) : s.advance.sp = s.sp := rfl
@[simp] theorem advance_halfAt (s : State) (a : Nat) : s.advance.halfAt a = s.halfAt a := rfl

/-! ## Memory -/

/-- An address inside a place in memory does not wrap (R66). -/
theorem toNat_add_of_fits {a : Word} {n k : Nat} (hsize : s.mem.size ≤ 2 ^ 64) (hf : s.fits a.toNat n)
    (hk : k < n) : (a + BitVec.ofNat 64 k).toNat = a.toNat + k := by
  rw [BitVec.toNat_add, BitVec.toNat_ofNat]
  omega

/-- Two changes of memory, one above the other, are a change of both places. -/
theorem MemSameOutside.append {a m n : Nat} (h : MemSameOutside s t a m) (h' : MemSameOutside t u (a + m) n) :
    MemSameOutside s u a (m + n) where
  size := h'.size.trans h.size
  bytes k hk := by rw [h'.bytes k (by omega), h.bytes k (by omega)]

theorem halfAt_of_mem_eq (h : t.mem = s.mem) (a : Nat) : t.halfAt a = s.halfAt a :=
  halfAt_congr fun k _ _ => congrArg (Memory.byte · k) h

theorem wordAt_of_mem_eq (h : t.mem = s.mem) (a : Nat) : t.wordAt a = s.wordAt a :=
  wordAt_congr fun k _ _ => congrArg (Memory.byte · k) h

/-- A word is its two halves, the low one at the lower address (R60). -/
theorem wordAt_of_halves {a : Nat} {k : Word} (hlow : s.halfAt a = lowHalf k)
    (hhigh : s.halfAt (a + 4) = highHalf k) : s.wordAt a = k := by
  rw [State.wordAt, hlow, hhigh]
  exact BitVec.extractLsb'_append_extractLsb'

/-! ## `push` -/

/-- What `push` leaves of the half it stores (R216): the four bytes at the old `$sp` and `$sp` itself, nothing
else. -/
structure Pushed (s t : State) (x : Half) : Prop where
  half : t.halfAt s.sp.toNat = x
  sp : t.sp = s.sp + 4
  mem : MemSameOutside s t s.sp.toNat 4
  regs : RegsSameBut s t [.sp]
  host : SameHost s t

/-- `push` where its test passes and its value can be read: the write of R216, then the new `$sp`. -/
theorem exec_push_of_readable {c : Cond} {v : Operand} (hc : condHolds c s) (hv : s.readable v) :
    exec (.push c v) s = orRaise s (s.memWrite s.sp 4 (s.operandValue v).toNat) fun t =>
      .next { t with sp := s.sp + 4 } := by
  rw [exec, execPush, conditional_of_holds hc, withValue_of_readable hv]

theorem exec_push_of_fits {c : Cond} {v : Operand} (hc : condHolds c s) (hv : s.readable v)
    (hf : s.fits s.sp.toNat 4) :
    ∃ t, exec (.push c v) s = .next t ∧ Pushed s t (lowHalf (s.operandValue v)) := by
  refine ⟨_, (exec_push_of_readable hc hv).trans (by rw [memWrite_of_fits hf, orRaise_ok]), ?_, rfl, ?_, ?_, ?_⟩
  · rw [halfAt_setBytes rfl, BitVec.ofNat_toNat, BitVec.setWidth_eq_extractLsb' (by decide), lowHalf]
  · exact memSameOutside_setBytes s _ _ (bytesOfNat 4 _) rfl
  · exact fun r hr => (reg_with_mem_sp s _ _ r).trans (if_neg (by simpa using hr))
  · exact ⟨rfl, rfl, rfl⟩

theorem exec_push_of_not_fits {c : Cond} {v : Operand} (hc : condHolds c s) (hv : s.readable v)
    (hf : ¬ s.fits s.sp.toNat 4) :
    exec (.push c v) s = .next (s.faulted (.memoryFault s.sp.toNat 4)) := by
  rw [exec_push_of_readable hc hv, memWrite_of_not hf, orRaise_error]

/-- Settles O43, by `exec_push_of_fits` and `exec_push_of_not_fits`. -/
theorem pushStoresAtTheOldSp : Obligations.PushStoresAtTheOldSp := by
  refine fun c v s hc hv => ⟨fun hf => ?_, fun hf => ⟨_, exec_push_of_not_fits hc hv hf, faulted_spec s _⟩⟩
  obtain ⟨t, he, ht⟩ := exec_push_of_fits hc hv hf
  exact ⟨t, he, ht.half, ht.sp, ht.mem, ht.regs, ht.host⟩

/-! ## `push` of immediates one after another -/

theorem Pushed.ip_eq {x : Half} (h : Pushed s t x) : t.ip = s.ip := h.regs .ip (by decide)

/-- `push` changes no flag (R216). -/
theorem running_of_pushed {x : Half} (hr : s.running) (h : Pushed s t x) : t.running := by
  rw [State.running, show t.flag = s.flag from h.regs .flag (by decide)]
  exact hr

/-- An immediate, widened with zeros (spec/30_encoding.md R97), has itself as its low half. -/
theorem lowHalf_setWidth (x : Half) : lowHalf (x.setWidth 64) = x := by
  rw [lowHalf, BitVec.extractLsb'_setWidth_of_le (by decide), BitVec.extractLsb'_eq_self]

/-- A push of an immediate, where its four bytes lie in memory, goes on to the next instruction. -/
theorem execSeq_push_imm (hr : s.running) (hf : s.fits s.sp.toNat 4) (x : Half) :
    ∃ t, Pushed s.advance t x ∧ t.running ∧
      ∀ is, execSeq (.push .always (.imm x) :: is) s = execSeq is t := by
  obtain ⟨t, he, ht⟩ := exec_push_of_fits (s := s.advance) (condHolds_always _) (readable_imm _ x) hf
  exact ⟨t, lowHalf_setWidth x ▸ ht, running_of_pushed (s := s.advance) hr ht, execSeq_of_next hr he ht.ip_eq⟩

/-- What `pushl` of a constant leaves, whatever follows it (R217). -/
theorem execSeq_pushl_const (hr : s.running) (hsize : s.mem.size ≤ 2 ^ 64) (hf : s.fits s.sp.toNat 8)
    (k : Word) (js : List Instr) :
    ∃ t, execSeq (.push .always (.imm (lowHalf k)) :: .push .always (.imm (highHalf k)) :: js) s =
        execSeq js t ∧
      t.running ∧ t.sp = s.sp + 8 ∧ t.ip = s.ip + 16 ∧ t.wordAt s.sp.toNat = k ∧
      MemSameOutside s t s.sp.toNat 8 := by
  obtain ⟨t, ht, htr, hpush⟩ := execSeq_push_imm hr (by omega) (lowHalf k)
  have htsp : t.sp.toNat = s.sp.toNat + 4 := by
    rw [ht.sp]
    exact toNat_add_of_fits hsize hf (by decide)
  have hmem : MemSameOutside s t s.sp.toNat 4 := ⟨ht.mem.size, ht.mem.bytes⟩
  obtain ⟨u, hu, hur, hpush'⟩ := execSeq_push_imm htr (by rw [State.fits, htsp, hmem.size]; omega) (highHalf k)
  have hmem' : MemSameOutside t u (s.sp.toNat + 4) 4 := htsp ▸ ⟨hu.mem.size, hu.mem.bytes⟩
  have hlow : u.halfAt s.sp.toNat = lowHalf k :=
    (halfAt_congr fun a _ ha => hmem'.bytes a (by omega)).trans ht.half
  have hhigh : u.halfAt (s.sp.toNat + 4) = highHalf k := htsp ▸ hu.half
  refine ⟨u, by rw [hpush, hpush'], hur, ?_, ?_, wordAt_of_halves hlow hhigh, hmem.append hmem'⟩
  · rw [hu.sp, advance_sp, ht.sp, advance_sp, BitVec.add_assoc]
    rfl
  · rw [hu.ip_eq, advance_ip, ht.ip_eq, advance_ip, BitVec.add_assoc]
    rfl

/-! ## `loadl` of the word at `$sp` -/

/-- An operand at an offset from `$sp` that names four of the eight bytes there (R97). -/
theorem operand_regOff_sp {n : BitVec 24} {k : Nat} (hn : n.signExtend 64 = BitVec.ofNat 64 k)
    (hsize : s.mem.size ≤ 2 ^ 64) (hf : s.fits s.sp.toNat 8) (hk : k + 4 ≤ 8) :
    s.readable (.regOff .sp n) ∧
      s.operandValue (.regOff .sp n) = (s.halfAt (s.sp.toNat + k)).setWidth 64 := by
  have haddr : (s.reg .sp + n.signExtend 64).toNat = s.sp.toNat + k := by
    rw [hn]
    exact toNat_add_of_fits hsize hf (by omega)
  refine ⟨?_, by rw [State.operandValue, haddr]⟩
  rintro _ ⟨⟩
  rw [State.fits, haddr]
  omega

/-- The two loads of `loadl` make up the word they read (spec/40_data_transfer.md R142). -/
theorem upperHalf_halfAt (s : State) (a : Nat) :
    upperHalf ((s.halfAt a).setWidth 64) ((s.halfAt (a + 4)).setWidth 64) = s.wordAt a := by
  have hlow : lowHalf (s.wordAt a) = s.halfAt a := BitVec.extractLsb'_append_eq_right
  have hhigh : highHalf (s.wordAt a) = s.halfAt (a + 4) := BitVec.extractLsb'_append_eq_left
  rw [← upperHalf_constant (s.wordAt a), hlow, hhigh]

/-- `loadl` of the eight bytes at `$sp`, which both loads must find there: into a register other than `$sp`, and
not one whose first write would jump, rewrite the flags or be discarded. -/
theorem execSeq_loadl_sp {d : Reg} (hd : d ∉ [.sp, .ip, .flag, .zero]) (hr : s.running)
    (hsize : s.mem.size ≤ 2 ^ 64) (hf : s.fits s.sp.toNat 8) :
    ∃ t, execSeq [.load .always d (.regOff .sp 0), .loadu .always d (.regOff .sp 4)] s = .next t ∧
      WroteDest { s with ip := s.ip + 16 } t d (s.wordAt s.sp.toNat) := by
  obtain ⟨hsp, hip, hflag, hzero⟩ : d ≠ .sp ∧ d ≠ .ip ∧ d ≠ .flag ∧ d ≠ .zero := by simpa using hd
  obtain ⟨hlow, hlowValue⟩ := operand_regOff_sp (s := s.advance) (n := 0) (k := 0) rfl hsize hf (by decide)
  obtain ⟨t, hload, ht⟩ := loadWritesItsOperand .always d _ _ (condHolds_always _) hlow
  have htsp : t.sp = s.sp := ht.regs .sp (by simp [hsp.symm])
  obtain ⟨hhigh, hhighValue⟩ := operand_regOff_sp (s := t.advance) (n := 4) (k := 4) rfl
    (by rwa [advance_mem, ht.mem]) (by rwa [State.fits, advance_sp, advance_mem, htsp, ht.mem]) (by decide)
  obtain ⟨u, hloadu, hu⟩ := writes_loadu (d := d) (condHolds_always _) hhigh
  have hword : upperHalf (t.advance.reg d) (t.advance.operandValue (.regOff .sp 4)) = s.wordAt s.sp.toNat := by
    rw [reg_advance, if_neg hip, ht.dest hzero hflag, hlowValue, hhighValue, advance_sp, advance_sp, htsp,
      advance_halfAt, advance_halfAt, halfAt_of_mem_eq (s := s) ht.mem]
    exact upperHalf_halfAt s s.sp.toNat
  rw [hword] at hu
  refine ⟨u, ?_, advance_advance s ▸ ht.overwrite hu hip hflag⟩
  rw [execSeq_of_wroteDest hr hload ht hip,
    execSeq_singleton (running_of_wroteDest (s := s.advance) hr ht hflag) hloadu]

/-! ## `popl` -/

theorem writes_dropStack (s : State) (k : Half) : Writes (dropStack k) s .sp (s.sp - k.setWidth 64) :=
  writes_of_readable rfl rfl rfl (condHolds_always s) (readable_imm s k) rfl

/-- What `popl` of a register leaves (R219): the word below `$sp` in it, `$sp` below the word, memory as it was. -/
theorem execSeq_popl {d : Reg} {js : List Instr} (hjs : expandPopl (some d) = some js)
    (hd : d ∉ [.sp, .ip, .flag, .zero]) (hr : s.running) (hsize : s.mem.size ≤ 2 ^ 64)
    (hf : s.fits (s.sp - 8).toNat 8) :
    ∃ t, execSeq js s = .next t ∧ t.reg d = s.wordAt (s.sp - 8).toNat ∧ t.sp = s.sp - 8 ∧
      t.ip = s.ip + 24 ∧ t.mem = s.mem := by
  obtain ⟨hsp, hip, hflag, hzero⟩ : d ≠ .sp ∧ d ≠ .ip ∧ d ≠ .flag ∧ d ≠ .zero := by simpa using hd
  rw [expandPopl, if_neg hsp] at hjs
  cases hjs
  obtain ⟨t, hdrop, ht⟩ := writes_dropStack s.advance 8
  have htsp : t.sp = s.sp - 8 := ht.dest (by decide) (by decide)
  have htip : t.ip = s.ip + 8 := ht.ip_eq (by decide)
  obtain ⟨u, hload, hu⟩ := execSeq_loadl_sp hd (running_of_wroteDest (s := s.advance) hr ht (by decide))
    (by rwa [ht.mem]) (by rwa [State.fits, htsp, ht.mem])
  refine ⟨u, ?_, ?_, ?_, ?_, hu.mem.trans ht.mem⟩
  · rw [execSeq_of_wroteDest hr hdrop ht (by decide), hload]
  · rw [hu.dest hzero hflag, htsp, wordAt_of_mem_eq (s := s) ht.mem]
  · exact (hu.regs .sp (by simp [hsp.symm])).trans htsp
  · rw [hu.ip_eq hip, htip, BitVec.add_assoc]
    rfl

/-- Settles O58: `execSeq_pushl_const`, then `execSeq_popl` of the word it has stored. -/
theorem poplUndoesPushl : Obligations.PoplUndoesPushl := by
  rintro d k _ js s hr hd hsize hf ⟨⟩ hjs
  have hdest : d ∉ [.sp, .ip, .flag, .zero] := by
    obtain ⟨n, rfl⟩ | ⟨n, rfl⟩ := hd <;> simp
  obtain ⟨t, hpushl, htr, htsp, htip, htword, htmem⟩ := execSeq_pushl_const hr hsize hf k js
  have hback : t.sp - 8 = s.sp := by rw [htsp, BitVec.add_sub_cancel]
  obtain ⟨u, hpopl, hud, husp, huip, humem⟩ := execSeq_popl hjs hdest htr (by rwa [htmem.size])
    (by rwa [State.fits, hback, htmem.size])
  refine ⟨u, hpushl.trans hpopl, ?_, husp.trans hback, ?_, ?_, ?_⟩
  · rw [hud, hback, htword]
  · rw [wordAt_of_mem_eq humem, htword]
  · exact ⟨humem ▸ htmem.size, fun a ha => by rw [State.byteAt, humem]; exact htmem.bytes a ha⟩
  · rw [huip, htip, BitVec.add_assoc]
    rfl

end Sys2Proof.Machine
end

section
/-! PROOFS. Functions (spec/45_functions.md): the frame that `call` pushes and `ret` reads back. -/

namespace Sys2Proof.Machine

variable {s t : State} {c : Cond} {v : Operand}

/-! ## The frame in memory (R230) -/

/-- The frame of R230 at an address holds what `f` gives for each register saved. -/
structure FrameAt (s : State) (a : Nat) (f : Reg → Word) : Prop where
  fp : s.wordAt a = f .fp
  ip : s.wordAt (a + 8) = f .ip
  preserved : ∀ k : Fin 8, s.wordAt (a + 16 + 8 * k) = f (.s k)

/-- Above the slots of `$fp` and `$ip` stand those of `$s1` to `$s8`. -/
theorem frame_slot_preserved :
    ∀ k : Fin 8, (Config.reference.frame[2 + k.val]'(by rw [frame_length]; omega)).reg = .s k := by decide

/-- The frame of R230 is the reference `FRAME`, slot by slot. -/
theorem frameAt_of_slots {a : Nat} {f : Reg → Word}
    (h : ∀ j (hj : j < Config.reference.frame.length), s.wordAt (a + 8 * j) = f Config.reference.frame[j].reg) :
    FrameAt s a f where
  fp := h 0 (by decide)
  ip := h 1 (by decide)
  preserved k := by
    rw [← frame_slot_preserved k, ← h, Nat.mul_add, ← Nat.add_assoc]

/-- A frame depends on its eighty bytes alone. -/
theorem FrameAt.congr {a : Nat} {f : Reg → Word} (h : FrameAt s a f)
    (hb : ∀ k, a ≤ k → k < a + 80 → t.byteAt k = s.byteAt k) : FrameAt t a f where
  fp := (wordAt_congr fun k _ _ => hb k (by omega) (by omega)).trans h.fp
  ip := (wordAt_congr fun k _ _ => hb k (by omega) (by omega)).trans h.ip
  preserved j := (wordAt_congr fun k _ _ => hb k (by omega) (by omega)).trans (h.preserved j)

/-- `$sp` is not among the registers saved. -/
theorem FrameAt.setReg_sp {a : Nat} (h : FrameAt s a t.reg) (x : Word) : FrameAt s a (t.setReg .sp x).reg :=
  ⟨h.fp, h.ip, h.preserved⟩

/-- One of several runs of eight bytes put one after another. -/
theorem take_drop_flatMap {α : Type} {f : α → List Byte} {xs : List α} (h8 : ∀ x ∈ xs, (f x).length = 8)
    {j : Nat} (hj : j < xs.length) : ((xs.flatMap f).drop (8 * j)).take 8 = f xs[j] := by
  induction xs generalizing j with
  | nil => simp at hj
  | cons x xs ih =>
    have hx : (f x).length = 8 := h8 x (by simp)
    rw [List.flatMap_cons]
    cases j with
    | zero => exact List.take_left' hx
    | succ j =>
      rw [Nat.mul_succ, Nat.add_comm, ← List.drop_drop, List.drop_left' hx]
      exact ih (fun y hy => h8 y (by simp [hy])) (by simpa using hj)

/-- The bytes `call` stores are the frame of the registers as they were. -/
theorem frameAt_frameBytes {a : Nat} (h : t.mem = s.mem.setBytes a s.frameBytes) : FrameAt t a s.reg := by
  refine frameAt_of_slots fun j hj => ?_
  have hslot : (s.frameBytes.drop (8 * j)).take 8 = bytesOfNat 8 (s.reg Config.reference.frame[j].reg).toNat := by
    refine (take_drop_flatMap (fun x hx => ?_) hj).trans ?_
    · rw [memOfNat_reference, bytesOfNat_length, frame_bytes x hx]
    · rw [memOfNat_reference, frame_bytes _ (List.getElem_mem hj)]
  have hlt : (s.reg Config.reference.frame[j].reg).toNat < 256 ^ 8 := BitVec.isLt _
  rw [frame_length] at hj
  rw [← wordAt_eq, h, bytes_setBytes_inside _ _ (by rw [frameBytes_length]; omega), hslot, natOfBytes_bytesOfNat,
    Nat.mod_eq_of_lt hlt, BitVec.ofNat_toNat, BitVec.setWidth_eq]

/-! ## `call` (R231) -/

/-- What `call` leaves where its frame lies in memory: the frame and the three registers, nothing else. -/
structure Called (s t : State) (target : Word) : Prop where
  frame : FrameAt t s.sp.toNat s.reg
  fp : t.fp = s.sp
  sp : t.sp = s.sp + 80
  ip : t.ip = target
  mem : MemSameOutside s t s.sp.toNat 80
  regs : RegsSameBut s t [.fp, .sp, .ip]
  host : SameHost s t

/-- `call` where its test passes and its value can be read: the write of the frame, then the three registers. -/
theorem exec_call_of_readable (hc : condHolds c s) (hv : s.readable v) :
    exec (.call c v) s = orRaise s (s.memWriteBytes s.sp s.frameBytes) fun t =>
      .next { t with fp := s.sp, sp := s.sp + 80, ip := s.operandValue v } := by
  rw [exec, execCall, conditional_of_holds hc, withValue_of_readable hv]
  rfl

theorem exec_call_of_fits (hc : condHolds c s) (hv : s.readable v) (hf : s.fits s.sp.toNat 80) :
    ∃ t, exec (.call c v) s = .next t ∧ Called s t (s.operandValue v) := by
  have he : exec (.call c v) s = .next { s with
      mem := s.mem.setBytes s.sp.toNat s.frameBytes
      fp := s.sp
      sp := s.sp + 80
      ip := s.operandValue v } := by
    rw [exec_call_of_readable hc hv, memWriteBytes_of_fits (by rwa [frameBytes_length]), orRaise_ok]
  refine ⟨_, he, frameAt_frameBytes rfl, rfl, rfl, rfl, ?_, fun r hr => ?_, ⟨rfl, rfl, rfl⟩⟩
  · exact frameBytes_length s ▸ memSameOutside_setBytes s _ _ s.frameBytes rfl
  · obtain ⟨hfp, hsp, hip⟩ : r ≠ .fp ∧ r ≠ .sp ∧ r ≠ .ip := by simpa using hr
    rw [reg_with_call, if_neg hip, if_neg hsp, if_neg hfp]

theorem exec_call_of_not_fits (hc : condHolds c s) (hv : s.readable v) (hf : ¬ s.fits s.sp.toNat 80) :
    exec (.call c v) s = .next (s.faulted (.memoryFault s.sp.toNat 80)) := by
  rw [exec_call_of_readable hc hv, memWriteBytes_of_not (by rwa [frameBytes_length]), orRaise_error,
    frameBytes_length]

/-- Settles O44, by `exec_call_of_fits` and `exec_call_of_not_fits`. -/
theorem callPushesTheFrame : Obligations.CallPushesTheFrame := by
  refine fun c v s hc hv => ⟨fun hf => ?_, fun hf => ⟨_, exec_call_of_not_fits hc hv hf, faulted_spec s _⟩⟩
  obtain ⟨t, he, ht⟩ := exec_call_of_fits hc hv hf
  exact ⟨t, he, ht.frame.fp, ht.frame.ip, ht.frame.preserved, ht.fp, ht.sp, ht.ip, ht.mem, ht.regs, ht.host⟩

/-! ## `ret` (R232) -/

/-- `ret` where its test passes: the count and the frame, both read before any write. -/
theorem exec_ret_of_holds (hc : condHolds c s) :
    exec (.ret c) s = orRaise s (s.memRead (s.fp - 4) 4) fun n =>
      orRaise s (s.readFrame s.fp Config.reference.frame) fun ws =>
        .next ((s.setRegs ws).setReg .sp (s.fp - 4 - 4 * BitVec.ofNat 64 n)) :=
  conditional_of_holds hc _

/-- The count of arguments is an unsigned half. -/
theorem ofNat_natOfBytes_half (s : State) (a : Nat) :
    BitVec.ofNat 64 (natOfBytes (s.mem.bytes a 4)) = (s.halfAt a).setWidth 64 := by
  have hlt : natOfBytes (s.mem.bytes a 4) < 2 ^ 32 := by simpa using natOfBytes_lt (s.mem.bytes a 4)
  apply BitVec.eq_of_toNat_eq
  rw [← halfAt_eq, toNat_setWidth_half, BitVec.toNat_ofNat, BitVec.toNat_ofNat, Nat.mod_eq_of_lt hlt]
  omega

/-- The registers saved in the frame at `$fp`, with their values. -/
def State.savedRegs (s : State) : List (Reg × Word) :=
  Config.reference.frame.mapIdx fun j x => (x.reg, s.wordAt (s.fp.toNat + 8 * j))

/-- What `ret` reads back of a frame that lies in memory. -/
theorem readFrame_eq_savedRegs (hsize : s.mem.size ≤ 2 ^ 64) (hf : s.fits s.fp.toNat 80) :
    s.readFrame s.fp Config.reference.frame = .ok s.savedRegs := by
  have haddr {j : Nat} (hj : j < Config.reference.frame.length) :
      (s.fp + BitVec.ofNat 64 (8 * j)).toNat = s.fp.toNat + 8 * j := by
    rw [frame_length] at hj
    exact toNat_add_of_fits hsize hf (by omega)
  rw [readFrame_of_fits _ frame_bytes fun j hj => ?_, State.savedRegs]
  · exact congrArg _ (List.mapIdx_eq_mapIdx_iff.mpr fun j hj => by rw [haddr hj])
  · rw [frame_length] at hj
    rw [State.fits, haddr hj]
    omega

/-- The saved registers written are those of the frame. -/
theorem frameAt_setRegs_savedRegs (s t : State) : FrameAt s s.fp.toNat (t.setRegs s.savedRegs).reg := by
  have hnames : s.savedRegs.map Prod.fst = Config.reference.frame.map FrameItem.reg := rfl
  refine frameAt_of_slots fun j hj => (reg_setRegs_of_mem t (by rw [hnames]; decide) ?_ ?_).symm
  · exact List.mem_mapIdx.mpr ⟨j, hj, rfl⟩
  · exact (by decide : ∀ x ∈ Config.reference.frame, x.reg ≠ .zero) _ (List.getElem_mem hj)

/-- What `ret` leaves where the count and the frame lie in memory: the registers of the frame, and `$sp` below
the frame, the count and the arguments, nothing else. -/
structure Returned (s t : State) : Prop where
  frame : FrameAt s s.fp.toNat t.reg
  sp : t.sp = s.fp - 4 - 4 * (s.halfAt (s.fp - 4).toNat).setWidth 64
  regs : RegsSameBut s t [.fp, .ip, .sp, .s 0, .s 1, .s 2, .s 3, .s 4, .s 5, .s 6, .s 7]
  mem : t.mem = s.mem
  host : SameHost s t

theorem exec_ret_of_fits (hc : condHolds c s) (hsize : s.mem.size ≤ 2 ^ 64) (hcount : s.fits (s.fp - 4).toNat 4)
    (hf : s.fits s.fp.toNat 80) : ∃ t, exec (.ret c) s = .next t ∧ Returned s t := by
  have hread := memRead_of_fits hcount
  have hframe := readFrame_eq_savedRegs hsize hf
  have he : exec (.ret c) s = .next ((s.setRegs s.savedRegs).setReg .sp
      (s.fp - 4 - 4 * (s.halfAt (s.fp - 4).toNat).setWidth 64)) := by
    rw [exec_ret_of_holds hc, hread, orRaise_ok, hframe, orRaise_ok, ofNat_natOfBytes_half]
  refine ⟨_, he, (frameAt_setRegs_savedRegs s s).setReg_sp _, rfl, fun r hr => ?_,
    by simp, by simp, by simp, by simp⟩
  exact ran_ret_reg (c := c) ⟨_, _, hread, hframe, by rw [ofNat_natOfBytes_half]⟩ fun hw =>
    hr ((List.perm_middle (l₁ := [Reg.ip, .sp])).mem_iff.mp hw)

theorem exec_ret_of_count_not_fits (hc : condHolds c s) (hcount : ¬ s.fits (s.fp - 4).toNat 4) :
    exec (.ret c) s = .next (s.faulted (.memoryFault (s.fp - 4).toNat 4)) := by
  rw [exec_ret_of_holds hc, memRead_of_not hcount, orRaise_error]

/-- The frame is read lowest address first, so the first saved register outside memory is the one that faults. -/
theorem exec_ret_of_slot_not_fits {k : Nat} (hc : condHolds c s) (hcount : s.fits (s.fp - 4).toNat 4) (hk : k < 10)
    (hbelow : ∀ j < k, s.fits (s.fp + BitVec.ofNat 64 (8 * j)).toNat 8)
    (hn : ¬ s.fits (s.fp + BitVec.ofNat 64 (8 * k)).toNat 8) :
    exec (.ret c) s = .next (s.faulted (.memoryFault (s.fp + BitVec.ofNat 64 (8 * k)).toNat 8)) := by
  rw [exec_ret_of_holds hc, memRead_of_fits hcount, orRaise_ok, readFrame_of_not _ frame_bytes hk hbelow hn,
    orRaise_error]

/-- Settles O45, by `exec_ret_of_fits`. -/
theorem retRestoresFromTheFrame : Obligations.RetRestoresFromTheFrame := by
  intro c s hc hsize hcount hf
  obtain ⟨t, he, ht⟩ := exec_ret_of_fits hc hsize hcount hf
  exact ⟨t, he, ht.frame.fp.symm, ht.frame.ip.symm, fun k => (ht.frame.preserved k).symm, ht.sp, ht.regs, ht.mem,
    ht.host⟩

/-! ## `ret` outside memory (R286) -/

/-- Eight-byte slots that lie in memory one by one lie there as a whole: no address among them wraps. -/
theorem fits_of_slots {a : Word} (hsize : s.mem.size < 2 ^ 64) {n : Nat}
    (h : ∀ j < n + 1, s.fits (a + BitVec.ofNat 64 (8 * j)).toNat 8) : s.fits a.toNat (8 * (n + 1)) := by
  induction n with
  | zero => simpa using h 0 (by decide)
  | succ n ih =>
    have hbelow : s.fits a.toNat (8 * (n + 1)) := ih fun j hj => h j (by omega)
    have hlast := h (n + 1) (by omega)
    have haddr : (a + BitVec.ofNat 64 (8 * (n + 1))).toNat = a.toNat + 8 * (n + 1) := by
      rw [BitVec.toNat_add, BitVec.toNat_ofNat]
      omega
    omega

/-- A frame that does not lie in memory has a first slot that does not. -/
theorem exists_first_slot_not_fits {a : Word} (hsize : s.mem.size < 2 ^ 64) (hf : ¬ s.fits a.toNat 80) :
    ∃ k < 10, (∀ j < k, s.fits (a + BitVec.ofNat 64 (8 * j)).toNat 8) ∧
      ¬ s.fits (a + BitVec.ofNat 64 (8 * k)).toNat 8 := by
  have hex : ∃ k, k < 10 ∧ ¬ s.fits (a + BitVec.ofNat 64 (8 * k)).toNat 8 := by
    by_contra hall
    exact hf (fits_of_slots (n := 9) hsize fun j hj => not_not.mp fun hn => hall ⟨j, hj, hn⟩)
  obtain ⟨hk, hn⟩ := Nat.find_spec hex
  exact ⟨Nat.find hex, hk, fun j hj => not_not.mp fun hn => Nat.find_min hex hj ⟨by omega, hn⟩, hn⟩

/-- Settles O46: the count is read first, then the slots in turn up to the first outside memory. -/
theorem retFaultsOutsideMemory : Obligations.RetFaultsOutsideMemory := by
  refine fun c s hc hsize => ⟨fun hcount => ?_, fun hcount hf => ?_⟩
  · exact ⟨_, exec_ret_of_count_not_fits hc hcount, faulted_spec s _⟩
  · obtain ⟨k, hk, hbelow, hn⟩ := exists_first_slot_not_fits hsize hf
    exact ⟨k, hk, hbelow, hn, _, exec_ret_of_slot_not_fits hc hcount hk hbelow hn, faulted_spec s _⟩

/-! ## `ret` after `call` (R238) -/

/-- Settles O47: the frame `call` left is the one `ret` reads, and below it the count is the caller's own. -/
theorem retUndoesCall : Obligations.RetUndoesCall := by
  intro c c' v s t u hc hv hsize hsp hf hcall hc' hfp husize hbytes
  obtain ⟨t', ht', called⟩ := exec_call_of_fits hc hv hf
  obtain rfl : t' = t := Host.Outcome.next.inj (ht'.symm.trans hcall)
  have hufp : u.fp = s.sp := hfp.trans called.fp
  have hsizes : u.mem.size = s.mem.size := husize.trans called.mem.size
  have hbelow : (s.sp - 4).toNat = s.sp.toNat - 4 := BitVec.toNat_sub_of_le hsp
  obtain ⟨w, he, returned⟩ := exec_ret_of_fits hc' (hsizes ▸ hsize)
    (by rw [State.fits, hufp, hbelow, hsizes]; omega) (by rw [State.fits, hufp, hsizes]; exact hf)
  have hstored : FrameAt u s.sp.toNat s.reg := called.frame.congr fun k hk hk' => hbytes k (by omega) hk'
  have hread : FrameAt u s.sp.toNat w.reg := hufp ▸ returned.frame
  have hcount : u.halfAt (s.sp.toNat - 4) = s.halfAt (s.sp.toNat - 4) := halfAt_congr fun k hk hk' =>
    (hbytes k hk (by omega)).trans (called.mem.bytes k (by omega))
  refine ⟨w, he, hread.ip.symm.trans hstored.ip, hread.fp.symm.trans hstored.fp,
    fun k => (hread.preserved k).symm.trans (hstored.preserved k), ?_, returned.regs .ret (by decide), returned.mem⟩
  rw [returned.sp, hufp, hbelow, hcount]

end Sys2Proof.Machine
end

section
/-! PROOFS. Arguments (spec/45_functions.md R233 to R237): the pseudo-instructions `stargs` of immediates and
`ldarg` as they are expanded. -/

namespace Sys2Proof.Machine

variable {s t u : State}

/-! ## `stargs` -/

/-- What pushes of immediates one after another leave of registers and memory (R233): the values upward from the
old `$sp`, and `$sp` above them. -/
structure PushedAll (s t : State) (xs : List Half) : Prop where
  halves : ∀ j x, xs[j]? = some x → t.halfAt (s.sp.toNat + 4 * j) = x
  sp : t.sp = s.sp + BitVec.ofNat 64 (4 * xs.length)
  mem : MemSameOutside s t s.sp.toNat (4 * xs.length)

theorem PushedAll.nil (s : State) : PushedAll s s [] where
  halves _ _ h := by simp at h
  sp := by simp
  mem := ⟨rfl, fun _ _ => rfl⟩

/-- One push more, at an address that has not wrapped. -/
theorem PushedAll.snoc {xs : List Half} {x : Half} (h : PushedAll s t xs)
    (haddr : t.sp.toNat = s.sp.toNat + 4 * xs.length) (hx : Pushed t.advance u x) : PushedAll s u (xs ++ [x]) := by
  have hmem : MemSameOutside t u (s.sp.toNat + 4 * xs.length) 4 := haddr ▸ ⟨hx.mem.size, hx.mem.bytes⟩
  refine ⟨fun j y hj => ?_, ?_, ?_⟩
  · rcases Nat.lt_trichotomy j xs.length with hlt | rfl | hgt
    · rw [List.getElem?_append_left hlt] at hj
      exact (halfAt_congr fun k _ hk => hmem.bytes k (by omega)).trans (h.halves j y hj)
    · obtain rfl : x = y := by simpa using hj
      exact haddr ▸ hx.half
    · rw [List.getElem?_eq_none (by simp; omega)] at hj
      cases hj
  · rw [hx.sp, advance_sp, h.sp, BitVec.add_assoc, List.length_append, Nat.mul_add, BitVec.ofNat_add]
    rfl
  · rw [List.length_append, Nat.mul_add]
    exact h.mem.append hmem

/-- Pushes of immediates whose bytes lie in memory go on to what follows them. -/
theorem execSeq_push_imms (hr : s.running) (hsize : s.mem.size ≤ 2 ^ 64) (xs : List Half)
    (hf : s.fits s.sp.toNat (4 * xs.length)) :
    ∃ t, PushedAll s t xs ∧ t.running ∧
      ∀ is, execSeq (xs.map (fun x => .push .always (.imm x)) ++ is) s = execSeq is t := by
  induction xs using List.reverseRecOn with
  | nil => exact ⟨s, .nil s, hr, fun _ => rfl⟩
  | append_singleton xs x ih =>
    rw [List.length_append, Nat.mul_add] at hf
    obtain ⟨t, ht, htr, hbefore⟩ := ih (by omega)
    have haddr : t.sp.toNat = s.sp.toNat + 4 * xs.length := by
      rw [ht.sp]
      exact toNat_add_of_fits hsize hf (by simp)
    have hfit : t.fits t.sp.toNat 4 := by rwa [State.fits, haddr, ht.mem.size, Nat.add_assoc]
    obtain ⟨u, hu, hur, hpush⟩ := execSeq_push_imm htr hfit x
    refine ⟨u, ht.snoc haddr hu, hur, fun is => ?_⟩
    rw [List.map_append, List.append_assoc, hbefore]
    exact hpush is

/-- `stargs` of immediates pushes them and their count, all of them immediates. -/
theorem expand_stargs_imm {ks : List Half} {is : List Instr} (h : (Pseudo.stargs (ks.map .imm)).expand = some is) :
    is = (ks ++ [BitVec.ofNat 32 ks.length]).map fun x => .push .always (.imm x) := by
  simp only [Pseudo.expand, List.length_map] at h
  split at h
  · cases h
    simp
  · cases h

/-- Settles O59, by `execSeq_push_imms` for the arguments with their count after them. -/
theorem stargsPushesArgumentsAndCount : Obligations.StargsPushesArgumentsAndCount := by
  intro ks is s hr hsize hf his
  obtain ⟨t, ht, -, hseq⟩ := execSeq_push_imms hr hsize (ks ++ [BitVec.ofNat 32 ks.length]) (by simpa using hf)
  refine ⟨t, ?_, fun j k hj => ht.halves j k ?_, ht.halves ks.length _ (by simp), ?_, ?_⟩
  · rw [expand_stargs_imm his, ← List.append_nil (List.map _ _), hseq, execSeq]
  · rw [List.getElem?_append_left (List.getElem?_eq_some_iff.mp hj).1, hj]
  · simpa using ht.sp
  · simpa using ht.mem

/-! ## `ldarg` -/

/-- An encodable offset below `$fp`, as the register-offset mode adds it (R237). -/
theorem signExtend_ofInt_neg {k : Nat} (hk : k ≤ 2 ^ 23) :
    (BitVec.ofInt 24 (-(k : Int))).signExtend 64 = -BitVec.ofNat 64 k := by
  have hint : (BitVec.ofInt 24 (-(k : Int))).toInt = -(k : Int) := by
    rw [BitVec.toInt_ofInt]
    exact Int.bmod_eq_of_le (by omega) (by omega)
  rw [BitVec.signExtend, hint, BitVec.ofInt_neg, BitVec.ofInt_natCast]

/-- An operand at an encodable offset below `$fp` (spec/30_encoding.md R97). -/
theorem operand_below_fp {k : Nat} (hk : k ≤ 2 ^ 23) (hf : s.fits (s.fp - BitVec.ofNat 64 k).toNat 4) :
    s.readable (.regOff .fp (BitVec.ofInt 24 (-(k : Int)))) ∧
      s.operandValue (.regOff .fp (BitVec.ofInt 24 (-(k : Int)))) =
        (s.halfAt (s.fp - BitVec.ofNat 64 k).toNat).setWidth 64 := by
  have haddr : s.reg .fp + (BitVec.ofInt 24 (-(k : Int))).signExtend 64 = s.fp - BitVec.ofNat 64 k := by
    rw [signExtend_ofInt_neg hk, BitVec.sub_eq_add_neg, reg_fp]
  refine ⟨?_, by rw [State.operandValue, haddr]⟩
  rintro _ ⟨⟩
  rwa [haddr]

/-- Settles O60: the expansion is one `load`, of the operand `operand_below_fp` speaks of. -/
theorem ldargReadsTheArgument : Obligations.LdargReadsTheArgument := by
  rintro d n i is _ s hr his rfl hf
  simp only [Pseudo.expand, expandLdarg] at his
  split at his
  next hi =>
    cases his
    obtain ⟨hread, hvalue⟩ := operand_below_fp (s := s.advance) hi.2 hf
    obtain ⟨t, he, ht⟩ := loadWritesItsOperand .always d _ _ (condHolds_always _) hread
    exact ⟨t, execSeq_singleton hr he, hvalue ▸ ht⟩
  next => cases his

end Sys2Proof.Machine
end

section
/-! PROOFS. System calls (spec/46_syscall.md): the services by number, what each leaves, and the bytes that
`print_string` reads and `read_string` stores. -/

namespace Sys2Proof.Machine

variable {s : State} {c : Cond} {v : Operand} {inp : Inputs} {p : Params}

/-! ## A service by its number (R250) -/

/-- The reference configuration but for the input sequence of the run, the one under which `execWith` runs. -/
abbrev referenceWith (inp : Inputs) : Params := { Config.reference with input := inp }

/-- The conditional test does not see the input sequence. -/
theorem conditional_referenceWith (inp : Inputs) (c : Cond) (s : State) (k : Outcome) :
    conditional c s k (referenceWith inp) = conditional c s k := rfl

/-- An operand does not see the input sequence. -/
theorem withValue_referenceWith (inp : Inputs) (s : State) (v : Operand) (k : Word → Outcome) :
    withValue s v k (referenceWith inp) = withValue s v k := rfl

/-- `exec` is `execWith` with the input sequence of the reference configuration. -/
theorem execWith_input (i : Instr) (s : State) : execWith Config.input i s = exec i s := execUnder_reference i s

/-- `syscall` carries out the service its operand numbers, whatever the input sequence. -/
theorem execWith_syscall {k : Word} {x : Service} (hc : condHolds c s) (hv : s.readable v)
    (hk : s.operandValue v = k) (hx : serviceOf k = some x) :
    execWith inp (.syscall c v) s = performService x s (referenceWith inp) := by
  rw [execWith, execUnder, execSyscall, conditional_referenceWith, conditional_of_holds hc,
    withValue_referenceWith, withValue_of_readable hv, hk]
  simp only [hx]

theorem exec_syscall {k : Word} {x : Service} (hc : condHolds c s) (hv : s.readable v)
    (hk : s.operandValue v = k) (hx : serviceOf k = some x) : exec (.syscall c v) s = performService x s :=
  (execWith_input _ s).symm.trans (execWith_syscall hc hv hk hx)

/-! ## `print_int`, `print_float`, `print_double` and `print_char` (R252 to R255) -/

/-- Settles O48, by `exec_syscall` for each number. -/
theorem outputServicesAppendTheirEvent : Obligations.OutputServicesAppendTheirEvent :=
  fun _ _ _ hc hv => ⟨fun h => exec_syscall hc hv h rfl, fun h => exec_syscall hc hv h rfl,
    fun h => exec_syscall hc hv h rfl, fun h => exec_syscall hc hv h rfl⟩

/-! ## `print_string` (R256) -/

/-- The string at an address with a zero byte `n` bytes above it, the first. -/
theorem stringAt_of_zero {a : Word} {n : Nat} (hf : s.fits a.toNat (n + 1))
    (hne : ∀ j < n, s.byteAt (a.toNat + j) ≠ 0) (h0 : s.byteAt (a.toNat + n) = 0) :
    s.stringAt a = .ok ((List.range n).map fun j => s.byteAt (a.toNat + j)) := by
  have hscan := scan_eq_some (k := s.mem.size - a.toNat) (by omega) hne h0
  rw [bytes_eq_map] at hscan
  rw [State.stringAt, hscan]
  rfl

/-- Memory that ends before a zero byte, or below the address, holds no string there. -/
theorem stringAt_of_no_zero {a : Word} (hne : ∀ k, a.toNat ≤ k → k < s.mem.size → s.byteAt k ≠ 0) :
    s.stringAt a = .error (.memoryFault (max a.toNat s.mem.size) 1) := by
  have hscan : s.mem.scan (s.mem.size - a.toNat) a.toNat = none :=
    scan_eq_none fun j _ => hne (a.toNat + j) (by omega) (by omega)
  rw [State.stringAt, hscan]

/-- Settles O49, by `stringAt_of_zero` and `stringAt_of_no_zero`. -/
theorem printStringStopsAtTheFirstZero : Obligations.PrintStringStopsAtTheFirstZero := by
  rintro c v s _ hc hv hk rfl
  have hexec := exec_syscall hc hv hk rfl
  refine ⟨fun n hf hne h0 => ?_, fun hne => ⟨_, ?_, faulted_spec s _⟩⟩
  · rw [hexec, performService, servicePrintString, State.arg1, stringAt_of_zero hf hne h0, orRaise_ok]
    rfl
  · rw [hexec, performService, servicePrintString, State.arg1, stringAt_of_no_zero hne, orRaise_error]

/-! ## `read_int`, `read_float`, `read_double` and `read_char` (R257 to R260) -/

/-- Settles O50, by `execWith_syscall` for each number. -/
theorem inputServicesWriteRet : Obligations.InputServicesWriteRet := by
  refine ⟨execWith_input, ?_⟩
  rintro inp c v s _ hc hv rfl
  refine ⟨?_, fun h => execWith_syscall hc hv h rfl, fun h => execWith_syscall hc hv h rfl⟩
  rintro (h | h)
  · exact execWith_syscall hc hv h rfl
  · exact execWith_syscall hc hv h rfl

/-! ## `read_string` (R261) -/

theorem zero_notMem_cutAtNul (bs : List Byte) : 0 ∉ cutAtNul bs :=
  fun h => by simpa using List.mem_takeWhile_imp h

/-- A string of R251 is not cut. -/
theorem cutAtNul_of_zero_notMem {bs : List Byte} (h : 0 ∉ bs) : cutAtNul bs = bs := by
  refine List.takeWhile_eq_self_iff.mpr fun b hb => bne_iff_ne.mpr ?_
  rintro rfl
  exact h hb

/-- As many bytes are stored as the item has, at most `$r2`, and the zero byte. -/
theorem readStringBytes_length (s : State) (p : Params) :
    (s.readStringBytes p).length = min (s.nextBytes p).length s.arg2.toNat + 1 := by
  rw [State.readStringBytes, List.length_append, List.length_take, Nat.min_comm, List.length_singleton]

/-- The bytes stored before the last are the first of the item. -/
theorem readStringBytes_getElem? {n j : Nat} (hn : n = min (s.nextBytes p).length s.arg2.toNat) (hj : j < n) :
    (s.readStringBytes p)[j]? = (s.nextBytes p)[j]? := by
  rw [State.readStringBytes, List.getElem?_append_left (by rw [List.length_take]; omega),
    List.getElem?_take_of_lt (by omega)]

/-- The last byte stored is zero. -/
theorem readStringBytes_getElem?_last {n : Nat} (hn : n = min (s.nextBytes p).length s.arg2.toNat) :
    (s.readStringBytes p)[n]? = some 0 := by
  have hlen : n = ((s.nextBytes p).take s.arg2.toNat).length := by rw [List.length_take, Nat.min_comm, hn]
  rw [State.readStringBytes, hlen, List.getElem?_concat_length]

/-- Bytes written, read by their place in the list. -/
theorem getElem?_setBytes (m : Memory) (a : Nat) {j : Nat} {bs : List Byte} (h : j < bs.length) :
    bs[j]? = some ((m.setBytes a bs).byte (a + j)) := by
  rw [byte_setBytes_inside m h, List.getElem?_eq_getElem h]

/-- What `read_string` leaves where `n` bytes and the zero byte fit: the item's first bytes and the zero byte at
`$r1`, the item consumed, nothing else. -/
structure StringRead (s t : State) (bs : List Byte) (n : Nat) : Prop where
  bytes : ∀ j < n, bs[j]? = some (t.byteAt (s.arg1.toNat + j))
  zero : t.byteAt (s.arg1.toNat + n) = 0
  mem : MemSameOutside s t s.arg1.toNat (n + 1)
  regs : RegsSameBut s t []
  events : t.events = s.events
  consumed : t.consumed = s.consumed ++ [.bytes bs]
  reason : t.reason = s.reason

theorem serviceReadString_of_fits {n : Nat} (hn : n = min (s.nextBytes p).length s.arg2.toNat)
    (hf : s.fits s.arg1.toNat (n + 1)) :
    ∃ t, serviceReadString s p = .next t ∧ StringRead s t (s.nextBytes p) n := by
  have hlen : (s.readStringBytes p).length = n + 1 := by rw [readStringBytes_length, hn]
  have hstored {j : Nat} (hj : j < n + 1) := getElem?_setBytes s.mem s.arg1.toNat (hlen ▸ hj)
  have he : serviceReadString s p = .next
      (State.drawn { s with mem := s.mem.setBytes s.arg1.toNat (s.readStringBytes p) } (.bytes (s.nextBytes p))) := by
    rw [serviceReadString, memWriteBytes_of_fits (hlen ▸ hf), orRaise_ok]
  refine ⟨_, he, fun j hj => ?_, ?_, ?_, fun r _ => ?_, rfl, rfl, rfl⟩
  · rw [← readStringBytes_getElem? hn hj]
    exact hstored (by omega)
  · exact (Option.some.inj ((readStringBytes_getElem?_last hn).symm.trans (hstored (by omega)))).symm
  · exact hlen ▸ memSameOutside_setBytes s _ _ _ rfl
  · rw [reg_drawn, reg_with_mem]

theorem serviceReadString_of_not_fits {n : Nat} (hn : n = min (s.nextBytes p).length s.arg2.toNat)
    (hf : ¬ s.fits s.arg1.toNat (n + 1)) :
    serviceReadString s p = .next (s.faulted (.memoryFault s.arg1.toNat (n + 1))) := by
  have hlen : (s.readStringBytes p).length = n + 1 := by rw [readStringBytes_length, hn]
  rw [serviceReadString, memWriteBytes_of_not (hlen ▸ hf), orRaise_error, hlen]

/-- Settles O51, by `serviceReadString_of_fits` and `serviceReadString_of_not_fits`; the item is cut by
`cutAtNul`. -/
theorem readStringStoresTheTruncatedItem : Obligations.ReadStringStoresTheTruncatedItem := by
  refine ⟨execWith_input, ?_⟩
  rintro inp c v s _ hc hv hk rfl
  have hexec : execWith inp (.syscall c v) s = serviceReadString s (referenceWith inp) :=
    execWith_syscall hc hv hk rfl
  refine ⟨s.nextBytes (referenceWith inp), zero_notMem_cutAtNul _, cutAtNul_of_zero_notMem, fun n hn =>
    ⟨fun hf => ?_, fun hf => ⟨_, hexec.trans (serviceReadString_of_not_fits hn hf), faulted_spec s _⟩⟩⟩
  obtain ⟨t, he, ht⟩ := serviceReadString_of_fits hn hf
  exact ⟨t, hexec.trans he, ht.bytes, ht.zero, ht.mem, ht.regs, ht.events, ht.consumed, ht.reason⟩

/-! ## `exit` and `exit2` (R262, R263) -/

/-- What an exit service leaves: `RUN` cleared and its event appended, nothing else. -/
structure Exited (s t : State) (e : Event) : Prop where
  halted : t.halted
  flag : ∀ n, n ≠ 4 → t.flag.getLsbD n = s.flag.getLsbD n
  regs : RegsSameBut s t [.flag]
  mem : t.mem = s.mem
  events : t.events = s.events ++ [e]
  consumed : t.consumed = s.consumed
  reason : t.reason = s.reason

theorem exited_emit_withRun (s : State) (e : Event) :
    Exited s { s.emit e with flag := withRun s.flag false } e where
  halted := by rw [State.halted, getLsbD_withRun, if_pos rfl]
  flag n hn := by rw [getLsbD_withRun, if_neg hn]
  regs r hr := by rw [reg_with_flag, if_neg (by simpa using hr), reg_emit]
  mem := rfl
  events := rfl
  consumed := rfl
  reason := rfl

/-- Settles O52: both services leave the state `exited_emit_withRun` speaks of. -/
theorem exitServicesHalt : Obligations.ExitServicesHalt := by
  intro c v s e hc hv he
  have hexec : exec (.syscall c v) s = .next { s.emit e with flag := withRun s.flag false } := by
    obtain ⟨hk, rfl⟩ | ⟨hk, rfl⟩ := he
    · exact exec_syscall hc hv hk rfl
    · exact exec_syscall hc hv hk rfl
  have ht := exited_emit_withRun s e
  exact ⟨_, hexec, ht.halted, ht.flag, ht.regs, ht.mem, ht.events, ht.consumed, ht.reason⟩

end Sys2Proof.Machine
end

section
/-! PROOFS. Miscellaneous (spec/47_misc.md): `nop`. -/

namespace Sys2Proof.Machine

/-! ## `nop` (R275) -/

@[simp] theorem exec_nop (s : State) : exec .nop s = execNop s := rfl

/-- The whole effect is in `execNop`: `nop` has no condition to test and no operand to read, so it has no
arm that writes a flag or faults. -/
@[simp] theorem execNop_eq (s : State) : execNop s = .next s := rfl

/-- Settles O54, by `exec_nop` and `execNop_eq`. -/
theorem nopDoesNothing : Obligations.NopDoesNothing := fun s => (exec_nop s).trans (execNop_eq s)

end Sys2Proof.Machine
end

section
/-! PROOFS. A step always answers a next state (spec/60_exceptions.md R281), and a halted machine's is its own
(R293). -/

namespace Sys2Proof.Machine

/-! ## Every outcome is a next state, under any configuration -/

/-- The outcome is a next state: no fault and no refusal of the model. -/
def Answers (o : Outcome) : Prop := ∃ t, o = .next t

section
variable {s : State} {p : Params}

theorem answers_next (t : State) : Answers (.next t) := ⟨t, rfl⟩

theorem answers_raise (r : FaultReason) : Answers (raise s r) := answers_next _

theorem answers_conditional {c : Cond} {o : Outcome} (h : Answers o) : Answers (conditional c s o p) := by
  unfold conditional
  split
  · exact h
  · exact answers_next s

theorem answers_orRaise {α : Type} {x : Except FaultReason α} {k : α → Outcome} (h : ∀ v, Answers (k v)) :
    Answers (orRaise s x k) := by
  cases x with
  | ok v => exact h v
  | error r => exact answers_raise r

theorem answers_withValue {v : Operand} {k : Word → Outcome} (h : ∀ x, Answers (k x)) :
    Answers (withValue s v k p) := answers_orRaise h

theorem answers_withAddr {i : Instr} {a : Operand} {k : Word → Outcome} (h : ∀ x, Answers (k x)) :
    Answers (withAddr s i a k p) := by
  unfold withAddr
  split
  · exact h _
  · exact answers_raise _

theorem answers_arith (o : ArithOp) (c : Cond) (ty : DType) (d r : Reg) (v : Operand) :
    Answers (arith o c ty d r v s p) :=
  answers_conditional (answers_withValue fun _ => answers_orRaise fun _ => answers_next _)

theorem answers_logical (f : Word → Word → Word) (c : Cond) (d r : Reg) (v : Operand) :
    Answers (logical f c d r v s p) :=
  answers_conditional (answers_withValue fun _ => answers_next _)

theorem answers_performService (x : Service) : Answers (performService x s p) := by
  cases x with
  | printString | readString => exact answers_orRaise fun _ => answers_next _
  | _ => exact answers_next _

/-- Every instruction answers a next state: no arm is refused, and a fault is one too (R281). -/
theorem answers_execUnder (i : Instr) : Answers (execUnder p i s) := by
  cases i with
  | nop => exact answers_next s
  | load c d v | loadu c d v | cmp c r v => exact answers_conditional (answers_withValue fun _ => answers_next _)
  | store c r a => exact answers_withAddr fun _ => answers_conditional (answers_orRaise answers_next)
  | add c ty d r v | sub c ty d r v | mul c ty d r v | div c ty d r v | idiv c ty d r v =>
    exact answers_arith _ c ty d r v
  | b cnd a =>
    refine answers_withAddr fun x => ?_
    split <;> exact answers_next _
  | not c d r => exact answers_conditional (answers_next _)
  | and c d r v | or c d r v | xor c d r v | shr c d r v | shl c d r v => exact answers_logical _ c d r v
  | push c v | call c v =>
    exact answers_conditional (answers_withValue fun _ => answers_orRaise fun _ => answers_next _)
  | ret c => exact answers_conditional (answers_orRaise fun _ => answers_orRaise fun _ => answers_next _)
  | syscall c v =>
    refine answers_conditional (answers_withValue fun k => ?_)
    split
    · exact answers_performService _
    · exact answers_raise _

theorem answers_stepUnder : Answers (stepUnder p s) := by
  unfold stepUnder cycle
  split
  · split
    · exact answers_raise _
    · split
      · exact answers_raise _
      · exact answers_execUnder _
  · exact answers_next s
end

/-- Settles O9: the step of the reference machine is one of those `answers_stepUnder` speaks of. -/
theorem everyStepAnswersANextState : Obligations.EveryStepAnswersANextState :=
  fun s => stepUnder_reference s ▸ answers_stepUnder

/-! ## A halted machine (R293) -/

/-- Settles O8, by induction on the number of steps. -/
theorem haltedMachineNeverChanges : Obligations.HaltedMachineNeverChanges := by
  intro k s h
  induction k with
  | zero => rfl
  | succ k ih => exact (run_succ_of_next (M := core) (step_of_halted h) k).trans ih

end Sys2Proof.Machine
end

section
/-! PROOFS. Faults are precise (spec/60_exceptions.md R287), and what holds between two steps (`Inv`). -/

namespace Sys2Proof.Machine

variable {s t : State}

/-! ## Faults (R281, R287) -/

theorem Faulted.reason_eq {r r' : FaultReason} (h : Faulted s t r) (hr : t.reason = some r') : r = r' :=
  Option.some.inj (h.reason.symm.trans hr)

/-- An instruction that leaves a reason where none stood has faulted, from the state it began in. -/
theorem faulted_of_exec_reason {i : Instr} {r : FaultReason} (hs : s.reason = none) (h : exec i s = .next t)
    (hr : t.reason = some r) : Faulted s t r := by
  obtain ⟨-, hkept | ⟨r', hf⟩⟩ := hostRecordChangesOnlyBySyscall i s t h
  · rw [hkept, hs] at hr
    cases hr
  · exact hf.reason_eq hr ▸ hf

/-- Settles O14, by the four things a step can be. -/
theorem faultsArePrecise : Obligations.FaultsArePrecise := by
  intro s t r hs h hr
  obtain ⟨-, rfl⟩ | ⟨-, hfit, rfl⟩ | ⟨-, hfit, -, rfl⟩ | ⟨-, hfit, i, -, hexec⟩ := step_cases h
  · rw [hs] at hr
    cases hr
  · cases hr
    exact .inl ⟨hfit, faulted_spec s _⟩
  · cases hr
    exact .inr ⟨hfit, faulted_spec s.advance _⟩
  · exact .inr ⟨hfit, faulted_of_exec_reason (s := s.advance) hs hexec hr⟩

/-! ## The invariant of a running machine -/

/-- What `Inv` comes to on a running machine, with nothing said of `$flag`: no fault is recorded and no exit event
stands in the record, so a write of `$flag` cannot break it. -/
structure Live (s : State) : Prop where
  memory : s.mem.wf = true
  reason : s.reason = none
  going : ∀ e ∈ s.events, isExitEvent e = false
  printed : ∀ bs, Event.printString bs ∈ s.events → 0 ∉ bs
  drawn : ∀ bs, InputItem.bytes bs ∈ s.consumed → 0 ∉ bs

theorem Inv.live (h : Inv s) (hr : s.running) : Live s where
  memory := h.memory
  reason := by
    by_contra hne
    obtain ⟨hhalt, -⟩ := h.fault hne
    exact Bool.false_ne_true (hhalt.symm.trans hr)
  going e he := by
    by_contra hexit
    exact Bool.false_ne_true ((h.exited ⟨e, he, by simpa using hexit⟩).symm.trans hr)
  printed := h.printed
  drawn := h.drawn

theorem Live.inv (h : Live s) : Inv s where
  memory := h.memory
  fault hne := absurd h.reason hne
  exited := by
    rintro ⟨e, he, hexit⟩
    exact absurd ((h.going e he).symm.trans hexit) Bool.false_ne_true
  exitLast e he := h.going e (List.mem_of_mem_dropLast he)
  printed := h.printed
  drawn := h.drawn

/-- Registers and flags play no part, and memory only by its form. -/
theorem Live.of_sameHost (h : Live s) (hm : t.mem.wf = true) (hh : SameHost s t) : Live t where
  memory := hm
  reason := hh.reason.trans h.reason
  going := hh.events ▸ h.going
  printed := hh.events ▸ h.printed
  drawn := hh.consumed ▸ h.drawn

/-- A fault halts the machine with `ERR` set (R281). -/
theorem Live.inv_of_faulted {r : FaultReason} (h : Live s) (hf : Faulted s t r) : Inv t where
  memory := hf.mem ▸ h.memory
  fault _ := ⟨hf.run, hf.err⟩
  exited _ := hf.run
  exitLast e he := h.going e (hf.events ▸ List.mem_of_mem_dropLast he)
  printed := hf.events ▸ h.printed
  drawn := hf.consumed ▸ h.drawn

/-- An exit halts the machine, and its event is the last (spec/46_syscall.md R262, R263). -/
theorem Live.inv_of_exited {e : Event} (h : Live s) (he : isExitEvent e = true) (hx : Exited s t e) : Inv t where
  memory := hx.mem ▸ h.memory
  fault hne := absurd (hx.reason.trans h.reason) hne
  exited _ := hx.halted
  exitLast := by
    rw [hx.events, List.dropLast_concat]
    exact h.going
  printed bs hbs := by
    rw [hx.events, List.mem_append, List.mem_singleton] at hbs
    obtain hbs | rfl := hbs
    · exact h.printed bs hbs
    · cases he
  drawn := hx.consumed ▸ h.drawn

/-- An output that is no exit and, if it is a string, holds no NUL. -/
theorem Live.emit {e : Event} (h : Live s) (he : isExitEvent e = false)
    (hbs : ∀ bs, e = .printString bs → 0 ∉ bs) : Live (s.emit e) where
  memory := h.memory
  reason := h.reason
  going := by
    rw [emit_events]
    exact List.forall_mem_append.mpr ⟨h.going, by simpa using he⟩
  printed bs hmem := by
    rw [emit_events, List.mem_append, List.mem_singleton] at hmem
    exact hmem.elim (h.printed bs) fun heq => hbs bs heq.symm
  drawn := h.drawn

/-- A draw that, if it is of a string, holds no NUL. -/
theorem Live.draw {x : InputItem} (h : Live s) (hbs : ∀ bs, x = .bytes bs → 0 ∉ bs) : Live (s.drawn x) where
  memory := h.memory
  reason := h.reason
  going := h.going
  printed := h.printed
  drawn bs hmem := by
    rw [drawn_consumed, List.mem_append, List.mem_singleton] at hmem
    exact hmem.elim (h.drawn bs) fun heq => hbs bs heq.symm

theorem Live.setReg (h : Live s) (d : Reg) (x : Word) : Live (s.setReg d x) :=
  h.of_sameHost (by rw [setReg_mem]; exact h.memory) ⟨by simp, by simp, by simp⟩

/-! ## Every step keeps the invariant -/

/-- What `print_string` reads holds no NUL (spec/46_syscall.md R256). -/
theorem zero_notMem_of_stringAt {a : Word} {bs : List Byte} (h : s.stringAt a = .ok bs) : 0 ∉ bs := by
  unfold State.stringAt at h
  split at h
  next hscan =>
    cases h
    exact zero_notMem_of_scan hscan
  next => cases h

/-- A service that does not fault keeps the invariant (R250 to R263). -/
theorem Live.inv_of_served {x : Service} (h : Live s) (hx : Served x s t) : Inv t := by
  cases x with
  | printInt | printFloat | printDouble | printChar =>
    cases hx
    exact (h.emit rfl (by rintro _ ⟨⟩)).inv
  | printString =>
    obtain ⟨bs, hbs, rfl⟩ := hx
    refine (h.emit rfl ?_).inv
    rintro _ ⟨⟩
    exact zero_notMem_of_stringAt hbs
  | readInt | readFloat | readDouble | readChar =>
    cases hx
    exact ((h.draw (by rintro _ ⟨⟩)).setReg _ _).inv
  | readString =>
    obtain ⟨hfit, rfl⟩ := hx
    refine Live.inv (Live.draw (h.of_sameHost (setBytes_wf h.memory hfit) ⟨rfl, rfl, rfl⟩) ?_)
    rintro _ ⟨⟩
    exact zero_notMem_cutAtNul _
  | exit | exit2 =>
    cases hx
    exact h.inv_of_exited rfl (exited_emit_withRun s _)

/-- Memory stays in canonical form under an instruction that has no destination and is no `syscall`: what it stores
lies in memory (spec/20_memory.md R65, R66). -/
theorem ran_mem_wf_of_no_dest {i : Instr} (hd : destOf i = none) (h : Ran i s t) (hs : ∀ c v, i ≠ .syscall c v)
    (hm : s.mem.wf = true) : t.mem.wf = true := by
  cases i with
  | store =>
    obtain ⟨x, -, hfit, rfl⟩ := h
    exact setBytes_wf hm (by rwa [bytesOfNat_length])
  | push =>
    obtain ⟨hfit, rfl⟩ := h
    exact setBytes_wf hm (by rwa [bytesOfNat_length])
  | call =>
    obtain ⟨hfit, rfl⟩ := h
    exact setBytes_wf hm (by rwa [frameBytes_length])
  | syscall c v => exact absurd rfl (hs c v)
  | nop | cmp | b | ret =>
    rw [ran_mem_of_no_dest hd h nofun nofun nofun nofun]
    exact hm
  | _ => cases hd

/-- What any instruction does to a live machine meets the invariant. -/
theorem Live.inv_of_exec {i : Instr} (h : Live s) (hexec : exec i s = .next t) : Inv t := by
  obtain rfl | ⟨r, hf⟩ | ⟨d, x, -, hw⟩ | ⟨hd, hran⟩ := exec_effect_cases hexec
  · exact h.inv
  · exact h.inv_of_faulted hf
  · exact (h.of_sameHost (hw.mem ▸ h.memory) hw.host).inv
  · by_cases hs : ∃ c v, i = .syscall c v
    · obtain ⟨c, v, rfl⟩ := hs
      obtain ⟨x, -, hserved⟩ := hran
      exact h.inv_of_served hserved
    · simp only [not_exists] at hs
      exact (h.of_sameHost (ran_mem_wf_of_no_dest hd hran hs h.memory) (ran_host_of_no_dest hd hran hs)).inv

/-- Settles O11: a halted machine stands still, and a running one is `Live`, so that every fault and every
instruction from there meets the invariant. -/
theorem stepKeepsTheInvariant : Obligations.StepKeepsTheInvariant := by
  intro s t hinv h
  have hadvance (hr : s.running) : Live s.advance :=
    (hinv.live hr).of_sameHost hinv.memory ⟨rfl, rfl, rfl⟩
  obtain ⟨-, rfl⟩ | ⟨hr, -, rfl⟩ | ⟨hr, -, -, rfl⟩ | ⟨hr, -, i, -, hexec⟩ := step_cases h
  · exact hinv
  · exact (hinv.live hr).inv_of_faulted (faulted_spec s _)
  · exact (hadvance hr).inv_of_faulted (faulted_spec s.advance _)
  · exact (hadvance hr).inv_of_exec hexec

end Sys2Proof.Machine
end

section
/-! PROOFS. DivideByZero (spec/60_exceptions.md R284): `div` and `idiv` by zero, and where they do not fault. -/

namespace Sys2Proof.Machine

variable {s : State} {c : Cond} {d r : Reg} {v : Operand}

/-! ## A divisor of zero -/

/-- The result of `div` for each integer type where the divisor is zero: all 64 bits, or the low 32. -/
theorem arithResult_div_int64_zero {a b : Word} (hb : b = 0) :
    arithResult divOp .int64 a b = .error .divideByZero := if_pos hb

theorem arithResult_div_int32_zero {a b : Word} (hb : lowHalf b = 0) :
    arithResult divOp .int32 a b = .error .divideByZero := by
  simp only [arithResult, divOp, divOrFault, if_pos hb]

/-- The operation of the arithmetic class where it has no result. -/
theorem arith_of_error {o : ArithOp} {ty : DType} {e : FaultReason} (hc : condHolds c s) (hv : s.readable v)
    (he : arithResult o ty (s.reg r) (s.operandValue v) = .error e) :
    arith o c ty d r v s = .next (s.faulted e) := by
  rw [arith, conditional_of_holds hc, withValue_of_readable hv, he, orRaise_error]

/-- Either division instruction raises the fault of `div` on the integer types. -/
theorem faults_division {f : Cond → DType → Reg → Reg → Operand → Instr} {ty : DType} {e : FaultReason}
    (hf : f ∈ [Instr.div, Instr.idiv]) (hty : ty = .int64 ∨ ty = .int32) (hc : condHolds c s)
    (hv : s.readable v) (he : arithResult divOp ty (s.reg r) (s.operandValue v) = .error e) :
    Faults (f c ty d r v) s e := by
  have hidiv := (arithResult_idiv hty _ _).trans he
  simp only [List.mem_cons, List.not_mem_nil, or_false] at hf
  obtain rfl | rfl := hf
  · exact ⟨_, arith_of_error hc hv he, faulted_spec s e⟩
  · exact ⟨_, arith_of_error hc hv hidiv, faulted_spec s e⟩

/-! ## The overflow -/

/-- `MIN / -1` wraps to `MIN`, in any width. -/
theorem intQuot_overflow {n : Nat} {x y : BitVec n} (hx : x = BitVec.intMin n) (hy : y = -1) :
    intQuot .trunc x y = BitVec.intMin n := by
  rw [intQuot_trunc, hx, hy]
  exact BitVec.intMin_sdiv_neg_one

theorem arithResult_div_int64_overflow {a b : Word} (ha : a = BitVec.intMin 64) (hb : b = -1) :
    arithResult divOp .int64 a b = .ok (BitVec.intMin 64) := by
  rw [arithResult_div_int64 (by rw [hb]; decide), intQuot_overflow ha hb]

theorem arithResult_div_int32_overflow {a b : Word} (ha : lowHalf a = BitVec.intMin 32) (hb : lowHalf b = -1) :
    arithResult divOp .int32 a b = .ok 0x80000000 := by
  rw [arithResult_div_int32 (by rw [hb]; decide), intQuot_overflow ha hb]
  rfl

/-- Settles O37: the integer types by the result of `div` in each case, the floating types by `NUM` itself. -/
theorem divideByZeroIsRaisedOnIntegersOnly : Obligations.DivideByZeroIsRaisedOnIntegersOnly := by
  intro c d r v s hc hv
  refine ⟨fun f hf => ⟨?_, ?_, ?_, ?_, ?_, ?_⟩, writes_of_readable rfl rfl rfl hc hv rfl,
    writes_of_readable rfl rfl rfl hc hv rfl, writes_of_readable rfl rfl rfl hc hv rfl,
    writes_of_readable rfl rfl rfl hc hv rfl⟩
  · exact fun h0 => faults_division hf (.inl rfl) hc hv (arithResult_div_int64_zero h0)
  · exact fun hne => ⟨_, writes_division hf (.inl rfl) hc hv (arithResult_div_int64 hne)⟩
  · exact fun h0 => faults_division hf (.inr rfl) hc hv (arithResult_div_int32_zero h0)
  · exact fun hne => ⟨_, writes_division hf (.inr rfl) hc hv (arithResult_div_int32 hne)⟩
  · exact fun hx hy => writes_division hf (.inl rfl) hc hv (arithResult_div_int64_overflow hx hy)
  · exact fun hx hy => writes_division hf (.inr rfl) hc hv (arithResult_div_int32_overflow hx hy)

end Sys2Proof.Machine
end

section
/-! PROOFS. UnknownSyscall (spec/60_exceptions.md R285): the numbers that name no service, and the faults of those
that do. -/

namespace Sys2Proof.Machine

variable {s t : State} {c : Cond} {v : Operand}

/-- The numbers 1 to 12 name a service (spec/46_syscall.md R250). -/
theorem exists_serviceOf {k : Word} (hlow : 1 ≤ k.toNat) (hhigh : k.toNat ≤ 12) : ∃ x, serviceOf k = some x := by
  unfold serviceOf
  interval_cases k.toNat <;> exact ⟨_, rfl⟩

/-- No other number does, all 64 bits of it compared (spec/46_syscall.md R264). -/
theorem serviceOf_eq_none {k : Word} (h : k.toNat = 0 ∨ 12 < k.toNat) : serviceOf k = none := by
  unfold serviceOf
  split
  case h_13 => rfl
  all_goals omega

theorem exec_syscall_of_unknown (hc : condHolds c s) (hv : s.readable v)
    (hk : serviceOf (s.operandValue v) = none) :
    exec (.syscall c v) s = .next (s.faulted (.unknownSyscall (s.operandValue v))) := by
  rw [exec, execSyscall, conditional_of_holds hc, withValue_of_readable hv]
  simp only [hk, raise_eq]

/-- The only fault of a service is a MemoryFault, of the string it reads or stores (R256, R261). -/
theorem performService_reason {x : Service} (h : performService x s = .next t) :
    t.reason = s.reason ∨ ∃ a n, t.reason = some (.memoryFault a n) := by
  cases x with
  | printString =>
    obtain ⟨bs, -, h⟩ | ⟨r, hr, rfl⟩ := orRaise_cases h
    · cases h
      exact .inl rfl
    · unfold State.stringAt at hr
      split at hr <;> cases hr
      exact .inr ⟨_, _, rfl⟩
  | readString =>
    obtain ⟨u, hu, h⟩ | ⟨r, hr, rfl⟩ := orRaise_cases h
    · obtain ⟨-, rfl⟩ := memWriteBytes_ok hu
      cases h
      exact .inl rfl
    · rw [memWriteBytes_eq] at hr
      split at hr <;> cases hr
      exact .inr ⟨_, _, rfl⟩
  | _ =>
    cases h
    exact .inl rfl

/-- Settles O53, by `exec_syscall_of_unknown`, and by `performService_reason` for a number that names a service. -/
theorem unknownServiceFaults : Obligations.UnknownServiceFaults := by
  intro c v s hc hv
  refine ⟨fun hk => ⟨_, exec_syscall_of_unknown hc hv (serviceOf_eq_none hk), faulted_spec s _⟩,
    fun hlow hhigh hs t k h hr => ?_⟩
  obtain ⟨x, hx⟩ := exists_serviceOf hlow hhigh
  rw [exec_syscall hc hv rfl hx] at h
  obtain hkept | ⟨a, n, hmem⟩ := performService_reason h
  · rw [hkept, hs] at hr
    cases hr
  · rw [hmem] at hr
    cases hr

end Sys2Proof.Machine
end

section
/-! PROOFS. The relational reading of the conditional test (spec/92_eei_decisions.md D10). -/

namespace Sys2Proof.Machine

/-- Settles O23: one of the three codes of `cmp` stands in the flags, and each test passes under it exactly where
its relation follows. -/
theorem relationalTestsAreTheRelations : Obligations.RelationalTestsAreTheRelations := by
  intro x y
  obtain ⟨h, hcode⟩ | ⟨h, hcode⟩ | ⟨h, hcode⟩ := compareCode_cases x y
  · rw [hcode]
    exact ⟨iff_of_true rfl h, iff_of_false (by decide) (by omega), iff_of_false (by decide) (by omega),
      iff_of_true rfl (by omega), iff_of_false (by decide) (by omega), iff_of_true rfl (by omega)⟩
  · rw [hcode]
    exact ⟨iff_of_false (by decide) (by omega), iff_of_true rfl (by omega), iff_of_true rfl h,
      iff_of_true rfl (by omega), iff_of_false (by decide) (by omega), iff_of_false (by decide) (by omega)⟩
  · rw [hcode]
    exact ⟨iff_of_false (by decide) (by omega), iff_of_true rfl (by omega), iff_of_false (by decide) (by omega),
      iff_of_false (by decide) (by omega), iff_of_true rfl h, iff_of_true rfl (by omega)⟩

end Sys2Proof.Machine
end
